-- ==== Sys2Proof/Word.lean ====
section
/-! DEFINITION. The word types of TOTP-CORE (spec/00_scope.md R14, R15): what the spec treats as bits. -/

namespace Sys2Proof

/-- One byte of a byte string or byte buffer (R15). -/
abbrev Byte := BitVec 8

/-- A bus word, a command word, a register (R23, R90). -/
abbrev Word := BitVec 32

/-- A 64-bit register (R68) or SHA-512 word (R130). -/
abbrev DWord := BitVec 64

/-- A byte offset into the register aperture: offset bits 8:0 (R61). -/
abbrev Offset := BitVec 9

end Sys2Proof
end

