-- ==== Sys2Proof/Machine/Bytes.lean ====
section
/-! DEFINITION. Byte strings, byte order and byte buffers (spec/00_scope.md R15, spec/20_memory.md R68 to R70). Byte
order is decided here and nowhere else. -/

namespace Sys2Proof.Machine

/-! ## Words as bytes, most significant first -/

/-- The k bytes of a value, most significant first (BE32, BE64, BE128 of R131 to R133; Serialize of R111). -/
def beBytes (k : Nat) {w : Nat} (v : BitVec w) : List Byte :=
  (List.range k).map fun i => v.extractLsb' (8 * (k - 1 - i)) 8

/-- The number a byte string is, read most significant byte first (R114's BE64, R133). -/
def beNat (bs : List Byte) : Nat :=
  bs.foldl (fun acc b => acc * 256 + b.toNat) 0

/-- Four bytes as a word, the first in bits 31:24 (R15). -/
def be32 (b0 b1 b2 b3 : Byte) : Word := b0 ++ b1 ++ b2 ++ b3

/-- Byte k of a bus word, byte 0 in bits 31:24 (R69). -/
def wordByte (w : Word) (k : Nat) : Byte := w.extractLsb' (8 * (3 - k)) 8

/-! ## Byte buffers -/

/-- Byte i of a buffer. -/
def byteAt {n : Nat} (b : Vector Byte n) (i : Nat) : Byte := b.toList.getD i 0

/-- The word BE32(B, 4j) of a buffer (R15, R69). -/
def wordAt {n : Nat} (b : Vector Byte n) (j : Nat) : Word :=
  be32 (byteAt b (4 * j)) (byteAt b (4 * j + 1)) (byteAt b (4 * j + 2)) (byteAt b (4 * j + 3))

/-- The buffer after a bus write of w to its word j (R38, R69). -/
def setWordAt {n : Nat} (b : Vector Byte n) (j : Nat) (w : Word) : Vector Byte n :=
  Vector.ofFn fun i => if i.val / 4 = j then wordByte w (i.val % 4) else b[i]

/-- A buffer that holds a byte string from its start and 0x00 after it (R39: DIGEST[0:L) and DIGEST[L:64)). -/
def bufferOf (n : Nat) (bs : List Byte) : Vector Byte n :=
  Vector.ofFn fun i => bs.getD i.val 0

/-! ## The two words of a 64-bit register (R68) -/

/-- The HI word, bits 63:32. -/
def hiWord (x : DWord) : Word := x.extractLsb' 32 32

/-- The LO word, bits 31:0. -/
def loWord (x : DWord) : Word := x.extractLsb' 0 32

/-- The register after a write of its HI word. -/
def setHiWord (x : DWord) (v : Word) : DWord := v ++ loWord x

/-- The register after a write of its LO word. -/
def setLoWord (x : DWord) (v : Word) : DWord := hiWord x ++ v

end Sys2Proof.Machine
end

