-- ==== Sys2Proof/Machine/ShaCommon.lean ====
section
/-! DEFINITION. What the three hash functions share (spec/41_hmac.md R131 to R133, R134, R140): padding, blocks, word
order, Ch, Maj and Parity. -/

namespace Sys2Proof.Machine

/-- The z of R131 and R132: "the least number ≥ 0 with (n + 1 + z) mod B = B − k", for a block of B bytes and a length
field of k bytes. -/
def zeroPad (blockBytes lenBytes n : Nat) : Nat :=
  (blockBytes - lenBytes + (blockBytes - 1) - n % blockBytes) % blockBytes

/-- The padded message `M ‖ 0x80 ‖ 0x00^z ‖ BE(ℓ)`, ℓ the length in bits (R131 with 64 and 8, R132 with 128 and 16). -/
def padMessage (blockBytes lenBytes : Nat) (m : List Byte) : List Byte :=
  m ++ 0x80 :: (List.replicate (zeroPad blockBytes lenBytes m.length) 0
    ++ beBytes lenBytes (BitVec.ofNat (8 * lenBytes) (8 * m.length)))

/-- A padded message cut into its blocks (R131, R132). -/
def blocksOf (blockBytes : Nat) (m : List Byte) : List (List Byte) :=
  (List.range (m.length / blockBytes)).map fun i => (m.drop (blockBytes * i)).take blockBytes

/-- A block as 16 words of k bytes each, most significant byte first (R133). -/
def wordsOf (k : Nat) (w : Nat) (block : List Byte) : List (BitVec w) :=
  (List.range 16).map fun t => BitVec.ofNat w (beNat ((block.drop (k * t)).take k))

/-- The message schedule W_0 .. W_{15+n}: the 16 words of the block, then n more, each computed by `next` from the
words so far, newest first (so entry j of next's list is W_{t−1−j}; R137, R143, R149). -/
def scheduleRev {w : Nat} (next : List (BitVec w) → BitVec w) : Nat → List (BitVec w) → List (BitVec w)
  | 0, newestFirst => newestFirst
  | n + 1, newestFirst => scheduleRev next n (next newestFirst :: newestFirst)

/-- The schedule in order. -/
def schedule {w : Nat} (next : List (BitVec w) → BitVec w) (n : Nat) (block : List (BitVec w)) : List (BitVec w) :=
  (scheduleRev next n block.reverse).reverse

/-- Ch (R134, R140). -/
def ch {w : Nat} (x y z : BitVec w) : BitVec w := (x &&& y) ^^^ (~~~x &&& z)

/-- Maj (R134, R140). -/
def maj {w : Nat} (x y z : BitVec w) : BitVec w := (x &&& y) ^^^ (x &&& z) ^^^ (y &&& z)

/-- Parity (R134). -/
def parity {w : Nat} (x y z : BitVec w) : BitVec w := x ^^^ y ^^^ z

end Sys2Proof.Machine
end

