-- ==== Sys2Proof/Machine/Sha1.lean ====
section
/-! DEFINITION. SHA-1 (spec/41_hmac.md R134 to R139). -/

namespace Sys2Proof.Machine

/-- The five hash words (R136), and the working variables a to e (R138). -/
structure Sha1Words where
  a : Word
  b : Word
  c : Word
  d : Word
  e : Word
deriving DecidableEq, Repr

/-- f_t (R134). -/
def sha1F (t : Nat) (x y z : Word) : Word :=
  if t < 20 then ch x y z
  else if t < 40 then parity x y z
  else if t < 60 then maj x y z
  else parity x y z

/-- K_t (R135). -/
def sha1K (t : Nat) : Word :=
  if t < 20 then 0x5A827999
  else if t < 40 then 0x6ED9EBA1
  else if t < 60 then 0x8F1BBCDC
  else 0xCA62C1D6

/-- H(0) (R136). -/
def sha1Init : Sha1Words :=
  { a := 0x67452301, b := 0xEFCDAB89, c := 0x98BADCFE, d := 0x10325476, e := 0xC3D2E1F0 }

/-- W_t from the words before it, newest first: ROTL^1 (W_{t−3} ⊕ W_{t−8} ⊕ W_{t−14} ⊕ W_{t−16}) (R137). -/
def sha1NextWord (r : List Word) : Word :=
  (r.getD 2 0 ^^^ r.getD 7 0 ^^^ r.getD 13 0 ^^^ r.getD 15 0).rotateLeft 1

/-- W_0 .. W_79 of a block (R137). -/
def sha1Schedule (block : List Word) : List Word := schedule sha1NextWord 64 block

/-- One round (R138). -/
def sha1Round (t : Nat) (w : Word) (s : Sha1Words) : Sha1Words :=
  { a := s.a.rotateLeft 5 + sha1F t s.b s.c s.d + s.e + sha1K t + w
    b := s.a
    c := s.b.rotateLeft 30
    d := s.c
    e := s.d }

/-- The rounds from round t on, one for each word left in the schedule (R138). -/
def sha1Rounds : Nat → List Word → Sha1Words → Sha1Words
  | _, [], s => s
  | t, w :: ws, s => sha1Rounds (t + 1) ws (sha1Round t w s)

/-- H(i) from H(i−1) and block M(i) (R138). -/
def sha1Compress (h : Sha1Words) (block : List Word) : Sha1Words :=
  let r := sha1Rounds 0 (sha1Schedule block) h
  { a := h.a + r.a, b := h.b + r.b, c := h.c + r.c, d := h.d + r.d, e := h.e + r.e }

/-- SHA-1(M), 20 bytes (R139). -/
def sha1 (m : List Byte) : List Byte :=
  let h := (blocksOf 64 (padMessage 64 8 m)).foldl (fun h b => sha1Compress h (wordsOf 4 32 b)) sha1Init
  beBytes 4 h.a ++ beBytes 4 h.b ++ beBytes 4 h.c ++ beBytes 4 h.d ++ beBytes 4 h.e

end Sys2Proof.Machine
end

