-- ==== Sys2Proof/Machine/Sha2.lean ====
section
/-! DEFINITION. SHA-256 and SHA-512 (spec/41_hmac.md R140 to R151). The two share one loop: R150 is "the loop of rule
R144 with 80 rounds". The constant tables are the spec's, row by row. -/

namespace Sys2Proof.Machine

/-- The eight hash words (R142, R148), and the working variables a to h (R144). -/
structure Sha2Words (w : Nat) where
  a : BitVec w
  b : BitVec w
  c : BitVec w
  d : BitVec w
  e : BitVec w
  f : BitVec w
  g : BitVec w
  h : BitVec w
deriving DecidableEq, Repr

/-! ## The shared loop (R143, R144, R149, R150) -/

/-- W_t from the words before it, newest first: σ1(W_{t−2}) + W_{t−7} + σ0(W_{t−15}) + W_{t−16} (R143, R149). -/
def sha2NextWord {w : Nat} (smallSigma0 smallSigma1 : BitVec w → BitVec w) (r : List (BitVec w)) : BitVec w :=
  smallSigma1 (r.getD 1 0) + r.getD 6 0 + smallSigma0 (r.getD 14 0) + r.getD 15 0

/-- One round, with the constant K_t and the schedule word W_t (R144). -/
def sha2Round {w : Nat} (bigSigma0 bigSigma1 : BitVec w → BitVec w) (kt wt : BitVec w) (s : Sha2Words w) :
    Sha2Words w :=
  let t1 := s.h + bigSigma1 s.e + ch s.e s.f s.g + kt + wt
  let t2 := bigSigma0 s.a + maj s.a s.b s.c
  { a := t1 + t2, b := s.a, c := s.b, d := s.c, e := s.d + t1, f := s.e, g := s.f, h := s.g }

/-- The rounds, one for each constant and schedule word (R144, R150). -/
def sha2Rounds {w : Nat} (bigSigma0 bigSigma1 : BitVec w → BitVec w) (ks ws : List (BitVec w)) (s : Sha2Words w) :
    Sha2Words w :=
  (ks.zip ws).foldl (fun s kw => sha2Round bigSigma0 bigSigma1 kw.1 kw.2 s) s

/-- The word by word sum that ends a compression (R144). -/
def sha2Add {w : Nat} (x y : Sha2Words w) : Sha2Words w :=
  { a := x.a + y.a, b := x.b + y.b, c := x.c + y.c, d := x.d + y.d
    e := x.e + y.e, f := x.f + y.f, g := x.g + y.g, h := x.h + y.h }

/-- The eight words of a digest, each most significant byte first (R133, R145, R151). -/
def sha2Output {w : Nat} (k : Nat) (x : Sha2Words w) : List Byte :=
  beBytes k x.a ++ beBytes k x.b ++ beBytes k x.c ++ beBytes k x.d
    ++ beBytes k x.e ++ beBytes k x.f ++ beBytes k x.g ++ beBytes k x.h

/-! ## SHA-256 -/

/-- Σ0 on 32-bit words (R140). -/
def bigSigma0_256 (x : Word) : Word := x.rotateRight 2 ^^^ x.rotateRight 13 ^^^ x.rotateRight 22

/-- Σ1 on 32-bit words (R140). -/
def bigSigma1_256 (x : Word) : Word := x.rotateRight 6 ^^^ x.rotateRight 11 ^^^ x.rotateRight 25

/-- σ0 on 32-bit words (R140). -/
def smallSigma0_256 (x : Word) : Word := x.rotateRight 7 ^^^ x.rotateRight 18 ^^^ (x >>> 3)

/-- σ1 on 32-bit words (R140). -/
def smallSigma1_256 (x : Word) : Word := x.rotateRight 17 ^^^ x.rotateRight 19 ^^^ (x >>> 10)

/-- K_0 .. K_15 (R141). -/
def sha256K0 : List Word :=
  [0x428A2F98, 0x71374491, 0xB5C0FBCF, 0xE9B5DBA5, 0x3956C25B, 0x59F111F1, 0x923F82A4, 0xAB1C5ED5,
   0xD807AA98, 0x12835B01, 0x243185BE, 0x550C7DC3, 0x72BE5D74, 0x80DEB1FE, 0x9BDC06A7, 0xC19BF174]

/-- K_16 .. K_31 (R141). -/
def sha256K1 : List Word :=
  [0xE49B69C1, 0xEFBE4786, 0x0FC19DC6, 0x240CA1CC, 0x2DE92C6F, 0x4A7484AA, 0x5CB0A9DC, 0x76F988DA,
   0x983E5152, 0xA831C66D, 0xB00327C8, 0xBF597FC7, 0xC6E00BF3, 0xD5A79147, 0x06CA6351, 0x14292967]

/-- K_32 .. K_47 (R141). -/
def sha256K2 : List Word :=
  [0x27B70A85, 0x2E1B2138, 0x4D2C6DFC, 0x53380D13, 0x650A7354, 0x766A0ABB, 0x81C2C92E, 0x92722C85,
   0xA2BFE8A1, 0xA81A664B, 0xC24B8B70, 0xC76C51A3, 0xD192E819, 0xD6990624, 0xF40E3585, 0x106AA070]

/-- K_48 .. K_63 (R141). -/
def sha256K3 : List Word :=
  [0x19A4C116, 0x1E376C08, 0x2748774C, 0x34B0BCB5, 0x391C0CB3, 0x4ED8AA4A, 0x5B9CCA4F, 0x682E6FF3,
   0x748F82EE, 0x78A5636F, 0x84C87814, 0x8CC70208, 0x90BEFFFA, 0xA4506CEB, 0xBEF9A3F7, 0xC67178F2]

/-- K_0 .. K_63 (R141). -/
def sha256K : List Word := sha256K0 ++ sha256K1 ++ sha256K2 ++ sha256K3

/-- H(0) (R142). -/
def sha256Init : Sha2Words 32 :=
  { a := 0x6A09E667, b := 0xBB67AE85, c := 0x3C6EF372, d := 0xA54FF53A
    e := 0x510E527F, f := 0x9B05688C, g := 0x1F83D9AB, h := 0x5BE0CD19 }

/-- W_0 .. W_63 of a block (R143). -/
def sha256Schedule (block : List Word) : List Word :=
  schedule (sha2NextWord smallSigma0_256 smallSigma1_256) 48 block

/-- H(i) from H(i−1) and block M(i) (R144). -/
def sha256Compress (h : Sha2Words 32) (block : List Word) : Sha2Words 32 :=
  sha2Add h (sha2Rounds bigSigma0_256 bigSigma1_256 sha256K (sha256Schedule block) h)

/-- SHA-256(M), 32 bytes (R145). -/
def sha256 (m : List Byte) : List Byte :=
  sha2Output 4
    ((blocksOf 64 (padMessage 64 8 m)).foldl (fun h b => sha256Compress h (wordsOf 4 32 b)) sha256Init)

/-! ## SHA-512 -/

/-- Σ0 on 64-bit words (R146). -/
def bigSigma0_512 (x : DWord) : DWord := x.rotateRight 28 ^^^ x.rotateRight 34 ^^^ x.rotateRight 39

/-- Σ1 on 64-bit words (R146). -/
def bigSigma1_512 (x : DWord) : DWord := x.rotateRight 14 ^^^ x.rotateRight 18 ^^^ x.rotateRight 41

/-- σ0 on 64-bit words (R146). -/
def smallSigma0_512 (x : DWord) : DWord := x.rotateRight 1 ^^^ x.rotateRight 8 ^^^ (x >>> 7)

/-- σ1 on 64-bit words (R146). -/
def smallSigma1_512 (x : DWord) : DWord := x.rotateRight 19 ^^^ x.rotateRight 61 ^^^ (x >>> 6)

/-- K_0 .. K_15 (R147). -/
def sha512K0 : List DWord :=
  [0x428A2F98D728AE22, 0x7137449123EF65CD, 0xB5C0FBCFEC4D3B2F, 0xE9B5DBA58189DBBC,
   0x3956C25BF348B538, 0x59F111F1B605D019, 0x923F82A4AF194F9B, 0xAB1C5ED5DA6D8118,
   0xD807AA98A3030242, 0x12835B0145706FBE, 0x243185BE4EE4B28C, 0x550C7DC3D5FFB4E2,
   0x72BE5D74F27B896F, 0x80DEB1FE3B1696B1, 0x9BDC06A725C71235, 0xC19BF174CF692694]

/-- K_16 .. K_31 (R147). -/
def sha512K1 : List DWord :=
  [0xE49B69C19EF14AD2, 0xEFBE4786384F25E3, 0x0FC19DC68B8CD5B5, 0x240CA1CC77AC9C65,
   0x2DE92C6F592B0275, 0x4A7484AA6EA6E483, 0x5CB0A9DCBD41FBD4, 0x76F988DA831153B5,
   0x983E5152EE66DFAB, 0xA831C66D2DB43210, 0xB00327C898FB213F, 0xBF597FC7BEEF0EE4,
   0xC6E00BF33DA88FC2, 0xD5A79147930AA725, 0x06CA6351E003826F, 0x142929670A0E6E70]

/-- K_32 .. K_47 (R147). -/
def sha512K2 : List DWord :=
  [0x27B70A8546D22FFC, 0x2E1B21385C26C926, 0x4D2C6DFC5AC42AED, 0x53380D139D95B3DF,
   0x650A73548BAF63DE, 0x766A0ABB3C77B2A8, 0x81C2C92E47EDAEE6, 0x92722C851482353B,
   0xA2BFE8A14CF10364, 0xA81A664BBC423001, 0xC24B8B70D0F89791, 0xC76C51A30654BE30,
   0xD192E819D6EF5218, 0xD69906245565A910, 0xF40E35855771202A, 0x106AA07032BBD1B8]

/-- K_48 .. K_63 (R147). -/
def sha512K3 : List DWord :=
  [0x19A4C116B8D2D0C8, 0x1E376C085141AB53, 0x2748774CDF8EEB99, 0x34B0BCB5E19B48A8,
   0x391C0CB3C5C95A63, 0x4ED8AA4AE3418ACB, 0x5B9CCA4F7763E373, 0x682E6FF3D6B2B8A3,
   0x748F82EE5DEFB2FC, 0x78A5636F43172F60, 0x84C87814A1F0AB72, 0x8CC702081A6439EC,
   0x90BEFFFA23631E28, 0xA4506CEBDE82BDE9, 0xBEF9A3F7B2C67915, 0xC67178F2E372532B]

/-- K_64 .. K_79 (R147). -/
def sha512K4 : List DWord :=
  [0xCA273ECEEA26619C, 0xD186B8C721C0C207, 0xEADA7DD6CDE0EB1E, 0xF57D4F7FEE6ED178,
   0x06F067AA72176FBA, 0x0A637DC5A2C898A6, 0x113F9804BEF90DAE, 0x1B710B35131C471B,
   0x28DB77F523047D84, 0x32CAAB7B40C72493, 0x3C9EBE0A15C9BEBC, 0x431D67C49C100D4C,
   0x4CC5D4BECB3E42B6, 0x597F299CFC657E2A, 0x5FCB6FAB3AD6FAEC, 0x6C44198C4A475817]

/-- K_0 .. K_79 (R147). -/
def sha512K : List DWord := sha512K0 ++ sha512K1 ++ sha512K2 ++ sha512K3 ++ sha512K4

/-- H(0) (R148). -/
def sha512Init : Sha2Words 64 :=
  { a := 0x6A09E667F3BCC908, b := 0xBB67AE8584CAA73B, c := 0x3C6EF372FE94F82B, d := 0xA54FF53A5F1D36F1
    e := 0x510E527FADE682D1, f := 0x9B05688C2B3E6C1F, g := 0x1F83D9ABFB41BD6B, h := 0x5BE0CD19137E2179 }

/-- W_0 .. W_79 of a block (R149). -/
def sha512Schedule (block : List DWord) : List DWord :=
  schedule (sha2NextWord smallSigma0_512 smallSigma1_512) 64 block

/-- H(i) from H(i−1) and block M(i) (R150). -/
def sha512Compress (h : Sha2Words 64) (block : List DWord) : Sha2Words 64 :=
  sha2Add h (sha2Rounds bigSigma0_512 bigSigma1_512 sha512K (sha512Schedule block) h)

/-- SHA-512(M), 64 bytes (R151). -/
def sha512 (m : List Byte) : List Byte :=
  sha2Output 8
    ((blocksOf 128 (padMessage 128 16 m)).foldl (fun h b => sha512Compress h (wordsOf 8 64 b)) sha512Init)

end Sys2Proof.Machine
end

