-- ==== Sys2Proof/Syntax.lean ====
section
/-! DEFINITION. The command set (spec/30_encoding.md R92): one constructor per row of spec/opcode_table.json. A
command carries exactly the fields its row uses (R96, R97). -/

namespace Sys2Proof

/-- The three hash algorithms the block has (R3, R93). -/
inductive HashAlg where
  | sha1
  | sha256
  | sha512
deriving DecidableEq, Repr

/-- The ALG field of a command: the three algorithms, and the reserved encoding 3, which decodes (R93). -/
inductive AlgField where
  | sha1
  | sha256
  | sha512
  | reserved
deriving DecidableEq, Repr

/-- The commands. DIGITS is an unsigned number (R94); that it fits its 4 bits is WellFormed's check. -/
inductive Instr where
  /-- OP 0 (R214). -/
  | nop
  /-- OP 1 (R215). -/
  | clear
  /-- OP 2 (R112). -/
  | derive
  /-- OP 3 (R154). -/
  | hmac (alg : AlgField)
  /-- OP 4 (R182). -/
  | trunc
  /-- OP 5 (R185). -/
  | reduce (digits : Nat)
  /-- OP 6 (R201). -/
  | format
  /-- OP 7 (R216). -/
  | hotp (alg : AlgField) (digits : Nat)
  /-- OP 8 (R217). -/
  | totp (alg : AlgField) (digits : Nat)
deriving DecidableEq, Repr

end Sys2Proof
end

