-- ==== Sys2Proof/Machine/Hmac.lean ====
section
/-! DEFINITION. Algorithm selection and the HMAC construction (spec/41_hmac.md R130, R152, R153). -/

namespace Sys2Proof.Machine

/-- L = DLEN, the digest length in bytes (R130, R41). -/
def dlen : HashAlg → Nat
  | .sha1 => 20
  | .sha256 => 32
  | .sha512 => 64

/-- B, the block size in bytes (R130). -/
def blockLen : HashAlg → Nat
  | .sha1 => 64
  | .sha256 => 64
  | .sha512 => 128

/-- Hash(alg, M) (R152). -/
def hash : HashAlg → List Byte → List Byte
  | .sha1, m => sha1 m
  | .sha256, m => sha256 m
  | .sha512, m => sha512 m

/-- K': the key, hashed if it is longer than a block (R152). -/
def shortKey (alg : HashAlg) (k : List Byte) : List Byte :=
  if k.length ≤ blockLen alg then k else hash alg k

/-- K0: K' with zeros up to one block (R152). -/
def keyBlock (alg : HashAlg) (k : List Byte) : List Byte :=
  shortKey alg k ++ List.replicate (blockLen alg - (shortKey alg k).length) 0

/-- K0 ⊕ the byte repeated B times (R153). -/
def xorPad (c : Byte) (k0 : List Byte) : List Byte := k0.map (· ^^^ c)

/-- HMAC(alg, K, M) (R153). -/
def hmac (alg : HashAlg) (k m : List Byte) : List Byte :=
  let k0 := keyBlock alg k
  hash alg (xorPad 0x5C k0 ++ hash alg (xorPad 0x36 k0 ++ m))

end Sys2Proof.Machine
end

