-- ==== Sys2Proof/Config.lean ====
section
/-! DEFINITION. What an implementation fixes: the parameters of spec/00_scope.md R12, and the one parameter the
spec leaves open as a number, BASE. (The other open parameter, LATENCY, is the schedule held in State: log 1.) -/

namespace Sys2Proof.Config

/-- Where the platform puts the aperture, in units of 512 bytes (R12, R61: BASE is OPEN, "aligned to 512 bytes").
A free value: it has no body, so a claim holds whatever it is (log 10). -/
opaque baseBlock : Nat

/-- BASE: "any 512-byte-aligned address" (R12). -/
def base : Nat := 512 * baseBlock

/-- APERTURE: 0x200 bytes (R12, R23). -/
def apertureBytes : Nat := 0x200

/-- KEY_BUF_BYTES (R12, R38). -/
abbrev keyBufBytes : Nat := 128

/-- The bytes of the DIGEST buffer (R39). -/
abbrev digestBufBytes : Nat := 64

/-- CODE_BUF_BYTES (R12, R40). -/
abbrev codeBufBytes : Nat := 12

/-- MIN_DIGITS and MAX_DIGITS (R12). -/
abbrev minDigits : Nat := 1

/-- MAX_DIGITS (R12, R25). -/
abbrev maxDigits : Nat := 10

end Sys2Proof.Config
end

