-- ==== Sys2Proof/Machine/State.lean ====
section
/-! DEFINITION. The state of the machine: every register and buffer of the block (spec/10_state.md R20 to R49), and in
the one field env the model's own data about the world outside it: the reset input, the HOST's program, the schedule. -/

namespace Sys2Proof.Machine

/-! ## The HOST's program (spec/30_encoding.md R102, R103) -/

/-- Where a host script continues: a label by name (labels are numbered, log 7), or `1b`, "the nearest label before
the statement" (R103). -/
inductive Target where
  | named (l : Nat)
  | back (l : Nat)
deriving DecidableEq, Repr

/-- The statements of the host-script notation (R102), in its order. A host variable rN is named by its number. -/
inductive Stmt where
  | wr (off : Offset) (v : Word)
  | rd (r : Nat) (off : Offset)
  | cmd (c : Instr)
  | word (v : Word)
  | wrr (off : Offset) (r : Nat)
  | li (r : Nat) (v : Word)
  | addi (r : Nat) (v : Word)
  | bset (r : Nat) (b : Fin 32) (l : Target)
  | bclr (r : Nat) (b : Fin 32) (l : Target)
  | bne (r : Nat) (v : Word) (l : Target)
  | label (l : Nat)
  | halt
deriving DecidableEq, Repr

/-! ## The bus and the schedule -/

/-- The response of an access (R60). -/
inductive Resp where
  | okay
  | error
deriving DecidableEq, Repr

/-- What the port gives back for one access (R60): a response, and for a read a word. -/
inductive Reply where
  | read (r : Resp) (data : Word)
  | write (r : Resp)
deriving DecidableEq, Repr

/-- One access of a bus master, at an address of the HOST's physical address space (R61). -/
inductive Access where
  | read (addr : Nat)
  | write (addr : Nat) (v : Word)
deriving DecidableEq, Repr

/-- Who moves next (R13, R75, R280; log 1). -/
inductive Turn where
  /-- The HOST runs the next statement of its program. -/
  | host
  /-- Another bus master makes one access (R80). -/
  | bus (a : Access)
  /-- The ENGINE's COMPLETE step, if BUSY = 1 (R213). -/
  | engine
  /-- The reset input is asserted (R280). -/
  | reset
  /-- The reset input is released. -/
  | release
deriving DecidableEq, Repr

/-- The world outside the block (none of it is a register of the block). -/
structure Env where
  /-- The reset input is asserted (R282; log 6). -/
  inReset : Bool
  /-- The schedule: the turns to come, next first (R75, R293; log 1). -/
  turns : List Turn
  /-- The HOST's program (R102; log 7). -/
  script : List Stmt
  /-- The place of the next statement in the program (log 7). -/
  pos : Nat
  /-- The host variables: numbers strictly rising, no value 0, an unlisted variable is 0 (log 8). -/
  vars : List (Nat × Word)
  /-- The reply to the last access, none before the first (R60; log 9). -/
  reply : Option Reply
deriving DecidableEq, Repr

/-! ## The machine -/

/-- The machine. Each register's rule stands beside it; STATUS (R28) is its fields. -/
structure State where
  /-- BUSY and PENDING (R22): the pending command word; BUSY = 1 exactly when there is one (log 3). -/
  pending : Option Word
  /-- STATUS.DONE (R28). -/
  done : Bool
  /-- STATUS.ERR (R28). -/
  err : Bool
  /-- STATUS.OVR (R28, R246). -/
  ovr : Bool
  /-- STATUS.DV (R43). -/
  dv : Bool
  /-- STATUS.PV (R43). -/
  pv : Bool
  /-- STATUS.OV (R43). -/
  ov : Bool
  /-- STATUS.CV (R43). -/
  cv : Bool
  /-- STATUS.ERRCODE (R28, R240). -/
  errcode : BitVec 4
  /-- STATUS.DALG (R41); its value 3 "is never written" (log 4). -/
  dalg : HashAlg
  /-- STATUS.ODIG (R42). -/
  odig : BitVec 4
  /-- CTRL.ASCII_ONLY (R27). -/
  asciiOnly : Bool
  /-- IRQ_EN.DONE_IE (R29). -/
  doneIe : Bool
  /-- KEYLEN (R30). -/
  keylen : BitVec 8
  /-- STEP (R31). -/
  stepSecs : Word
  /-- TIME (R32). -/
  time : DWord
  /-- T0 (R33). -/
  t0 : DWord
  /-- CTR (R34). -/
  ctr : DWord
  /-- TRUNC.OFFSET (R35). -/
  truncOffset : BitVec 4
  /-- P (R36): 31 bits; bit 31 of the register reads 0. -/
  p : BitVec 31
  /-- OTP (R37): 31 bits; bit 31 of the register reads 0. -/
  otp : BitVec 31
  /-- KEY (R38). -/
  key : Vector Byte Config.keyBufBytes
  /-- DIGEST (R39). -/
  digest : Vector Byte Config.digestBufBytes
  /-- CODE (R40). -/
  code : Vector Byte Config.codeBufBytes
  /-- The world outside the block. -/
  env : Env
deriving DecidableEq, Repr

/-- The world beside a block that has just left reset: nothing scheduled, no host program, no reply yet
(log 1, 6, 7, 8, 9). -/
def Env.initial : Env :=
  { inReset := false, turns := [], script := [], pos := 0, vars := [], reply := none }

/-- The machine right after reset (R49, R280). -/
def State.reset : State :=
  { pending := none
    done := false, err := false, ovr := false
    dv := false, pv := false, ov := false, cv := false
    errcode := 0, dalg := .sha1, odig := 0
    asciiOnly := true, doneIe := false
    keylen := 0, stepSecs := 30
    time := 0, t0 := 0, ctr := 0
    truncOffset := 0, p := 0, otp := 0
    key := Vector.replicate _ 0
    digest := Vector.replicate _ 0
    code := Vector.replicate _ 0
    env := Env.initial }

/-! ## The reasons a step can stop -/

/-- Why the machine stops. The BLOCK never stops: both reasons are faults of the HOST's own program. -/
inductive Fault where
  /-- A branch of the host script names a label the script does not hold; raised by the HOST's bset, bclr, bne
  (R102 gives such a script no meaning). Safe: the model stops where no behaviour is described (log 11). -/
  | noSuchLabel
  /-- The host script holds `cmd C` with C a command no assembler writes; raised by the HOST's cmd (R101: "An
  assembler refuses"). Safe: the word itself can be written with `.word` (log 11). -/
  | notAssemblable
deriving DecidableEq, Repr

/-- Why a step has no meaning. -/
inductive Refusal where
  /-- The instruction has no meaning in the model yet; raised by exec alone. Safe. No arm uses it. -/
  | notModelled (mnemonic : String)
deriving DecidableEq, Repr

end Sys2Proof.Machine
end

