-- ==== Sys2Proof/Machine/Operands.lean ====
section
/-! DEFINITION. The operands of the commands and the checks on them: the ALG and DIGITS fields, the key bytes and
KeyCheck, the counter's derivation and serialization (spec/30_encoding.md R93, R94; spec/40_counter.md R110, R111;
spec/41_hmac.md R155; spec/42_truncate.md R184; spec/60_exceptions.md R240). -/

namespace Sys2Proof.Machine

/-- The command errors (R240). -/
inductive ErrorCode where
  | illegalCmd
  | cryptoUnavailable
  | invalidDigitCount
  | keyLength
  | invalidSecretEncoding
  | stepZero
  | timeBeforeEpoch
  | notReady
deriving DecidableEq, Repr

/-- The number of an error in STATUS.ERRCODE (R240). -/
def errBits : ErrorCode → BitVec 4
  | .illegalCmd => 1
  | .cryptoUnavailable => 2
  | .invalidDigitCount => 3
  | .keyLength => 4
  | .invalidSecretEncoding => 5
  | .stepZero => 6
  | .timeBeforeEpoch => 7
  | .notReady => 8

/-- The algorithm an ALG field names; the reserved encoding names none (R93). -/
def algOf : AlgField → Option HashAlg
  | .sha1 => some .sha1
  | .sha256 => some .sha256
  | .sha512 => some .sha512
  | .reserved => none

/-- The ALG encoding of an algorithm, as DALG shows it (R41). -/
def dalgBits : HashAlg → BitVec 2
  | .sha1 => 0
  | .sha256 => 1
  | .sha512 => 2

/-- DigitsOK(d) (R184). -/
def digitsOK (d : Nat) : Bool := decide (1 ≤ d ∧ d ≤ 10)

/-- The secret K = KEY[0:KEYLEN) (R30). -/
def keyBytes (s : State) : List Byte := s.key.toList.take s.keylen.toNat

/-- KEYLEN is in range: not 0 and not over 128 (R155). -/
def keyLengthOK (s : State) : Bool := decide (s.keylen.toNat ≠ 0 ∧ s.keylen.toNat ≤ 128)

/-- Some byte of the secret is ≥ 0x80 (R155). -/
def keyHasNonAscii (s : State) : Bool := (keyBytes s).any fun b => decide (0x80 ≤ b.toNat)

/-- KeyCheck(s): the error, or none for OK (R155). -/
def keyCheck (s : State) : Option ErrorCode :=
  if keyLengthOK s = false then some .keyLength
  else if s.asciiOnly = true ∧ keyHasNonAscii s = true then some .invalidSecretEncoding
  else none

/-- DeriveT(TIME, T0, STEP) (R110): floor division of naturals. -/
def deriveT (time t0 : DWord) (stepSecs : Word) : Except ErrorCode DWord :=
  if stepSecs.toNat = 0 then .error .stepZero
  else if time.toNat < t0.toNat then .error .timeBeforeEpoch
  else .ok (BitVec.ofNat 64 ((time.toNat - t0.toNat) / stepSecs.toNat))

/-- Serialize(C): the 8-byte big-endian buffer (R111). -/
def serialize (c : DWord) : List Byte := beBytes 8 c

end Sys2Proof.Machine
end

