-- ==== Sys2Proof/Machine/Flags.lean ====
section
/-! DEFINITION. STATUS and what computes it: BUSY, the stage valid bits (spec/10_state.md R28, R43, R44), the
write-1-to-clear, and the interrupt output (spec/60_exceptions.md R247). -/

namespace Sys2Proof.Machine

/-- BUSY: a command is pending (R22, R28). -/
def isBusy (s : State) : Bool := s.pending.isSome

/-- The STATUS word (R28), most significant field first. -/
def statusWord (s : State) : Word :=
  (0 : BitVec 12) ++ s.odig ++ (0 : BitVec 2) ++ dalgBits s.dalg ++ s.errcode
    ++ BitVec.ofBool s.cv ++ BitVec.ofBool s.ov ++ BitVec.ofBool s.pv ++ BitVec.ofBool s.dv
    ++ BitVec.ofBool s.ovr ++ BitVec.ofBool s.err ++ BitVec.ofBool s.done ++ BitVec.ofBool (isBusy s)

/-- A write to STATUS: bit 1 clears DONE, bit 2 clears ERR and ERRCODE, bit 3 clears OVR (R28). -/
def writeStatus (v : Word) (s : State) : State :=
  { s with
    done := s.done && !v.getLsbD 1
    err := s.err && !v.getLsbD 2
    errcode := if v.getLsbD 2 then 0 else s.errcode
    ovr := s.ovr && !v.getLsbD 3 }

/-- Stage 1 is written: DV set, every later stage's bit cleared (R44). -/
def markDigest (s : State) : State := { s with dv := true, pv := false, ov := false, cv := false }

/-- Stage 2 is written (R44). -/
def markTrunc (s : State) : State := { s with pv := true, ov := false, cv := false }

/-- Stage 3 is written (R44). -/
def markOtp (s : State) : State := { s with ov := true, cv := false }

/-- Stage 4 is written (R44). -/
def markCode (s : State) : State := { s with cv := true }

/-- All four stages are written by one command: HOTP, TOTP (R44). -/
def markAll (s : State) : State := { s with dv := true, pv := true, ov := true, cv := true }

/-- CLEAR clears all four (R44). -/
def markNone (s : State) : State := { s with dv := false, pv := false, ov := false, cv := false }

/-- The interrupt output, a level: irq = IRQ_EN.DONE_IE ∧ STATUS.DONE (R247). -/
def irq (s : State) : Bool := s.doneIe && s.done

end Sys2Proof.Machine
end

