-- ==== Sys2Proof/Machine/Ops.lean ====
section
/-! DEFINITION. The operations every command and access shares: the issue of a command, the two ways it completes (the
block's whole error mechanism: there are no traps, spec/60_exceptions.md R250), and the reset event. -/

namespace Sys2Proof.Machine

/-! ## Issue (spec/44_sequence.md R210) -/

/-- A write of w to CMD while BUSY = 0 is accepted whatever w is (R210). -/
def issue (w : Word) (s : State) : State :=
  { s with pending := some w, done := false, err := false, errcode := 0 }

/-! ## Completion (spec/60_exceptions.md R243, R244) -/

/-- Successful completion of a command whose writes gave u: BUSY ← 0, DONE ← 1; ERR and ERRCODE stay as the issue left
them (R244). -/
def finishOk (u : State) : State := { u with pending := none, done := true }

/-- Error completion: ERR, ERRCODE, BUSY, DONE, "and nothing else changes" (R243). This is the one operation by which
any command reports an error. -/
def finishErr (c : ErrorCode) (s : State) : State :=
  { s with err := true, errcode := errBits c, pending := none, done := true }

/-- The end of COMPLETE, given what Exec answered: the state with every write of U applied, or an error code (R213). -/
def complete (s : State) (r : Except ErrorCode State) : Host.Outcome State Fault Refusal :=
  match r with
  | .ok u => .next (finishOk u)
  | .error c => .next (finishErr c s)

/-! ## Reset (spec/70_reset_and_hazards.md R280 to R282) -/

/-- The reset input is asserted: every piece of the block's state takes its reset value (R280, R49). The world outside
goes on as it was (log 6). -/
def assertReset (s : State) : State :=
  { State.reset with env := { s.env with inReset := true } }

/-- The reset input is released (log 6). -/
def releaseReset (s : State) : State :=
  { s with env := { s.env with inReset := false } }

end Sys2Proof.Machine
end

