-- ==== Sys2Proof/Machine/Counter.lean ====
section
/-! DEFINITION. DERIVE (spec/40_counter.md R112). -/

namespace Sys2Proof.Machine

/-- Exec(DERIVE, s) (R112). -/
def deriveResult (s : State) : Except ErrorCode State :=
  match deriveT s.time s.t0 s.stepSecs with
  | .error c => .error c
  | .ok t => .ok { s with ctr := t }

/-- DERIVE (R112). -/
def execDerive (s : State) : Host.Outcome State Fault Refusal := complete s (deriveResult s)

end Sys2Proof.Machine
end

