-- ==== Sys2Proof/Machine/Format.lean ====
section
/-! DEFINITION. FORMAT (spec/43_format.md R200, R201). -/

namespace Sys2Proof.Machine

/-- Byte i of Format(v, d): the ASCII character of a decimal digit, most significant first, then 0x00 (R200). -/
def formatByte (v d i : Nat) : Byte :=
  if i < d then BitVec.ofNat 8 (0x30 + v / 10 ^ (d - 1 - i) % 10) else 0

/-- Format(v, d) (R200). -/
def formatCode (v : BitVec 31) (d : Nat) : Vector Byte Config.codeBufBytes :=
  Vector.ofFn fun i => formatByte v.toNat d i.val

/-- Exec(FORMAT, s): the digit count is ODIG, the one REDUCE used (R201, R42). -/
def formatResult (s : State) : Except ErrorCode State :=
  if s.ov = false then .error .notReady
  else .ok (markCode { s with code := formatCode s.otp s.odig.toNat })

/-- FORMAT (R201). -/
def execFormat (s : State) : Host.Outcome State Fault Refusal := complete s (formatResult s)

end Sys2Proof.Machine
end

