-- ==== Sys2Proof/Machine/HmacCommand.lean ====
section
/-! DEFINITION. HMAC (spec/41_hmac.md R154). -/

namespace Sys2Proof.Machine

/-- The L bytes HMAC(alg, KEY[0:KEYLEN), Serialize(CTR)) (R154). -/
def keyedDigest (h : HashAlg) (s : State) : List Byte := hmac h (keyBytes s) (serialize s.ctr)

/-- Exec(HMAC(alg), s) (R154). -/
def hmacResult (alg : AlgField) (s : State) : Except ErrorCode State :=
  match algOf alg with
  | none => .error .cryptoUnavailable
  | some h =>
    match keyCheck s with
    | some c => .error c
    | none => .ok (markDigest { s with digest := bufferOf _ (keyedDigest h s), dalg := h })

/-- HMAC (R154). -/
def execHmac (alg : AlgField) (s : State) : Host.Outcome State Fault Refusal := complete s (hmacResult alg s)

end Sys2Proof.Machine
end

