-- ==== Sys2Proof/Machine/Truncate.lean ====
section
/-! DEFINITION. TRUNC and REDUCE (spec/42_truncate.md R180 to R185). -/

namespace Sys2Proof.Machine

/-- The offset: the low nibble of the last digest byte, D[L−1] (R180). -/
def windowOffset (d : Vector Byte Config.digestBufBytes) (l : Nat) : BitVec 4 :=
  (byteAt d (l - 1) &&& 0x0F).setWidth 4

/-- P: the four bytes from the offset on, big-endian, the top bit of the first cleared (R180). -/
def windowValue (d : Vector Byte Config.digestBufBytes) (offset : Nat) : BitVec 31 :=
  ((((byteAt d offset &&& 0x7F).setWidth 32 : Word) <<< 24)
    ||| (((byteAt d (offset + 1)).setWidth 32 : Word) <<< 16)
    ||| (((byteAt d (offset + 2)).setWidth 32 : Word) <<< 8)
    ||| ((byteAt d (offset + 3)).setWidth 32 : Word)).setWidth 31

/-- Truncate(D, L) : (offset, P) (R180). -/
def truncate (d : Vector Byte Config.digestBufBytes) (l : Nat) : BitVec 4 × BitVec 31 :=
  let off := windowOffset d l
  (off, windowValue d off.toNat)

/-- Exec(TRUNC, s): the length is that of the algorithm that made the held digest (R182, D36). -/
def truncResult (s : State) : Except ErrorCode State :=
  if s.dv = false then .error .notReady
  else
    let r := truncate s.digest (dlen s.dalg)
    .ok (markTrunc { s with truncOffset := r.1, p := r.2 })

/-- TRUNC (R182). -/
def execTrunc (s : State) : Host.Outcome State Fault Refusal := complete s (truncResult s)

/-- Reduce(P, d) = P mod 10^d, on exact naturals (R183). -/
def reduceBy (p : BitVec 31) (d : Nat) : BitVec 31 := BitVec.ofNat 31 (p.toNat % 10 ^ d)

/-- Exec(REDUCE(d), s) (R185). -/
def reduceResult (d : Nat) (s : State) : Except ErrorCode State :=
  if digitsOK d = false then .error .invalidDigitCount
  else if s.pv = false then .error .notReady
  else .ok (markOtp { s with otp := reduceBy s.p d, odig := BitVec.ofNat 4 d })

/-- REDUCE (R185). -/
def execReduce (d : Nat) (s : State) : Host.Outcome State Fault Refusal := complete s (reduceResult d s)

end Sys2Proof.Machine
end

