-- ==== Sys2Proof/Machine/Composite.lean ====
section
/-! DEFINITION. The composite commands HOTP and TOTP (spec/44_sequence.md R216, R217). Each makes every check before any
result is computed. -/

namespace Sys2Proof.Machine

/-- The writes of a successful HOTP(h, d) (R216). -/
def hotpWrites (h : HashAlg) (d : Nat) (s : State) : State :=
  let buf := bufferOf Config.digestBufBytes (keyedDigest h s)
  let r := truncate buf (dlen h)
  let v := reduceBy r.2 d
  markAll
    { s with
      digest := buf
      dalg := h
      truncOffset := r.1
      p := r.2
      otp := v
      odig := BitVec.ofNat 4 d
      code := formatCode v d }

/-- Exec(HOTP(a, d), s) (R216). -/
def hotpResult (alg : AlgField) (d : Nat) (s : State) : Except ErrorCode State :=
  match algOf alg with
  | none => .error .cryptoUnavailable
  | some h =>
    if digitsOK d = false then .error .invalidDigitCount
    else
      match keyCheck s with
      | some c => .error c
      | none => .ok (hotpWrites h d s)

/-- HOTP (R216). -/
def execHotp (alg : AlgField) (d : Nat) (s : State) : Host.Outcome State Fault Refusal :=
  complete s (hotpResult alg d s)

/-- Exec(TOTP(a, d), s): TOTP's checks, then Exec(HOTP(a, d), s with CTR = T) and CTR <- T (R217). -/
def totpResult (alg : AlgField) (d : Nat) (s : State) : Except ErrorCode State :=
  match algOf alg with
  | none => .error .cryptoUnavailable
  | some _ =>
    if digitsOK d = false then .error .invalidDigitCount
    else
      match keyCheck s with
      | some c => .error c
      | none =>
        match deriveT s.time s.t0 s.stepSecs with
        | .error c => .error c
        | .ok t => hotpResult alg d { s with ctr := t }

/-- TOTP (R217). -/
def execTotp (alg : AlgField) (d : Nat) (s : State) : Host.Outcome State Fault Refusal :=
  complete s (totpResult alg d s)

end Sys2Proof.Machine
end

