-- ==== Sys2Proof/Machine/Control.lean ====
section
/-! DEFINITION. The control commands NOP and CLEAR (spec/44_sequence.md R214, R215). -/

namespace Sys2Proof.Machine

/-- Exec(NOP, s) = Ok{} (R214). -/
def nopResult (s : State) : Except ErrorCode State := .ok s

/-- NOP (R214). -/
def execNop (s : State) : Host.Outcome State Fault Refusal := complete s (nopResult s)

/-- Exec(CLEAR, s): the secret and every result to zero (R215). -/
def clearResult (s : State) : Except ErrorCode State :=
  .ok (markNone
    { s with
      key := Vector.replicate _ 0
      keylen := 0
      digest := Vector.replicate _ 0
      dalg := .sha1
      truncOffset := 0
      p := 0
      otp := 0
      odig := 0
      code := Vector.replicate _ 0 })

/-- CLEAR (R215). -/
def execClear (s : State) : Host.Outcome State Fault Refusal := complete s (clearResult s)

end Sys2Proof.Machine
end

