-- ==== Sys2Proof/Machine/Dispatch.lean ====
section
/-! DEFINITION. One arm per command (spec/44_sequence.md R211). -/

namespace Sys2Proof.Machine

/-- Exec and the end of COMPLETE for a decoded command (R211, R213). -/
def exec (i : Instr) (s : State) : Host.Outcome State Fault Refusal :=
  match i with
  | .nop => Sys2Proof.Machine.execNop s
  | .clear => Sys2Proof.Machine.execClear s
  | .derive => Sys2Proof.Machine.execDerive s
  | .hmac alg => Sys2Proof.Machine.execHmac alg s
  | .trunc => Sys2Proof.Machine.execTrunc s
  | .reduce digits => Sys2Proof.Machine.execReduce digits s
  | .format => Sys2Proof.Machine.execFormat s
  | .hotp alg digits => Sys2Proof.Machine.execHotp alg digits s
  | .totp alg digits => Sys2Proof.Machine.execTotp alg digits s

end Sys2Proof.Machine
end

