-- ==== Sys2Proof/WellFormed.lean ====
section
/-! DEFINITION. The checks on a command as a term: that it has an encoding (R91, R94), and the narrower check of
the assembler (R101). -/

namespace Sys2Proof

/-- DIGITS fits its field, bits 11:8 (R91, R94: "an unsigned 4-bit number"). -/
def digitsFit (d : Nat) : Bool := decide (d < 16)

/-- The command has an encoding: every value its fields admit is in (R93, R94: ALG = 3 and DIGITS outside 1 to 10
are encodable). -/
def Instr.wellFormed : Instr → Bool
  | .nop => true
  | .clear => true
  | .derive => true
  | .hmac _ => true
  | .trunc => true
  | .reduce d => digitsFit d
  | .format => true
  | .hotp _ d => digitsFit d
  | .totp _ d => digitsFit d

/-- The digit counts an assembler writes: "refuses d outside 1–10" (R101). -/
def digitsWritable (d : Nat) : Bool := decide (Config.minDigits ≤ d ∧ d ≤ Config.maxDigits)

/-- The algorithms an assembler can name: sha1, sha256, sha512 (R101). -/
def algWritable : AlgField → Bool
  | .sha1 => true
  | .sha256 => true
  | .sha512 => true
  | .reserved => false

/-- The command can be written as a mnemonic (R101); any other word is written with .word (R102). -/
def Instr.assembles : Instr → Bool
  | .nop => true
  | .clear => true
  | .derive => true
  | .hmac a => algWritable a
  | .trunc => true
  | .reduce d => digitsWritable d
  | .format => true
  | .hotp a d => algWritable a && digitsWritable d
  | .totp a d => algWritable a && digitsWritable d

end Sys2Proof
end

