-- ==== Sys2Proof/Decode.lean ====
section
/-! DEFINITION. Decoding a command word (spec/30_encoding.md R91 to R98), total on every 32-bit word, and the
encoder from the same tables. -/

namespace Sys2Proof

/-- Why a word is ILLEGAL_CMD (R95, R98). -/
inductive IllegalWord where
  /-- A bit of RES0 (7:6) or RES1 (31:12) is set (R95). -/
  | reservedBits
  /-- OP is 0x9 to 0xF (R92, R98). -/
  | reservedOp
deriving DecidableEq, Repr

/-! ## Fields (R91) -/

/-- OP, bits 3:0. -/
def opField (w : Word) : BitVec 4 := w.extractLsb' 0 4

/-- ALG, bits 5:4. -/
def algBits (w : Word) : BitVec 2 := w.extractLsb' 4 2

/-- RES0, bits 7:6. -/
def res0Field (w : Word) : BitVec 2 := w.extractLsb' 6 2

/-- DIGITS, bits 11:8. -/
def digitsBits (w : Word) : BitVec 4 := w.extractLsb' 8 4

/-- RES1, bits 31:12. -/
def res1Field (w : Word) : BitVec 20 := w.extractLsb' 12 20

/-- The ALG encoding (R93). -/
def algOfBits (b : BitVec 2) : AlgField :=
  match b.toNat with
  | 0 => .sha1
  | 1 => .sha256
  | 2 => .sha512
  | _ => .reserved

/-- A word with no reserved bit set, by its OP (R92, R97). -/
def decodeOp (op : BitVec 4) (alg : AlgField) (digits : Nat) : Except IllegalWord Instr :=
  match op.toNat with
  | 0x0 => .ok .nop
  | 0x1 => .ok .clear
  | 0x2 => .ok .derive
  | 0x3 => .ok (.hmac alg)
  | 0x4 => .ok .trunc
  | 0x5 => .ok (.reduce digits)
  | 0x6 => .ok .format
  | 0x7 => .ok (.hotp alg digits)
  | 0x8 => .ok (.totp alg digits)
  | _ => .error .reservedOp

/-- Decode(w) (R97). -/
def decode (w : Word) : Except IllegalWord Instr :=
  if res1Field w ≠ 0 ∨ res0Field w ≠ 0 then .error .reservedBits
  else decodeOp (opField w) (algOfBits (algBits w)) (digitsBits w).toNat

/-! ## The encoder (R91, R92, R93, R101) -/

/-- The ALG code (R93). -/
def algCode : AlgField → BitVec 2
  | .sha1 => 0
  | .sha256 => 1
  | .sha512 => 2
  | .reserved => 3

/-- The OP code (R92). -/
def opCode : Instr → BitVec 4
  | .nop => 0x0
  | .clear => 0x1
  | .derive => 0x2
  | .hmac _ => 0x3
  | .trunc => 0x4
  | .reduce _ => 0x5
  | .format => 0x6
  | .hotp _ _ => 0x7
  | .totp _ _ => 0x8

/-- The layout of R91, most significant field first. -/
def packFields (digits : BitVec 4) (alg : BitVec 2) (op : BitVec 4) : Word :=
  (0 : BitVec 20) ++ digits ++ (0 : BitVec 2) ++ alg ++ op

/-- enc(C): the command word, its unused fields 0 (R101). -/
def encode (i : Instr) : Word :=
  match i with
  | .nop => packFields 0 0 (opCode i)
  | .clear => packFields 0 0 (opCode i)
  | .derive => packFields 0 0 (opCode i)
  | .hmac a => packFields 0 (algCode a) (opCode i)
  | .trunc => packFields 0 0 (opCode i)
  | .reduce d => packFields (BitVec.ofNat 4 d) 0 (opCode i)
  | .format => packFields 0 0 (opCode i)
  | .hotp a d => packFields (BitVec.ofNat 4 d) (algCode a) (opCode i)
  | .totp a d => packFields (BitVec.ofNat 4 d) (algCode a) (opCode i)

/-! ## The opcode table (R97; spec/opcode_table.json) -/

/-- The mask of every command: "mask 0xFFFFF0CF" (R97). -/
def tableMask : Word := 0xFFFFF0CF

/-- The match of a command: "0x0000000n with n = OP" (R97). -/
def tableMatch (i : Instr) : Word := (opCode i).setWidth 32

/-! ## What the host asks for -/

/-- The instruction the decoder reads from an opcode-table word: the table's one length is 32 bits (R90), so a number
that needs more bits is no instruction (log 13). -/
def decodeTableWord (nbits w : Nat) : Option Instr :=
  if w < 2 ^ nbits ∧ w < 2 ^ 32 then
    match decode (BitVec.ofNat 32 w) with
    | .ok i => some i
    | .error _ => none
  else none

end Sys2Proof
end

