-- ==== Sys2Proof/Machine/Bus.lean ====
section
/-! DEFINITION. The register aperture (spec/10_state.md R23; spec/20_memory.md R60 to R72): which offset is which
register, and what a read and a write of each does. -/

namespace Sys2Proof.Machine

/-- The mapped registers (R23). -/
inductive Reg where
  | id
  | cap
  | cmd
  | status
  | ctrl
  | irqEn
  | keylen
  | stepSecs
  | timeHi
  | timeLo
  | t0Hi
  | t0Lo
  | ctrHi
  | ctrLo
  | trunc
  | p
  | otp
  | key (j : Fin 32)
  | digest (j : Fin 16)
  | code (j : Fin 3)
deriving DecidableEq, Repr

/-- An access whose offset has a[1:0] ≠ 0 (R62). -/
def misaligned (a : Offset) : Bool := decide (a.toNat % 4 ≠ 0)

/-- The register at a word index below the first reserved range, 0x000 to 0x040 (R23). -/
def lowReg (wordIndex : Nat) : Option Reg :=
  match wordIndex with
  | 0 => some .id
  | 1 => some .cap
  | 2 => some .cmd
  | 3 => some .status
  | 4 => some .ctrl
  | 5 => some .irqEn
  | 6 => some .keylen
  | 7 => some .stepSecs
  | 8 => some .timeHi
  | 9 => some .timeLo
  | 10 => some .t0Hi
  | 11 => some .t0Lo
  | 12 => some .ctrHi
  | 13 => some .ctrLo
  | 14 => some .trunc
  | 15 => some .p
  | 16 => some .otp
  | _ => none

/-- The register at an offset; none where the offset is misaligned (R62) or reserved (R63). -/
def regAt (a : Offset) : Option Reg :=
  let n := a.toNat
  if misaligned a then none
  else if n < 0x100 then lowReg (n / 4)
  else if n < 0x180 then some (.key (Fin.ofNat 32 ((n - 0x100) / 4)))
  else if n < 0x1C0 then some (.digest (Fin.ofNat 16 ((n - 0x180) / 4)))
  else if n < 0x1CC then some (.code (Fin.ofNat 3 ((n - 0x1C0) / 4)))
  else none

/-- The offset of a register (R23). -/
def regOffset : Reg → Offset
  | .id => 0x000
  | .cap => 0x004
  | .cmd => 0x008
  | .status => 0x00C
  | .ctrl => 0x010
  | .irqEn => 0x014
  | .keylen => 0x018
  | .stepSecs => 0x01C
  | .timeHi => 0x020
  | .timeLo => 0x024
  | .t0Hi => 0x028
  | .t0Lo => 0x02C
  | .ctrHi => 0x030
  | .ctrLo => 0x034
  | .trunc => 0x038
  | .p => 0x03C
  | .otp => 0x040
  | .key j => BitVec.ofNat 9 (0x100 + 4 * j.val)
  | .digest j => BitVec.ofNat 9 (0x180 + 4 * j.val)
  | .code j => BitVec.ofNat 9 (0x1C0 + 4 * j.val)

/-- ID: the ASCII bytes "TOTP" packed big-endian (R24). -/
def idWord : Word := be32 0x54 0x4F 0x54 0x50

/-- CAP: KEY_BUF_BYTES in 23:16, MAX_DIGITS in 11:8, the three algorithms in 2:0 (R25). -/
def capWord : Word :=
  (0 : BitVec 8) ++ BitVec.ofNat 8 Config.keyBufBytes ++ (0 : BitVec 4) ++ BitVec.ofNat 4 Config.maxDigits
    ++ (0 : BitVec 5) ++ (1 : BitVec 1) ++ (1 : BitVec 1) ++ (1 : BitVec 1)

/-- What a read of a register returns (R24 to R40; R64: a write-only register reads 0). Reads never depend on BUSY
except through STATUS itself (R67). -/
def readReg (r : Reg) (s : State) : Word :=
  match r with
  | .id => idWord
  | .cap => capWord
  | .cmd => 0
  | .status => statusWord s
  | .ctrl => (BitVec.ofBool s.asciiOnly).setWidth 32
  | .irqEn => (BitVec.ofBool s.doneIe).setWidth 32
  | .keylen => s.keylen.setWidth 32
  | .stepSecs => s.stepSecs
  | .timeHi => hiWord s.time
  | .timeLo => loWord s.time
  | .t0Hi => hiWord s.t0
  | .t0Lo => loWord s.t0
  | .ctrHi => hiWord s.ctr
  | .ctrLo => loWord s.ctr
  | .trunc => s.truncOffset.setWidth 32
  | .p => s.p.setWidth 32
  | .otp => s.otp.setWidth 32
  | .key _ => 0
  | .digest j => wordAt s.digest j.val
  | .code j => wordAt s.code j.val

/-- What a write of v to a register does when it is honoured (R26 to R40; R64: a read-only register ignores it). -/
def writeReg (r : Reg) (v : Word) (s : State) : State :=
  match r with
  | .id => s
  | .cap => s
  | .cmd => issue v s
  | .status => writeStatus v s
  | .ctrl => { s with asciiOnly := v.getLsbD 0 }
  | .irqEn => { s with doneIe := v.getLsbD 0 }
  | .keylen => { s with keylen := v.extractLsb' 0 8 }
  | .stepSecs => { s with stepSecs := v }
  | .timeHi => { s with time := setHiWord s.time v }
  | .timeLo => { s with time := setLoWord s.time v }
  | .t0Hi => { s with t0 := setHiWord s.t0 v }
  | .t0Lo => { s with t0 := setLoWord s.t0 v }
  | .ctrHi => { s with ctr := setHiWord s.ctr v }
  | .ctrLo => { s with ctr := setLoWord s.ctr v }
  | .trunc => s
  | .p => s
  | .otp => s
  | .key j => { s with key := setWordAt s.key j.val v }
  | .digest _ => s
  | .code _ => s

/-- The two registers whose writes are honoured while BUSY = 1 (R66). -/
def honouredWhileBusy : Reg → Bool
  | .status => true
  | .irqEn => true
  | _ => false

/-- MemRead(a, 4): response and data (R60, R62, R63, R67). It changes nothing (R72). -/
def busRead (a : Offset) (s : State) : Resp × Word :=
  match regAt a with
  | none => (.error, 0)
  | some r => (.okay, readReg r s)

/-- MemWrite(a, 4, v): response and new state (R60, R62 to R66). -/
def busWrite (a : Offset) (v : Word) (s : State) : Resp × State :=
  match regAt a with
  | none => (.error, s)
  | some r =>
    if isBusy s = true ∧ honouredWhileBusy r = false then (.okay, { s with ovr := true })
    else (.okay, writeReg r v s)

/-! ## The aperture in the HOST's address space (R61) -/

/-- The offset of an address of the aperture; none for an address outside it, which does not reach the block (R61). -/
def apertureOffset (addr : Nat) : Option Offset :=
  if Config.base ≤ addr ∧ addr < Config.base + Config.apertureBytes then some (BitVec.ofNat 9 (addr - Config.base))
  else none

/-! ## Accesses as steps of a HOST: the reply is what the port answers (R60; log 9) -/

/-- The state after a read of offset a, with its reply. -/
def readAccess (a : Offset) (s : State) : State :=
  let r := busRead a s
  { s with env := { s.env with reply := some (.read r.1 r.2) } }

/-- The state after a write of v to offset a, with its reply. -/
def writeAccess (a : Offset) (v : Word) (s : State) : State :=
  let r := busWrite a v s
  { r.2 with env := { s.env with reply := some (.write r.1) } }

/-- One access of a bus master at a physical address (R61). -/
def access (a : Access) (s : State) : State :=
  match a with
  | .read addr =>
    match apertureOffset addr with
    | none => s
    | some off => readAccess off s
  | .write addr v =>
    match apertureOffset addr with
    | none => s
    | some off => writeAccess off v s

end Sys2Proof.Machine
end

