-- ==== Sys2Proof/Machine/HostScript.lean ====
section
/-! DEFINITION. The HOST's program (spec/30_encoding.md R102, R103): host variables, labels, one statement a step, and
the pseudo-statements with their expansions. This is the HOST, not the block: it touches the block only by bus
accesses. -/

namespace Sys2Proof.Machine

/-! ## Host variables (R102; log 8) -/

/-- The value of rN in a variable list; an unlisted variable is 0. -/
def varIn : List (Nat × Word) → Nat → Word
  | [], _ => 0
  | (n, v) :: rest, r => if n = r then v else varIn rest r

/-- rN <- v, keeping the list's one form: a 0 is not listed. -/
def setVarIn : List (Nat × Word) → Nat → Word → List (Nat × Word)
  | [], r, v => if v = 0 then [] else [(r, v)]
  | (n, x) :: rest, r, v =>
    if r < n then (if v = 0 then (n, x) :: rest else (r, v) :: (n, x) :: rest)
    else if r = n then (if v = 0 then rest else (r, v) :: rest)
    else (n, x) :: setVarIn rest r v

/-- The one form: numbers strictly rising from at least `low`, no value 0. -/
def varsWf : Nat → List (Nat × Word) → Bool
  | _, [] => true
  | low, (n, v) :: rest => decide (low ≤ n) && decide (v ≠ 0) && varsWf (n + 1) rest

/-- The value of rN (R102). -/
def readVar (r : Nat) (s : State) : Word := varIn s.env.vars r

/-- rN <- v (R102). -/
def writeVar (r : Nat) (v : Word) (s : State) : State :=
  { s with env := { s.env with vars := setVarIn s.env.vars r v } }

/-! ## Control flow of the script (R102, R103; log 7) -/

/-- The first place of a label in a list of statements, counting from `at0`. -/
def firstLabel (l : Nat) : Nat → List Stmt → Option Nat
  | _, [] => none
  | at0, st :: rest => if st = .label l then some at0 else firstLabel l (at0 + 1) rest

/-- The last place of a label in a list of statements, counting from `at0`. -/
def lastLabel (l : Nat) : Nat → List Stmt → Option Nat
  | _, [] => none
  | at0, st :: rest =>
    match lastLabel l (at0 + 1) rest with
    | some n => some n
    | none => if st = .label l then some at0 else none

/-- The place a target names, from the statement at `pos`: the label, or "the nearest label before the statement"
(R102, R103). -/
def targetPos (script : List Stmt) (pos : Nat) : Target → Option Nat
  | .named l => firstLabel l 0 script
  | .back l => lastLabel l 0 (script.take pos)

/-- The HOST goes on to the next statement. -/
def advance (s : State) : State := { s with env := { s.env with pos := s.env.pos + 1 } }

/-- The HOST continues at a target; a script that does not hold it has no meaning (log 11). -/
def jump (l : Target) (s : State) : Host.Outcome State Fault Refusal :=
  match targetPos s.env.script s.env.pos l with
  | some n => .next { s with env := { s.env with pos := n } }
  | none => .fault .noSuchLabel

/-- A branch: taken when its condition holds (R102). -/
def branch (taken : Bool) (l : Target) (s : State) : Host.Outcome State Fault Refusal :=
  if taken then jump l s else .next (advance s)

/-! ## Accesses of the script -/

/-- A write of the HOST; while reset is asserted "A model gives such an access no step (the HOST is stuck until reset
ends)" (R282). -/
def hostWrite (off : Offset) (v : Word) (s : State) : State :=
  if s.env.inReset then s else advance (writeAccess off v s)

/-- A read of the HOST into rN (R102, R282). -/
def hostRead (r : Nat) (off : Offset) (s : State) : State :=
  if s.env.inReset then s else advance (writeVar r (busRead off s).2 (readAccess off s))

/-- The offset of CMD (R26). -/
def cmdOffset : Offset := 0x008

/-- One statement (R102). -/
def runStmt (st : Stmt) (s : State) : Host.Outcome State Fault Refusal :=
  match st with
  | .wr off v => .next (hostWrite off v s)
  | .rd r off => .next (hostRead r off s)
  | .cmd c => if c.assembles then .next (hostWrite cmdOffset (encode c) s) else .fault .notAssemblable
  | .word v => .next (hostWrite cmdOffset v s)
  | .wrr off r => .next (hostWrite off (readVar r s) s)
  | .li r v => .next (advance (writeVar r v s))
  | .addi r v => .next (advance (writeVar r (readVar r s + v) s))
  | .bset r b l => branch ((readVar r s).getLsbD b.val) l s
  | .bclr r b l => branch (!(readVar r s).getLsbD b.val) l s
  | .bne r v l => branch (decide (readVar r s ≠ v)) l s
  | .label _ => .next (advance s)
  | .halt => .next s

/-- The HOST's turn: the next statement of its program; past the last one, as at halt, it does nothing (log 7). -/
def hostStep (s : State) : Host.Outcome State Fault Refusal :=
  match s.env.script[s.env.pos]? with
  | none => .next s
  | some st => runStmt st s

/-! ## Pseudo-statements (R103) -/

/-- `wait`: poll STATUS into r0 until BUSY = 0. -/
def waitStmts : List Stmt := [.label 1, .rd 0 0x00C, .bset 0 0 (.back 1)]

/-- Word j of a key string padded with 0x00: BE32(s‖0x00 pad, 4j). -/
def keyStringWord (str : List Byte) (j : Nat) : Word :=
  be32 (str.getD (4 * j) 0) (str.getD (4 * j + 1) 0) (str.getD (4 * j + 2) 0) (str.getD (4 * j + 3) 0)

/-- `key "s"`: the KEY words 0 .. ceil(n/4)−1, then KEYLEN (for a string of at most 128 bytes; log 7). -/
def keyStmts (str : List Byte) : List Stmt :=
  ((List.range ((str.length + 3) / 4)).map fun j => Stmt.wr (BitVec.ofNat 9 (0x100 + 4 * j)) (keyStringWord str j))
    ++ [.wr 0x018 (BitVec.ofNat 32 str.length)]

/-- `time64 V`. -/
def time64Stmts (v : DWord) : List Stmt := [.wr 0x020 (hiWord v), .wr 0x024 (loWord v)]

/-- `t0_64 V`. -/
def t064Stmts (v : DWord) : List Stmt := [.wr 0x028 (hiWord v), .wr 0x02C (loWord v)]

/-- `ctr64 V`. -/
def ctr64Stmts (v : DWord) : List Stmt := [.wr 0x030 (hiWord v), .wr 0x034 (loWord v)]

/-- `ack`: clear DONE, ERR, OVR. -/
def ackStmts : List Stmt := [.wr 0x00C 0x0000000E]

/-- `run C`: `cmd C` then `wait`. -/
def runCmdStmts (c : Instr) : List Stmt := .cmd c :: waitStmts

/-! ## A script with a meaning (R101, R102) -/

/-- The target a statement may continue at, if it has one. -/
def stmtTarget : Stmt → Option Target
  | .bset _ _ l => some l
  | .bclr _ _ l => some l
  | .bne _ _ l => some l
  | _ => none

/-- The statement at `pos` has a meaning in its script: its label is there, its command can be assembled. -/
def stmtOK (script : List Stmt) (pos : Nat) (st : Stmt) : Bool :=
  (match stmtTarget st with
    | some l => (targetPos script pos l).isSome
    | none => true)
  && (match st with
    | .cmd c => c.assembles
    | _ => true)

/-- Every statement of the script has a meaning. -/
def scriptOK (script : List Stmt) : Bool :=
  (List.range script.length).all fun pos =>
    match script[pos]? with
    | some st => stmtOK script pos st
    | none => true

end Sys2Proof.Machine
end

