-- ==== Sys2Proof/Machine/Agents.lean ====
section
/-! DEFINITION. What each agent does with its turn (spec/00_scope.md R13; spec/20_memory.md R75; spec/44_sequence.md R213;
spec/70_reset_and_hazards.md R280 to R282), and who moves when the schedule is empty (R293, R294; log 1, 2). -/

namespace Sys2Proof.Machine

/-- COMPLETE for a pending word: Decode, then Exec (R211, R213); an illegal word ends in ILLEGAL_CMD (R98). -/
def completeWord (w : Word) (s : State) : Host.Outcome State Fault Refusal :=
  match decode w with
  | .error _ => complete s (.error .illegalCmd)
  | .ok i => exec i s

/-- The ENGINE's turn: COMPLETE, "enabled exactly when BUSY = 1" (R213); otherwise it has no step. -/
def engineStep (s : State) : Host.Outcome State Fault Refusal :=
  match s.pending with
  | none => .next s
  | some w => completeWord w s

/-- Another bus master's turn; while reset is asserted the access has no step (R282). -/
def busStep (a : Access) (s : State) : State := if s.env.inReset then s else access a s

/-- One turn (R13, R75). -/
def takeTurn (t : Turn) (s : State) : Host.Outcome State Fault Refusal :=
  match t with
  | .host => hostStep s
  | .bus a => .next (busStep a s)
  | .engine => engineStep s
  | .reset => .next (assertReset s)
  | .release => .next (releaseReset s)

/-- Whose turn it is when the schedule is empty: a reset ends, else a pending command completes (R294), else the HOST
goes on (log 1, 2, 6). -/
def defaultTurn (s : State) : Turn :=
  if s.env.inReset then .release else if isBusy s then .engine else .host

/-- The next turn and the schedule after it. -/
def nextTurn (s : State) : Turn × List Turn :=
  match s.env.turns with
  | [] => (defaultTurn s, [])
  | t :: ts => (t, ts)

/-- The state in which the next turn is taken: the schedule has moved on. -/
def turnState (s : State) : State := { s with env := { s.env with turns := (nextTurn s).2 } }

/-- A command word given to the ENGINE: issued as a write of CMD issues it (R210), with the next turn the ENGINE's
(log 13). -/
def placeCommand (w : Word) (s : State) : State :=
  let u := issue w s
  { u with env := { u.env with turns := .engine :: u.env.turns } }

end Sys2Proof.Machine
end

