-- ==== Sys2Proof/Machine/Step.lean ====
section
/-! DEFINITION. One step of the machine: the next turn is taken (spec/00_scope.md R13, spec/20_memory.md R75). -/

namespace Sys2Proof.Machine

/-- One step. -/
def step (s : State) : Host.Outcome State Fault Refusal :=
  Sys2Proof.Machine.takeTurn (Sys2Proof.Machine.nextTurn s).1 (Sys2Proof.Machine.turnState s)

/-- The state with the command word w issued and the next turn the ENGINE's, so that the very next step runs exactly
that command. A command is the data word of a write to CMD (R90): there is no other place a command is fetched from.
nbits is not needed: the table's bits above it are 0 (log 13). -/
def State.withFetchWord (s : State) (_nbits w : Nat) : State :=
  Sys2Proof.Machine.placeCommand (BitVec.ofNat 32 w) s

end Sys2Proof.Machine
end

