-- ==== Sys2Proof/Machine/Assembler.lean ====
section
/-! DEFINITION. The assembler's syntax `MNEMONIC[.ALG] [DIGITS]`, case-insensitive (spec/30_encoding.md R101). A line is
a list of characters. How a line may be spelt beyond that is the model's choice (log 16). -/

namespace Sys2Proof.Machine

/-- The characters before the first `sep`, and those after it if there is one. -/
def splitFirst (sep : Char) : List Char → List Char × Option (List Char)
  | [] => ([], none)
  | c :: cs =>
    if c = sep then ([], some cs)
    else
      let r := splitFirst sep cs
      (c :: r.1, r.2)

/-- A decimal number; none for a character that is no digit. Leading zeros are taken: 010 is 10. R101 does not say
whether they are; DESIGN CHOICE (log 16). -/
def decimalFrom : Nat → List Char → Option Nat
  | acc, [] => some acc
  | acc, c :: cs => if 48 ≤ c.toNat ∧ c.toNat ≤ 57 then decimalFrom (acc * 10 + (c.toNat - 48)) cs else none

/-- A DIGITS operand: at least one digit and nothing but digits (R101 says only "d"; DESIGN CHOICE, log 16). -/
def asmDigits : Option (List Char) → Option Nat
  | some (c :: cs) => decimalFrom 0 (c :: cs)
  | _ => none

/-- An `.ALG` suffix (R101). -/
def asmAlg : Option (List Char) → Option AlgField
  | some ['s', 'h', 'a', '1'] => some .sha1
  | some ['s', 'h', 'a', '2', '5', '6'] => some .sha256
  | some ['s', 'h', 'a', '5', '1', '2'] => some .sha512
  | _ => none

/-- The command of a mnemonic with its parts, in lower case: a part a mnemonic requires must be there, one it does not
take must not (R101 says nothing of a part too many: refused, DESIGN CHOICE, log 16). -/
def asmParts (mnemonic : List Char) (alg digits : Option (List Char)) : Option Instr :=
  match mnemonic, alg, digits with
  | ['n', 'o', 'p'], none, none => some .nop
  | ['c', 'l', 'e', 'a', 'r'], none, none => some .clear
  | ['d', 'e', 'r', 'i', 'v', 'e'], none, none => some .derive
  | ['h', 'm', 'a', 'c'], a, none => (asmAlg a).map .hmac
  | ['t', 'r', 'u', 'n', 'c'], none, none => some .trunc
  | ['r', 'e', 'd', 'u', 'c', 'e'], none, d => (asmDigits d).map .reduce
  | ['f', 'o', 'r', 'm', 'a', 't'], none, none => some .format
  | ['h', 'o', 't', 'p'], a, d => (asmAlg a).bind fun x => (asmDigits d).map (.hotp x)
  | ['t', 'o', 't', 'p'], a, d => (asmAlg a).bind fun x => (asmDigits d).map (.totp x)
  | _, _, _ => none

/-- The command a line stands for, refused where an assembler refuses it (R101). The operand stands after exactly one
space (DESIGN CHOICE, log 16). -/
def assembleInstr (line : List Char) : Option Instr :=
  let halves := splitFirst ' ' (line.map Char.toLower)
  let names := splitFirst '.' halves.1
  match asmParts names.1 names.2 halves.2 with
  | some i => if i.assembles then some i else none
  | none => none

/-- The word a line assembles to (R101). -/
def assemble (line : List Char) : Option Word := (assembleInstr line).map encode

end Sys2Proof.Machine
end

