-- ==== Sys2Proof/Safety.lean ====
section
/-! DEFINITION. What a good state is, in the terms claims use: the invariants of spec/10_state.md R50, and the model's own
about the world outside the block. -/

namespace Sys2Proof.Safety

open Sys2Proof.Machine

/-- R50 (a) and 93 P6: ERRCODE = 0 ⇔ ERR = 0, and no code above 8 is ever produced. -/
abbrev ErrConsistent (s : State) : Prop :=
  (s.errcode = 0 ↔ s.err = false) ∧ s.errcode.toNat ≤ 8

/-- R50 (b): BUSY = 1 ⇒ DONE = 0 ∧ ERR = 0. -/
abbrev BusyQuiet (s : State) : Prop := isBusy s = true → s.done = false ∧ s.err = false

/-- R50 (d): OV = 1 ⇒ 1 ≤ ODIG ≤ 10 ∧ OTP < 10^ODIG. -/
abbrev OtpInRange (s : State) : Prop :=
  s.ov = true → 1 ≤ s.odig.toNat ∧ s.odig.toNat ≤ 10 ∧ s.otp.toNat < 10 ^ s.odig.toNat

/-- R50 (e): CV = 1 ⇒ OV = 1 and CODE is Format(OTP, ODIG). -/
abbrev CodeIsFormat (s : State) : Prop :=
  s.cv = true → s.ov = true ∧ s.code = formatCode s.otp s.odig.toNat

/-- R50 (f): PV = 1 ⇒ DV = 1; OV = 1 ⇒ PV = 1. -/
abbrev StagesOrdered (s : State) : Prop := (s.pv = true → s.dv = true) ∧ (s.ov = true → s.pv = true)

/-- R50 (h): CODE[10] = CODE[11] = 0. -/
abbrev CodeTailZero (s : State) : Prop := byteAt s.code 10 = 0 ∧ byteAt s.code 11 = 0

/-- While reset is asserted nothing is pending (R280, R281). -/
abbrev ResetIdle (s : State) : Prop := s.env.inReset = true → isBusy s = false

/-- The list of host variables has its one form (log 8). -/
abbrev VarsCanonical (s : State) : Prop := varsWf 0 s.env.vars = true

/-- The invariants: R50 (a), (b), (d), (e), (f), (h), and the model's own. R50 (c), P < 2^31, and (g), DALG ≤ 2, hold
in every State by the types of its fields. -/
abbrev Inv (s : State) : Prop :=
  ErrConsistent s ∧ BusyQuiet s ∧ OtpInRange s ∧ CodeIsFormat s ∧ StagesOrdered s ∧ CodeTailZero s ∧ ResetIdle s
    ∧ VarsCanonical s

/-- Every statement of the HOST's program has a meaning, so the machine never stops (log 11). -/
abbrev HostProgramOK (s : State) : Prop := scriptOK s.env.script = true

/-! ## What a step does to the block, in words claims use -/

/-- The block is the same in both states; only the world outside it may differ. -/
abbrev SameBlock (s t : State) : Prop := t = { s with env := t.env }

/-- The write to the aperture that the next turn makes, if it makes one (R13, R60; none while reset is asserted,
R282). -/
def turnWrite (s : State) : Option (Offset × Word) :=
  if s.env.inReset then none
  else
    match (nextTurn s).1 with
    | .bus (.write addr v) => (apertureOffset addr).map fun off => (off, v)
    | .host =>
      match s.env.script[s.env.pos]? with
      | some (.wr off v) => some (off, v)
      | some (.cmd c) => if c.assembles then some (cmdOffset, encode c) else none
      | some (.word v) => some (cmdOffset, v)
      | some (.wrr off r) => some (off, readVar r s)
      | _ => none
    | _ => none

end Sys2Proof.Safety
end

