-- ==== Sys2Proof/Certificates/Slice0/Obligations.lean ====
section
/-! DEFINITION. The statements for the provers, each from a rule of the spec (OBLIGATIONS.json says which). The helper
names they share stand first, under Sys2Proof.Claims. -/

namespace Sys2Proof.Claims

open Sys2Proof.Machine Sys2Proof.Safety

/-! ## Words the statements share -/

/-- The word has this match under the table's mask 0xFFFFF0CF (R97). -/
abbrev Matches (w n : Word) : Prop := w &&& 0xFFFFF0CF = n

/-- The word is an illegal encoding: OP 0x9 to 0xF, or a bit of 7:6 or 31:12 set (R95, R98). -/
abbrev Illegal (w : Word) : Prop :=
  9 ≤ (w.extractLsb' 0 4).toNat ∨ w.extractLsb' 6 2 ≠ 0 ∨ w.extractLsb' 12 20 ≠ 0

/-- The state an error completion with code c leaves (R243). -/
abbrev failed (c : BitVec 4) (s : State) : State :=
  { s with err := true, errcode := c, pending := none, done := true }

/-- KEYLEN is 1 to 128 (R155). -/
abbrev KeyLengthOK (s : State) : Prop := 1 ≤ s.keylen.toNat ∧ s.keylen.toNat ≤ 128

/-- ASCII_ONLY = 0, or every key byte below KEYLEN is below 0x80 (R155). -/
abbrev KeyEncodingOK (s : State) : Prop :=
  s.asciiOnly = true → ∀ i < s.keylen.toNat, (byteAt s.key i).toNat < 0x80

/-- What must hold of ALG, the key and the key check for HMAC, HOTP and TOTP (R154, R216, R217). -/
abbrev KeyedOK (alg : AlgField) (h : HashAlg) (s : State) : Prop :=
  algOf alg = some h ∧ KeyLengthOK s ∧ KeyEncodingOK s

/-- DIGITS is 1 to 10 (R184). -/
abbrev DigitsLegal (d : Nat) : Prop := 1 ≤ d ∧ d ≤ 10

/-- STEP ≠ 0 and T0 ≤ TIME (R110). -/
abbrev TimeOK (s : State) : Prop := s.stepSecs ≠ 0 ∧ s.t0.toNat ≤ s.time.toNat

/-- (TIME − T0) div STEP as a 64-bit value (R110). -/
abbrev timeSteps (s : State) : DWord := BitVec.ofNat 64 ((s.time.toNat - s.t0.toNat) / s.stepSecs.toNat)

/-- The secret and the message of a keyed command: HMAC(h, KEY[0:KEYLEN), Serialize(c)) (R154). -/
abbrev secretHmac (h : HashAlg) (c : DWord) (s : State) : List Byte :=
  hmac h (s.key.toList.take s.keylen.toNat) (serialize c)

/-- The digest buffer of a keyed command: D, then 0x00 up to 64 bytes (R154). -/
abbrev IsDigestBuffer (h : HashAlg) (c : DWord) (s : State) (buf : Vector Byte 64) : Prop :=
  buf.toList = secretHmac h c s ++ List.replicate (64 - dlen h) 0

/-- (off, p) is Truncate of the buffer for a digest of L bytes (R180). -/
abbrev IsTruncation (buf : Vector Byte 64) (l : Nat) (off : BitVec 4) (p : BitVec 31) : Prop :=
  off.toNat = (byteAt buf (l - 1)).toNat % 16 ∧
  p.toNat = (byteAt buf off.toNat).toNat % 128 * 2 ^ 24 + (byteAt buf (off.toNat + 1)).toNat * 2 ^ 16
    + (byteAt buf (off.toNat + 2)).toNat * 2 ^ 8 + (byteAt buf (off.toNat + 3)).toNat

/-- The buffer is Format(v, d) (R200). -/
abbrev IsFormat (v d : Nat) (code : Vector Byte 12) : Prop :=
  (∀ i < d, i < 12 → (byteAt code i).toNat = 0x30 + v / 10 ^ (d - 1 - i) % 10) ∧
  ∀ i, d ≤ i → i < 12 → byteAt code i = 0

/-- The four stages of a one-time password over counter c, with h and d, in state t (R216). -/
abbrev IsOtpOf (h : HashAlg) (d : Nat) (c : DWord) (s t : State) : Prop :=
  IsDigestBuffer h c s t.digest ∧ IsTruncation t.digest (dlen h) t.truncOffset t.p ∧
  t.otp.toNat = t.p.toNat % 10 ^ d ∧ IsFormat t.otp.toNat d t.code

/-- HOST writes the command to CMD, then the ENGINE completes it (R210, R213). -/
abbrev issueAndComplete (i : Instr) (s : State) : Host.Outcome State Fault Refusal :=
  engineStep (busWrite 0x008 (encode i) s).2

/-- One outcome after another. -/
def andThen (o : Host.Outcome State Fault Refusal) (f : State → Host.Outcome State Fault Refusal) :
    Host.Outcome State Fault Refusal :=
  match o with
  | .next t => f t
  | .fault r => .fault r
  | .refused r => .refused r

/-- The decimal number a string of ASCII digits stands for. -/
def decimalValue (bs : List Byte) : Nat := bs.foldl (fun acc b => acc * 10 + (b.toNat - 0x30)) 0

/-- The bits of a command word that its command uses (R91, R97). -/
def usedBits : Instr → Word
  | .nop => 0x00F
  | .clear => 0x00F
  | .derive => 0x00F
  | .hmac _ => 0x03F
  | .trunc => 0x00F
  | .reduce _ => 0xF0F
  | .format => 0x00F
  | .hotp _ _ => 0xF3F
  | .totp _ _ => 0xF3F

/-- Check c fails for the pending word w in state s (R240): the codes and causes of the table. -/
def CheckFails (w : Word) (s : State) (c : Nat) : Prop :=
  let op := (w.extractLsb' 0 4).toNat
  let keyed := op = 3 ∨ op = 7 ∨ op = 8
  let digited := op = 5 ∨ op = 7 ∨ op = 8
  let timed := op = 2 ∨ op = 8
  match c with
  | 1 => Illegal w
  | 2 => keyed ∧ (w.extractLsb' 4 2).toNat = 3
  | 3 => digited ∧ ¬ DigitsLegal (w.extractLsb' 8 4).toNat
  | 4 => keyed ∧ ¬ KeyLengthOK s
  | 5 => keyed ∧ ¬ KeyEncodingOK s
  | 6 => timed ∧ s.stepSecs = 0
  | 7 => timed ∧ s.time.toNat < s.t0.toNat
  | 8 => (op = 4 ∧ s.dv = false) ∨ (op = 5 ∧ s.pv = false) ∨ (op = 6 ∧ s.ov = false)
  | _ => False

/-- The registers a command reads agree in two states (R48, "reads"). -/
def OperandsAgree (i : Instr) (s s' : State) : Prop :=
  let keyed := s.keylen = s'.keylen ∧ s.asciiOnly = s'.asciiOnly ∧
    ∀ j < s.keylen.toNat, byteAt s.key j = byteAt s'.key j
  let timed := s.time = s'.time ∧ s.t0 = s'.t0 ∧ s.stepSecs = s'.stepSecs
  match i with
  | .nop => True
  | .clear => True
  | .derive => timed
  | .hmac _ => keyed ∧ s.ctr = s'.ctr
  | .trunc => s.digest = s'.digest ∧ s.dalg = s'.dalg ∧ s.dv = s'.dv
  | .reduce _ => s.p = s'.p ∧ s.pv = s'.pv
  | .format => s.otp = s'.otp ∧ s.odig = s'.odig ∧ s.ov = s'.ov
  | .hotp _ _ => keyed ∧ s.ctr = s'.ctr
  | .totp _ _ => timed ∧ keyed

/-- The registers a command writes on success agree in two states (R48, "writes"). -/
def WritesAgree (i : Instr) (t t' : State) : Prop :=
  let digest := t.digest = t'.digest ∧ t.dalg = t'.dalg ∧ t.dv = t'.dv
  let trunc := t.truncOffset = t'.truncOffset ∧ t.p = t'.p ∧ t.pv = t'.pv
  let otp := t.otp = t'.otp ∧ t.odig = t'.odig ∧ t.ov = t'.ov
  let code := t.code = t'.code ∧ t.cv = t'.cv
  match i with
  | .nop => True
  | .clear => t.key = t'.key ∧ t.keylen = t'.keylen ∧ digest ∧ trunc ∧ otp ∧ code
  | .derive => t.ctr = t'.ctr
  | .hmac _ => digest ∧ t.pv = t'.pv ∧ t.ov = t'.ov ∧ t.cv = t'.cv
  | .trunc => trunc ∧ t.ov = t'.ov ∧ t.cv = t'.cv
  | .reduce _ => otp ∧ t.cv = t'.cv
  | .format => code
  | .hotp _ _ => digest ∧ trunc ∧ otp ∧ code
  | .totp _ _ => t.ctr = t'.ctr ∧ digest ∧ trunc ∧ otp ∧ code

/-- The bits a read-write register stores (R27, R29 to R34); none for a register of another kind. -/
def storedBits : Reg → Option Word
  | .ctrl => some 0x00000001
  | .irqEn => some 0x00000001
  | .keylen => some 0x000000FF
  | .stepSecs => some 0xFFFFFFFF
  | .timeHi => some 0xFFFFFFFF
  | .timeLo => some 0xFFFFFFFF
  | .t0Hi => some 0xFFFFFFFF
  | .t0Lo => some 0xFFFFFFFF
  | .ctrHi => some 0xFFFFFFFF
  | .ctrLo => some 0xFFFFFFFF
  | _ => none

/-- The registers of R64's list: mapped and read-only. -/
def readOnly : Reg → Bool
  | .id => true
  | .cap => true
  | .trunc => true
  | .p => true
  | .otp => true
  | .digest _ => true
  | .code _ => true
  | _ => false

/-- The offset is misaligned (R62) or reserved (R63). -/
abbrev BadOffset (a : Offset) : Prop :=
  a.toNat % 4 ≠ 0 ∨ (0x044 ≤ a.toNat ∧ a.toNat ≤ 0x0FF) ∨ 0x1CC ≤ a.toNat

/-- The spec's test key "12345678901234567890" (R104, R154). -/
abbrev keyK20 : List Byte :=
  [0x31, 0x32, 0x33, 0x34, 0x35, 0x36, 0x37, 0x38, 0x39, 0x30, 0x31, 0x32, 0x33, 0x34, 0x35, 0x36, 0x37, 0x38, 0x39, 0x30]

/-- The state of the spec's worked examples: the test key loaded, CTR and TIME set, the rest as after reset. -/
abbrev workedState (ctr time : DWord) : State :=
  { State.reset with key := bufferOf 128 keyK20, keylen := 20, ctr := ctr, time := time }

/-- n is where a script continues at a label (R102: "continue at label L"): the first statement `L:` for a label by name
(log 7), the last one before the running statement for `1b` (R103). -/
def LabelPlace (s : State) : Target → Nat → Prop
  | .named k, n => s.env.script[n]? = some (.label k) ∧ ∀ m < n, s.env.script[m]? ≠ some (.label k)
  | .back k, n =>
    n < s.env.pos ∧ s.env.script[n]? = some (.label k) ∧ ∀ m < s.env.pos, n < m → s.env.script[m]? ≠ some (.label k)

/-- The script does not hold the label; for `1b`, not before the running statement. -/
def NoLabel (s : State) : Target → Prop
  | .named k => .label k ∉ s.env.script
  | .back k => .label k ∉ s.env.script.take s.env.pos

/-- The HOST stands at place n; nothing else has changed. -/
abbrev atPlace (n : Nat) (s : State) : State := { s with env := { s.env with pos := n } }

/-- The HOST's turn writes v to the offset and goes on to the next statement; the reply is recorded (log 9). -/
abbrev WritesAndGoesOn (off : Offset) (v : Word) (s : State) : Prop :=
  ∃ t, hostStep s = .next t ∧ SameBlock (busWrite off v s).2 t ∧
    t.env = { s.env with pos := s.env.pos + 1, reply := some (.write (busWrite off v s).1) }

/-- The HOST's turn sets rN to v and goes on to the next statement; nothing else changes. -/
abbrev SetsVariable (r : Nat) (v : Word) (s : State) : Prop :=
  ∃ t, hostStep s = .next t ∧ SameBlock s t ∧ readVar r t = v ∧ (∀ q, q ≠ r → readVar q t = readVar q s) ∧
    t.env = { s.env with pos := s.env.pos + 1, vars := t.env.vars }

/-- The HOST's turn is a branch: not taken, it goes on to the next statement; taken, it continues at the label, and stops
when the script does not hold it (log 11). -/
abbrev BranchesTo (taken : Prop) (l : Target) (s : State) : Prop :=
  (¬ taken → hostStep s = .next (atPlace (s.env.pos + 1) s)) ∧
  (taken → (∃ n, LabelPlace s l n ∧ hostStep s = .next (atPlace n s)) ∨
    (NoLabel s l ∧ hostStep s = .fault .noSuchLabel))

/-- The characters of a mnemonic line. -/
abbrev line (s : String) : List Char := s.toList

/-- The characters of a decimal operand. -/
abbrev decimal (d : Nat) : List Char := Nat.toDigits 10 d

end Sys2Proof.Claims

open Sys2Proof Sys2Proof.Machine Sys2Proof.Safety Sys2Proof.Claims

/-! ## Encoding -/

/-- Words written out from R91 and R101, and what they stand for; sanity. -/
def Obligations.SpecWordsDecode : Prop :=
  decode 0x00000000 = .ok .nop ∧ decode 0x00000F30 = .ok .nop ∧ decode 0x00000001 = .ok .clear ∧
  decode 0x00000002 = .ok .derive ∧ decode 0x00000013 = .ok (.hmac .sha256) ∧
  decode 0x00000033 = .ok (.hmac .reserved) ∧ decode 0x00000034 = .ok .trunc ∧
  decode 0x00000A05 = .ok (.reduce 10) ∧ decode 0x00000306 = .ok .format ∧
  decode 0x00000607 = .ok (.hotp .sha1 6) ∧ decode 0x00000828 = .ok (.totp .sha512 8) ∧
  decode 0x00000009 = .error .reservedOp ∧ decode 0x00000048 = .error .reservedBits ∧
  decode 0x00001008 = .error .reservedBits ∧ decode 0xFFFFFFFF = .error .reservedBits

/-- R97: the decoder, total on every word, by match and mask; the fields are w[5:4] and w[11:8]; every word outside the
nine matches is illegal. -/
def Obligations.DecodeFollowsMatchAndMask : Prop :=
  ∀ w : Word,
    (Matches w 0 → decode w = .ok .nop) ∧ (Matches w 1 → decode w = .ok .clear) ∧
    (Matches w 2 → decode w = .ok .derive) ∧
    (Matches w 3 → decode w = .ok (.hmac (algOfBits (w.extractLsb' 4 2)))) ∧
    (Matches w 4 → decode w = .ok .trunc) ∧
    (Matches w 5 → decode w = .ok (.reduce (w.extractLsb' 8 4).toNat)) ∧
    (Matches w 6 → decode w = .ok .format) ∧
    (Matches w 7 → decode w = .ok (.hotp (algOfBits (w.extractLsb' 4 2)) (w.extractLsb' 8 4).toNat)) ∧
    (Matches w 8 → decode w = .ok (.totp (algOfBits (w.extractLsb' 4 2)) (w.extractLsb' 8 4).toNat)) ∧
    ((∃ e, decode w = .error e) ↔ Illegal w) ∧
    (Illegal w ↔ ∀ n : Fin 9, ¬ Matches w (BitVec.ofNat 32 n.val))

/-- R96: a field a command does not use is ignored: two words with the same match decode alike when the fields their
command uses agree. -/
def Obligations.UnusedFieldsAreIgnored : Prop :=
  ∀ w v : Word, w &&& 0xFFFFF0CF = v &&& 0xFFFFF0CF →
    ((w &&& 0xF = 0 ∨ w &&& 0xF = 1 ∨ w &&& 0xF = 2 ∨ w &&& 0xF = 4 ∨ w &&& 0xF = 6) → decode w = decode v) ∧
    (w &&& 0xF = 3 → w.extractLsb' 4 2 = v.extractLsb' 4 2 → decode w = decode v) ∧
    (w &&& 0xF = 5 → w.extractLsb' 8 4 = v.extractLsb' 8 4 → decode w = decode v)

/-- R95, R98: an illegal word written while BUSY = 0 is accepted and completes with ERR = 1, ERRCODE = 1, and nothing
else of the block has changed but what the issue itself cleared. -/
def Obligations.IllegalWordReportsCodeOne : Prop :=
  ∀ (w : Word) (s : State), Illegal w → isBusy s = false →
    (busWrite 0x008 w s).1 = .okay ∧
    engineStep (busWrite 0x008 w s).2 =
      .next { s with pending := none, done := true, err := true, errcode := 1 }

/-- Decode and encode agree, both ways: decode of encode is the command, for every well-formed command with every operand
at every value its field admits; and every word that decodes gives a well-formed command whose word is the word's used
bits (R91 to R97). -/
def Obligations.DecodeAndEncodeAgree : Prop :=
  (∀ i : Instr, i.wellFormed = true → decode (encode i) = .ok i) ∧
  ∀ (w : Word) (i : Instr), decode w = .ok i → i.wellFormed = true ∧ encode i = w &&& usedBits i

/-- R101: the assembler's table, for every algorithm and every digit count; letters' case does not matter; a mnemonic
without its .ALG or d is refused, and no line gives a command with d outside 1 to 10 or an unnamed algorithm. -/
def Obligations.AssemblerFollowsItsTable : Prop :=
  assemble (line "nop") = some 0x00000000 ∧ assemble (line "clear") = some 0x00000001 ∧
  assemble (line "derive") = some 0x00000002 ∧ assemble (line "hmac.sha1") = some 0x00000003 ∧
  assemble (line "hmac.sha256") = some 0x00000013 ∧ assemble (line "hmac.sha512") = some 0x00000023 ∧
  assemble (line "trunc") = some 0x00000004 ∧ assemble (line "format") = some 0x00000006 ∧
  (∀ d : Nat, DigitsLegal d →
    assemble (line "reduce " ++ decimal d) = some (0x00000005 ||| (BitVec.ofNat 32 d <<< 8)) ∧
    ∀ x ∈ [("sha1", (0 : Word)), ("sha256", 1), ("sha512", 2)],
      assemble (line "hotp." ++ line x.1 ++ [' '] ++ decimal d)
        = some (0x00000007 ||| (x.2 <<< 4) ||| (BitVec.ofNat 32 d <<< 8)) ∧
      assemble (line "totp." ++ line x.1 ++ [' '] ++ decimal d)
        = some (0x00000008 ||| (x.2 <<< 4) ||| (BitVec.ofNat 32 d <<< 8))) ∧
  (∀ l l' : List Char, l.map Char.toLower = l'.map Char.toLower → assemble l = assemble l') ∧
  (∀ (l : List Char) (i : Instr), assembleInstr l = some i →
    (∀ d, (i = .reduce d ∨ ∃ a, i = .hotp a d ∨ i = .totp a d) → DigitsLegal d) ∧
    ∀ a, (i = .hmac a ∨ ∃ d, i = .hotp a d ∨ i = .totp a d) → a ≠ .reserved) ∧
  (∀ d : Fin 20, ¬ DigitsLegal d.val →
    assemble (line "reduce " ++ decimal d.val) = none ∧ assemble (line "hotp.sha1 " ++ decimal d.val) = none ∧
    assemble (line "totp.sha512 " ++ decimal d.val) = none) ∧
  assemble (line "hmac") = none ∧ assemble (line "hotp 6") = none ∧ assemble (line "totp 6") = none ∧
  assemble (line "reduce") = none ∧ assemble (line "hotp.sha1") = none ∧ assemble (line "totp.sha1") = none

/-! ## Issue, COMPLETE and step -/

/-- A step runs the decoded command: when the ENGINE has the turn and the pending word decodes to i, step is exec of i
(R211, R213), the schedule moved past that turn; so it is when the schedule is empty (log 1), and for the state that
State.withFetchWord makes. -/
def Obligations.StepRunsTheDecodedCommand : Prop :=
  ∀ (s : State) (w : Word) (i : Instr), decode w = .ok i →
    (s.pending = some w → ∀ ts, s.env.turns = .engine :: ts →
      step s = exec i { s with env := { s.env with turns := ts } }) ∧
    (s.pending = some w → s.env.turns = [] → s.env.inReset = false → step s = exec i s) ∧
    step (s.withFetchWord 32 w.toNat) = exec i { s with pending := some w, done := false, err := false, errcode := 0 }

/-- R210: issue. A write to CMD while BUSY = 0 is accepted whatever w is; no other state changes; a write to CMD while
BUSY = 1 does not replace PENDING. -/
def Obligations.CmdWriteIssues : Prop :=
  ∀ (s : State) (w : Word),
    (isBusy s = false →
      busWrite 0x008 w s = (.okay, { s with pending := some w, done := false, err := false, errcode := 0 })) ∧
    (isBusy s = true → busWrite 0x008 w s = (.okay, { s with ovr := true }))

/-- R213 (with R211): COMPLETE is enabled exactly when BUSY = 1; it is Exec of the pending word: an illegal word ends in
ILLEGAL_CMD, any other in its command; whatever the word, one step ends with BUSY = 0 and DONE = 1. -/
def Obligations.CompleteRetiresThePendingWord : Prop :=
  ∀ s : State,
    (s.pending = none → engineStep s = .next s) ∧
    ∀ w, s.pending = some w →
      (Illegal w → engineStep s = .next (failed 1 s)) ∧
      (∀ i, decode w = .ok i → engineStep s = exec i s) ∧
      ∃ t, engineStep s = .next t ∧ t.pending = none ∧ t.done = true ∧ t.env = s.env

/-- R242 (with R240, R243, R244): when several checks fail, the reported code is the smallest failing one and nothing
else changes; when none fails, the command succeeds and leaves ERR and ERRCODE alone. -/
def Obligations.SmallestFailingCodeIsReported : Prop :=
  ∀ (s : State) (w : Word), s.pending = some w →
    (∀ c, CheckFails w s c → (∀ c' < c, ¬ CheckFails w s c') →
      engineStep s = .next (failed (BitVec.ofNat 4 c) s)) ∧
    ((∀ c, ¬ CheckFails w s c) →
      ∃ t, engineStep s = .next t ∧ t.err = s.err ∧ t.errcode = s.errcode ∧ t.pending = none ∧ t.done = true)

/-- R243, R244: COMPLETE of any word on any state, and every command on any state, either succeeds, leaving ERR and
ERRCODE as they were, or ends in error with a code from 1 to 8 (a command: from 2 on) and changes nothing but ERR,
ERRCODE, BUSY and DONE. -/
def Obligations.CommandSucceedsOrChangesNothing : Prop :=
  (∀ (w : Word) (s : State), s.pending = some w →
    ∃ t, engineStep s = .next t ∧ t.pending = none ∧ t.done = true ∧
      ((t.err = s.err ∧ t.errcode = s.errcode) ∨
        (t = failed t.errcode s ∧ 1 ≤ t.errcode.toNat ∧ t.errcode.toNat ≤ 8))) ∧
  ∀ (i : Instr) (s : State),
    ∃ t, exec i s = .next t ∧ t.pending = none ∧ t.done = true ∧
      ((t.err = s.err ∧ t.errcode = s.errcode) ∨
        (t = failed t.errcode s ∧ 2 ≤ t.errcode.toNat ∧ t.errcode.toNat ≤ 8))

/-! ## The commands -/

/-- R214: NOP completes on every state, with no effect but completion; dropped while BUSY = 1; after issue and
COMPLETE, STATUS is 0x00000002 plus the unchanged valid bits, DALG, ODIG and OVR. -/
def Obligations.NopOnlyCompletes : Prop :=
  (∀ w : Word, Matches w 0x00000000 → decode w = .ok .nop) ∧
  (∀ s : State, exec .nop s = .next { s with pending := none, done := true }) ∧
  (∀ s : State, isBusy s = true → busWrite 0x008 0x00000000 s = (.okay, { s with ovr := true })) ∧
  (∀ s : State, isBusy s = false →
    issueAndComplete .nop s = .next { s with done := true, err := false, errcode := 0 } ∧
    ∀ t, issueAndComplete .nop s = .next t → statusWord t = 0x00000002 ||| (statusWord s &&& 0x000F30F8))

/-- R215: CLEAR completes on every state: the secret and every result are zero, every valid bit is 0, and TIME, T0,
STEP, CTR, CTRL, IRQ_EN and OVR are not changed; after it the keyed commands raise KEY_LENGTH and the stage commands
NOT_READY. -/
def Obligations.ClearZeroisesSecretAndResults : Prop :=
  (∀ w : Word, Matches w 0x00000001 → decode w = .ok .clear) ∧
  ∀ s : State, ∃ t,
    exec .clear s = .next t ∧
    t = { s with
      key := t.key, keylen := 0, digest := t.digest, dalg := .sha1, truncOffset := 0, p := 0, otp := 0, odig := 0
      code := t.code, dv := false, pv := false, ov := false, cv := false, pending := none, done := true } ∧
    (∀ i, byteAt t.key i = 0) ∧ (∀ i, byteAt t.digest i = 0) ∧ (∀ i, byteAt t.code i = 0) ∧
    (∀ (a : AlgField) (h : HashAlg) (d : Nat), algOf a = some h → DigitsLegal d →
      exec (.hmac a) t = .next (failed 4 t) ∧ exec (.hotp a d) t = .next (failed 4 t) ∧
      exec (.totp a d) t = .next (failed 4 t) ∧ exec (.reduce d) t = .next (failed 8 t)) ∧
    exec .trunc t = .next (failed 8 t) ∧ exec .format t = .next (failed 8 t) ∧
    (s.err = false → s.errcode = 0 → s.ovr = false → statusWord t = 0x00000002)

/-- R110, R112: DERIVE writes CTR with floor((TIME − T0) / STEP), which always fits, and nothing else; STEP_ZERO and
TIME_BEFORE_EPOCH otherwise, the first winning; the rule's corner cases and worked example. -/
def Obligations.DeriveComputesTheTimeStep : Prop :=
  (∀ w : Word, Matches w 0x00000002 → decode w = .ok .derive) ∧
  ∀ s : State,
    (TimeOK s →
      exec .derive s = .next { s with ctr := timeSteps s, pending := none, done := true } ∧
      (timeSteps s).toNat = (s.time.toNat - s.t0.toNat) / s.stepSecs.toNat ∧
      (s.time = s.t0 → timeSteps s = 0) ∧
      (s.stepSecs = 1 → timeSteps s = s.time - s.t0) ∧
      (s.stepSecs = 1 → s.t0 = 0 → s.time = 0xFFFFFFFFFFFFFFFF → timeSteps s = 0xFFFFFFFFFFFFFFFF) ∧
      (s.stepSecs = 0xFFFFFFFF → s.time.toNat - s.t0.toNat < 0xFFFFFFFF → timeSteps s = 0) ∧
      (s.stepSecs = 30 → s.t0 = 0 → s.time = 59 → timeSteps s = 1)) ∧
    (s.stepSecs = 0 → exec .derive s = .next (failed 6 s)) ∧
    (s.stepSecs ≠ 0 → s.time.toNat < s.t0.toNat → exec .derive s = .next (failed 7 s))

/-- R154, R155: HMAC writes DIGEST, DALG and the valid bits, and nothing else; its errors, in order; and the corner
cases: which keys are hashed first, that bytes at index ≥ KEYLEN are not read, the zero counter; the worked example. -/
def Obligations.HmacWritesTheDigest : Prop :=
  (∀ w : Word, Matches w 0x00000003 → decode w = .ok (.hmac (algOfBits (w.extractLsb' 4 2)))) ∧
  (∀ (s : State) (alg : AlgField) (h : HashAlg), KeyedOK alg h s →
    ∃ buf, IsDigestBuffer h s.ctr s buf ∧
      exec (.hmac alg) s = .next { s with
        digest := buf, dalg := h, dv := true, pv := false, ov := false, cv := false
        pending := none, done := true }) ∧
  (∀ s : State, exec (.hmac .reserved) s = .next (failed 2 s)) ∧
  (∀ (s : State) (alg : AlgField) (h : HashAlg), algOf alg = some h → ¬ KeyLengthOK s →
    exec (.hmac alg) s = .next (failed 4 s)) ∧
  (∀ (s : State) (alg : AlgField) (h : HashAlg), algOf alg = some h → KeyLengthOK s → ¬ KeyEncodingOK s →
    exec (.hmac alg) s = .next (failed 5 s)) ∧
  (∀ (h : HashAlg) (k : List Byte), blockLen h < k.length →
    keyBlock h k = hash h k ++ List.replicate (blockLen h - dlen h) 0) ∧
  (∀ (h : HashAlg) (k : List Byte), k.length = blockLen h → keyBlock h k = k) ∧
  (∀ (s : State) (k : Vector Byte 128), (∀ i < s.keylen.toNat, byteAt k i = byteAt s.key i) →
    ∀ (alg : AlgField) (t : State), exec (.hmac alg) s = .next t →
      exec (.hmac alg) { s with key := k } = .next { t with key := k }) ∧
  serialize 0 = List.replicate 8 0 ∧
  ∃ t, exec (.hmac .sha1) (workedState 0 0) = .next t ∧
    beNat (t.digest.toList.take 20) = 0xcc93cf18508d94934c64b65d8ba7667fb7cde4b0

/-- R180, R182: TRUNC writes OFFSET, P and the valid bits from the held digest, with the length of its own algorithm,
and nothing else; NOT_READY when DV = 0; the worked example. -/
def Obligations.TruncSelectsTheWindow : Prop :=
  (∀ w : Word, Matches w 0x00000004 → decode w = .ok .trunc) ∧
  (∀ s : State, s.dv = true →
    ∃ off p, IsTruncation s.digest (dlen s.dalg) off p ∧
      exec .trunc s = .next { s with
        truncOffset := off, p := p, pv := true, ov := false, cv := false, pending := none, done := true }) ∧
  (∀ s : State, s.dv = false → exec .trunc s = .next (failed 8 s)) ∧
  ∃ t, exec .trunc { State.reset with
      dv := true, digest := bufferOf 64 (beBytes 20 (0x1f8698690e02ca16618550ef7f19da8e945b555a : BitVec 160)) } = .next t ∧
    t.truncOffset = 0xA ∧ t.p = 0x50EF7F19

/-- R183, R184, R185: REDUCE writes OTP = P mod 10^d, ODIG = d and the valid bits, and nothing else; its errors, the
digit count first; d = 10 gives P itself; the rule's corner cases and worked example. -/
def Obligations.ReduceTakesTheRemainder : Prop :=
  (∀ w : Word, Matches w 0x00000005 → decode w = .ok (.reduce (w.extractLsb' 8 4).toNat)) ∧
  (∀ (s : State) (d : Nat), DigitsLegal d → s.pv = true →
    ∃ v : BitVec 31, v.toNat = s.p.toNat % 10 ^ d ∧ (d = 10 → v = s.p) ∧
      exec (.reduce d) s = .next { s with
        otp := v, odig := BitVec.ofNat 4 d, ov := true, cv := false, pending := none, done := true }) ∧
  (∀ (s : State) (d : Nat), ¬ DigitsLegal d → exec (.reduce d) s = .next (failed 3 s)) ∧
  (∀ (s : State) (d : Nat), DigitsLegal d → s.pv = false → exec (.reduce d) s = .next (failed 8 s)) ∧
  (∀ p : BitVec 31, p.toNat % 10 ^ 9 = p.toNat - 10 ^ 9 * (p.toNat / 10 ^ 9) ∧ p.toNat / 10 ^ 9 ≤ 2) ∧
  (∀ x ∈ [(1, (7 : Nat)), (2, 47), (3, 647), (4, 3647), (5, 83647), (6, 483647), (7, 7483647), (8, 47483647), (9, 147483647),
      (10, 2147483647)],
    ∃ t, exec (.reduce x.1) { State.reset with pv := true, p := 0x7FFFFFFF } = .next t ∧ t.otp.toNat = x.2) ∧
  ∃ t, exec (.reduce 6) { State.reset with pv := true, p := 1357872921 } = .next t ∧ t.otp = 872921 ∧ t.odig = 6

/-- FORMAT on every state with OV = 1 writes CODE by the formula of R200 and sets CV, and nothing else; NOT_READY when
OV = 0; 42 with 6 digits is "000042". On the states that meet R50 (d) this is R200 and R201; outside it, where R200 defines
nothing, that the formula stands as it is is the model's choice (log 14). -/
def Obligations.FormatWritesTheDigits : Prop :=
  (∀ w : Word, Matches w 0x00000006 → decode w = .ok .format) ∧
  (∀ s : State, s.ov = true →
    ∃ code, IsFormat s.otp.toNat s.odig.toNat code ∧
      exec .format s = .next { s with code := code, cv := true, pending := none, done := true }) ∧
  (∀ s : State, s.ov = false → exec .format s = .next (failed 8 s)) ∧
  ∀ s t : State, s.ov = true → s.otp = 42 → s.odig = 6 → exec .format s = .next t →
    readReg (.code 0) t = 0x30303030 ∧ readReg (.code 1) t = 0x34320000 ∧ readReg (.code 2) t = 0

/-- R216: HOTP writes all four stages from the key and CTR, and nothing else: CTR is not changed, no valid bit is
needed; its errors, in order, change nothing but STATUS; the worked example. -/
def Obligations.HotpComputesThePassword : Prop :=
  (∀ w : Word, Matches w 0x00000007 →
    decode w = .ok (.hotp (algOfBits (w.extractLsb' 4 2)) (w.extractLsb' 8 4).toNat)) ∧
  (∀ (s : State) (alg : AlgField) (h : HashAlg) (d : Nat), KeyedOK alg h s → DigitsLegal d →
    ∃ t, exec (.hotp alg d) s = .next t ∧ IsOtpOf h d s.ctr s t ∧
      t = { s with
        digest := t.digest, dalg := h, truncOffset := t.truncOffset, p := t.p, otp := t.otp
        odig := BitVec.ofNat 4 d, code := t.code, dv := true, pv := true, ov := true, cv := true
        pending := none, done := true }) ∧
  (∀ (s : State) (d : Nat), exec (.hotp .reserved d) s = .next (failed 2 s)) ∧
  (∀ (s : State) (alg : AlgField) (h : HashAlg) (d : Nat), algOf alg = some h →
    (¬ DigitsLegal d → exec (.hotp alg d) s = .next (failed 3 s)) ∧
    (DigitsLegal d → ¬ KeyLengthOK s → exec (.hotp alg d) s = .next (failed 4 s)) ∧
    (DigitsLegal d → KeyLengthOK s → ¬ KeyEncodingOK s → exec (.hotp alg d) s = .next (failed 5 s))) ∧
  ∃ t, exec (.hotp .sha1 6) (workedState 1 0) = .next t ∧ t.truncOffset = 11 ∧ t.p = 0x41397EEA ∧ t.otp = 287082 ∧
    t.code.toList.take 6 = [0x32, 0x38, 0x37, 0x30, 0x38, 0x32]

/-- R217: TOTP derives CTR from the time and writes all four stages over it, and nothing else; its errors, in order,
change nothing but STATUS (so CTR is unchanged too); the worked example. -/
def Obligations.TotpComputesThePassword : Prop :=
  (∀ w : Word, Matches w 0x00000008 →
    decode w = .ok (.totp (algOfBits (w.extractLsb' 4 2)) (w.extractLsb' 8 4).toNat)) ∧
  (∀ (s : State) (alg : AlgField) (h : HashAlg) (d : Nat), KeyedOK alg h s → DigitsLegal d → TimeOK s →
    ∃ t, exec (.totp alg d) s = .next t ∧ IsOtpOf h d (timeSteps s) s t ∧
      t = { s with
        ctr := timeSteps s
        digest := t.digest, dalg := h, truncOffset := t.truncOffset, p := t.p, otp := t.otp
        odig := BitVec.ofNat 4 d, code := t.code, dv := true, pv := true, ov := true, cv := true
        pending := none, done := true }) ∧
  (∀ (s : State) (d : Nat), exec (.totp .reserved d) s = .next (failed 2 s)) ∧
  (∀ (s : State) (alg : AlgField) (h : HashAlg) (d : Nat), algOf alg = some h →
    (¬ DigitsLegal d → exec (.totp alg d) s = .next (failed 3 s)) ∧
    (DigitsLegal d → ¬ KeyLengthOK s → exec (.totp alg d) s = .next (failed 4 s)) ∧
    (DigitsLegal d → KeyLengthOK s → ¬ KeyEncodingOK s → exec (.totp alg d) s = .next (failed 5 s)) ∧
    (DigitsLegal d → KeyLengthOK s → KeyEncodingOK s → s.stepSecs = 0 →
      exec (.totp alg d) s = .next (failed 6 s)) ∧
    (DigitsLegal d → KeyLengthOK s → KeyEncodingOK s → s.stepSecs ≠ 0 → s.time.toNat < s.t0.toNat →
      exec (.totp alg d) s = .next (failed 7 s))) ∧
  ∃ t, exec (.totp .sha1 8) (workedState 0 59) = .next t ∧ t.ctr = 1 ∧
    t.code.toList.take 8 = [0x39, 0x34, 0x32, 0x38, 0x37, 0x30, 0x38, 0x32]

/-- R48, the writes: what each command leaves unchanged when it completes, whether it succeeds or ends in error; ERR and
ERRCODE aside (R243). There is no memory (R73): these are all the registers and buffers the block has. -/
def Obligations.CommandFrame : Prop :=
  ∀ (i : Instr) (s t : State), exec i s = .next t →
    t.time = s.time ∧ t.t0 = s.t0 ∧ t.stepSecs = s.stepSecs ∧ t.asciiOnly = s.asciiOnly ∧ t.doneIe = s.doneIe ∧
    t.ovr = s.ovr ∧ t.env = s.env ∧
    (opCode i ≠ 1 → t.key = s.key ∧ t.keylen = s.keylen) ∧
    (opCode i ∉ [2, 8] → t.ctr = s.ctr) ∧
    (opCode i ∉ [1, 3, 7, 8] → t.digest = s.digest ∧ t.dalg = s.dalg ∧ t.dv = s.dv) ∧
    (opCode i ∉ [1, 4, 7, 8] → t.truncOffset = s.truncOffset ∧ t.p = s.p) ∧
    (opCode i ∉ [1, 3, 4, 7, 8] → t.pv = s.pv) ∧
    (opCode i ∉ [1, 5, 7, 8] → t.otp = s.otp ∧ t.odig = s.odig) ∧
    (opCode i ∉ [1, 3, 4, 5, 7, 8] → t.ov = s.ov) ∧
    (opCode i ∉ [1, 6, 7, 8] → t.code = s.code) ∧
    (opCode i ∉ [1, 3, 4, 5, 6, 7, 8] → t.cv = s.cv)

/-- R47, R212: what COMPLETE reports and writes is a function only of the pending word and of the registers its command's
rule lists as operands. -/
def Obligations.CommandDependsOnlyOnItsOperands : Prop :=
  ∀ (w : Word) (s s' : State), s.pending = some w → s'.pending = some w →
    (∀ i, decode w = .ok i → OperandsAgree i s s') →
    s.err = false → s'.err = false → s.errcode = 0 → s'.errcode = 0 →
    ∃ t t', engineStep s = .next t ∧ engineStep s' = .next t' ∧ t.err = t'.err ∧ t.errcode = t'.errcode ∧
      ∀ i, decode w = .ok i → t.err = false → WritesAgree i t t'

/-- R218: where each one-by-one command succeeds, HOTP(a, d) leaves the same machine as HMAC(a), TRUNC, REDUCE(d),
FORMAT issued in that order, and TOTP(a, d) the same as DERIVE and those four. -/
def Obligations.CompositesEqualTheirStages : Prop :=
  ∀ (s : State) (alg : AlgField) (h : HashAlg) (d : Nat), isBusy s = false → KeyedOK alg h s → DigitsLegal d →
    (∃ t, issueAndComplete (.hotp alg d) s = .next t ∧
      andThen (issueAndComplete (.hmac alg) s) (fun s1 =>
        andThen (issueAndComplete .trunc s1) fun s2 =>
          andThen (issueAndComplete (.reduce d) s2) (issueAndComplete .format)) = .next t) ∧
    (TimeOK s → ∃ t, issueAndComplete (.totp alg d) s = .next t ∧
      andThen (issueAndComplete .derive s) (fun s0 =>
        andThen (issueAndComplete (.hmac alg) s0) fun s1 =>
          andThen (issueAndComplete .trunc s1) fun s2 =>
            andThen (issueAndComplete (.reduce d) s2) (issueAndComplete .format)) = .next t)

/-- R186, R202: after a successful REDUCE, HOTP or TOTP, OTP < 10^ODIG and OTP ≤ P; after a successful FORMAT, HOTP or
TOTP the first ODIG bytes of CODE are decimal digits that read as OTP, and the rest are 0x00. -/
def Obligations.CodeReadsAsTheOtp : Prop :=
  (∀ (s : State) (d : Nat), DigitsLegal d → s.pv = true →
    ∃ t, exec (.reduce d) s = .next t ∧ t.odig.toNat = d ∧ t.otp.toNat < 10 ^ d ∧ t.otp.toNat ≤ t.p.toNat) ∧
  (∀ s : State, s.ov = true → OtpInRange s →
    ∃ t, exec .format s = .next t ∧ decimalValue (t.code.toList.take t.odig.toNat) = t.otp.toNat ∧
      (∀ b ∈ t.code.toList.take t.odig.toNat, 0x30 ≤ b.toNat ∧ b.toNat ≤ 0x39) ∧
      ∀ b ∈ t.code.toList.drop t.odig.toNat, b = 0) ∧
  ∀ (s : State) (alg : AlgField) (h : HashAlg) (d : Nat) (i : Instr), KeyedOK alg h s → DigitsLegal d →
    (i = .hotp alg d ∨ (i = .totp alg d ∧ TimeOK s)) →
    ∃ t, exec i s = .next t ∧ t.odig.toNat = d ∧ t.otp.toNat < 10 ^ d ∧ t.otp.toNat ≤ t.p.toNat ∧
      decimalValue (t.code.toList.take d) = t.otp.toNat ∧
      (∀ b ∈ t.code.toList.take d, 0x30 ≤ b.toNat ∧ b.toNat ≤ 0x39) ∧ ∀ b ∈ t.code.toList.drop d, b = 0

/-! ## The functions inside -/

/-- R111, R114: Serialize gives the eight bytes of C, most significant first; it is injective and BE64 undoes it. -/
def Obligations.SerializeIsBigEndian : Prop :=
  (∀ (c : DWord) (i : Nat), i < 8 → (serialize c)[i]? = some (c.extractLsb' (56 - 8 * i) 8)) ∧
  (∀ c : DWord, (serialize c).length = 8 ∧ beNat (serialize c) = c.toNat) ∧
  (∀ c c' : DWord, serialize c = serialize c' → c = c') ∧
  serialize 0x00000000023523EC = [0x00, 0x00, 0x00, 0x00, 0x02, 0x35, 0x23, 0xEC]

/-- R113: two times give the same CTR exactly when they fall in the same step; the boundary at 0, 29 and 30 seconds; TOTP
at two times of one step gives the same code. -/
def Obligations.SameStepSameCounter : Prop :=
  (∀ s s' : State, s.t0 = s'.t0 → s.stepSecs = s'.stepSecs → TimeOK s → TimeOK s' →
    ∃ t t', exec .derive s = .next t ∧ exec .derive s' = .next t' ∧
      (t.ctr = t'.ctr ↔
        (s.time.toNat - s.t0.toNat) / s.stepSecs.toNat = (s'.time.toNat - s'.t0.toNat) / s'.stepSecs.toNat)) ∧
  (∀ s : State, s.t0 = 0 → s.stepSecs = 30 →
    ∃ t0 t29 t30, exec .derive { s with time := 0 } = .next t0 ∧ exec .derive { s with time := 29 } = .next t29 ∧
      exec .derive { s with time := 30 } = .next t30 ∧ t0.ctr = 0 ∧ t29.ctr = 0 ∧ t30.ctr = 1) ∧
  ∀ (s : State) (alg : AlgField) (h : HashAlg) (d : Nat) (time' : DWord), KeyedOK alg h s → DigitsLegal d → TimeOK s →
    TimeOK { s with time := time' } → timeSteps { s with time := time' } = timeSteps s →
    ∃ t, exec (.totp alg d) s = .next t ∧ exec (.totp alg d) { s with time := time' } = .next { t with time := time' }

/-- R131, R132: padding. The padded message is M, 0x80, the least number of zeros, the length in bits; whole blocks. -/
def Obligations.PaddingFillsWholeBlocks : Prop :=
  ∀ (m : List Byte) (b k : Nat), (b = 64 ∧ k = 8) ∨ (b = 128 ∧ k = 16) →
    (∃ z lenBytes, padMessage b k m = m ++ 0x80 :: (List.replicate z 0 ++ lenBytes) ∧
      (m.length + 1 + z) % b = b - k ∧ (∀ z' < z, (m.length + 1 + z') % b ≠ b - k) ∧
      lenBytes.length = k ∧ (8 * m.length < 2 ^ (8 * k) → beNat lenBytes = 8 * m.length)) ∧
    (blocksOf b (padMessage b k m)).flatten = padMessage b k m ∧
    ∀ x ∈ blocksOf b (padMessage b k m), x.length = b

/-- R137, R143, R149: the message schedules: the block's words, then each word by its recurrence. -/
def Obligations.SchedulesFollowTheirRecurrences : Prop :=
  (∀ m : List Word, m.length = 16 →
    (sha1Schedule m).length = 80 ∧ (∀ t < 16, (sha1Schedule m).getD t 0 = m.getD t 0) ∧
    ∀ t, 16 ≤ t → t < 80 → (sha1Schedule m).getD t 0 =
      ((sha1Schedule m).getD (t - 3) 0 ^^^ (sha1Schedule m).getD (t - 8) 0 ^^^ (sha1Schedule m).getD (t - 14) 0
        ^^^ (sha1Schedule m).getD (t - 16) 0).rotateLeft 1) ∧
  (∀ m : List Word, m.length = 16 →
    (sha256Schedule m).length = 64 ∧ (∀ t < 16, (sha256Schedule m).getD t 0 = m.getD t 0) ∧
    ∀ t, 16 ≤ t → t < 64 → (sha256Schedule m).getD t 0 =
      smallSigma1_256 ((sha256Schedule m).getD (t - 2) 0) + (sha256Schedule m).getD (t - 7) 0
        + smallSigma0_256 ((sha256Schedule m).getD (t - 15) 0) + (sha256Schedule m).getD (t - 16) 0) ∧
  ∀ m : List DWord, m.length = 16 →
    (sha512Schedule m).length = 80 ∧ (∀ t < 16, (sha512Schedule m).getD t 0 = m.getD t 0) ∧
    ∀ t, 16 ≤ t → t < 80 → (sha512Schedule m).getD t 0 =
      smallSigma1_512 ((sha512Schedule m).getD (t - 2) 0) + (sha512Schedule m).getD (t - 7) 0
        + smallSigma0_512 ((sha512Schedule m).getD (t - 15) 0) + (sha512Schedule m).getD (t - 16) 0

/-- R130, R153: every hash and every HMAC has DLEN(alg) bytes: 20, 32 or 64. -/
def Obligations.DigestLengthsAreFixed : Prop :=
  (∀ (h : HashAlg) (m : List Byte), (hash h m).length = dlen h) ∧
  (∀ (h : HashAlg) (k m : List Byte), (hmac h k m).length = dlen h ∧ (keyBlock h k).length = blockLen h) ∧
  dlen .sha1 = 20 ∧ dlen .sha256 = 32 ∧ dlen .sha512 = 64

/-- R156: a key longer than a block gives the same HMAC as its hash, which has DLEN(alg) ≤ B bytes and is its own K'. -/
def Obligations.PrehashedKeyIsEquivalent : Prop :=
  ∀ (h : HashAlg) (k m : List Byte), blockLen h < k.length →
    hmac h k m = hmac h (hash h k) m ∧ (hash h k).length = dlen h ∧ dlen h ≤ blockLen h ∧
    shortKey h (hash h k) = hash h k

/-- The check values that R139, R145 and R151 print for "abc", the HMAC example of R154, and the truncation and reduction
example of R182 and R185; sanity. -/
def Obligations.CheckValues : Prop :=
  beNat (sha1 [0x61, 0x62, 0x63]) = 0xa9993e364706816aba3e25717850c26c9cd0d89d ∧
  beNat (sha256 [0x61, 0x62, 0x63]) = 0xba7816bf8f01cfea414140de5dae2223b00361a396177a9cb410ff61f20015ad ∧
  beNat (sha512 [0x61, 0x62, 0x63]) =
    0xddaf35a193617abacc417349ae20413112e6fa4e89a97ea20a9eeee64b55d39a2192992a274fc1a836ba3c23a3feebbd454d4423643ce80e2a9ac94fa54ca49f ∧
  beNat (hmac .sha1 keyK20 (serialize 0)) = 0xcc93cf18508d94934c64b65d8ba7667fb7cde4b0 ∧
  truncate (bufferOf 64 (beBytes 20 (0x1f8698690e02ca16618550ef7f19da8e945b555a : BitVec 160))) 20 = (0xA, 0x50EF7F19) ∧
  reduceBy 1357872921 6 = 872921

/-- R157: the hash inputs of one HMAC command, their lengths, and how many blocks each pads to. -/
def Obligations.HmacBlockCounts : Prop :=
  (∀ (h : HashAlg) (k c : List Byte), c.length = 8 →
    let b := blockLen h
    let n := if h = .sha512 then 16 else 8
    let inner := xorPad 0x36 (keyBlock h k) ++ c
    let outer := xorPad 0x5C (keyBlock h k) ++ hash h inner
    hmac h k c = hash h outer ∧ inner.length = b + 8 ∧ outer.length = b + dlen h ∧
    (blocksOf b (padMessage b n inner)).length = 2 ∧ (blocksOf b (padMessage b n outer)).length = 2) ∧
  ∀ k : List Byte, 65 ≤ k.length → k.length ≤ 128 →
    (blocksOf 64 (padMessage 64 8 k)).length = 2 ∨ (blocksOf 64 (padMessage 64 8 k)).length = 3

/-- R181: the window is inside the digest. The offset is the low nibble of byte l − 1, so at most 15, and beside that
byte no byte above byte 18 is read; so for every length of at least 19, and for all three digest lengths, only bytes below
the length are read; for SHA-1 an offset of 15 reads bytes 15 to 18, and byte 19 only for its low nibble; 16 bytes would
not suffice. -/
def Obligations.WindowIsInsideTheDigest : Prop :=
  (∀ (d : Vector Byte 64) (l : Nat),
    (truncate d l).1.toNat = (byteAt d (l - 1)).toNat % 16 ∧ (truncate d l).1.toNat + 3 ≤ 18) ∧
  (∀ (d d' : Vector Byte 64) (l : Nat), byteAt d (l - 1) = byteAt d' (l - 1) → (∀ i ≤ 18, byteAt d i = byteAt d' i) →
    truncate d l = truncate d' l) ∧
  (∀ (d d' : Vector Byte 64) (l : Nat), 19 ≤ l → (∀ i < l, byteAt d i = byteAt d' i) → truncate d l = truncate d' l) ∧
  (∀ h : HashAlg, 19 ≤ dlen h) ∧
  (∀ d d' : Vector Byte 64, (byteAt d 19).toNat % 16 = 15 → (byteAt d' 19).toNat % 16 = 15 →
    (∀ i, 15 ≤ i → i ≤ 18 → byteAt d i = byteAt d' i) → truncate d (dlen .sha1) = truncate d' (dlen .sha1)) ∧
  ∃ d d' : Vector Byte 64, (∀ i < 16, byteAt d i = byteAt d' i) ∧ truncate d 16 ≠ truncate d' 16

/-! ## The bus -/

/-- R23: the register map: which register is at each offset, and that the other offsets hold none. -/
def Obligations.RegisterMapFollowsItsTable : Prop :=
  regAt 0x000 = some .id ∧ regAt 0x004 = some .cap ∧ regAt 0x008 = some .cmd ∧ regAt 0x00C = some .status ∧
  regAt 0x010 = some .ctrl ∧ regAt 0x014 = some .irqEn ∧ regAt 0x018 = some .keylen ∧ regAt 0x01C = some .stepSecs ∧
  regAt 0x020 = some .timeHi ∧ regAt 0x024 = some .timeLo ∧ regAt 0x028 = some .t0Hi ∧ regAt 0x02C = some .t0Lo ∧
  regAt 0x030 = some .ctrHi ∧ regAt 0x034 = some .ctrLo ∧ regAt 0x038 = some .trunc ∧ regAt 0x03C = some .p ∧
  regAt 0x040 = some .otp ∧ (∀ j : Fin 32, regAt (BitVec.ofNat 9 (0x100 + 4 * j.val)) = some (.key j)) ∧
  (∀ j : Fin 16, regAt (BitVec.ofNat 9 (0x180 + 4 * j.val)) = some (.digest j)) ∧
  (∀ j : Fin 3, regAt (BitVec.ofNat 9 (0x1C0 + 4 * j.val)) = some (.code j)) ∧
  ∀ a : Offset, BadOffset a ↔ regAt a = none

/-- R62, R63, R65: a misaligned or reserved access has no effect, gets ERROR and data 0; every other access gets
OKAY. -/
def Obligations.BadOffsetsOnlyAnswerError : Prop :=
  ∀ (a : Offset) (v : Word) (s : State),
    (BadOffset a → busRead a s = (.error, 0) ∧ busWrite a v s = (.error, s)) ∧
    (¬ BadOffset a → (busRead a s).1 = .okay ∧ (busWrite a v s).1 = .okay)

/-- R64: a write to a read-only register while BUSY = 0 has no effect and gets OKAY; a read of a write-only register
returns 0. -/
def Obligations.ReadOnlyAndWriteOnlyRegisters : Prop :=
  (∀ (r : Reg) (v : Word) (s : State), readOnly r = true → isBusy s = false →
    busWrite (regOffset r) v s = (.okay, s)) ∧
  ∀ (s : State) (j : Fin 32),
    busRead 0x008 s = (.okay, 0) ∧ busRead (BitVec.ofNat 9 (0x100 + 4 * j.val)) s = (.okay, 0)

/-- R66: while BUSY = 1, a write to a mapped offset other than STATUS and IRQ_EN changes nothing but OVR, which it sets;
writes to STATUS and IRQ_EN take effect. -/
def Obligations.WritesWhileBusyAreDropped : Prop :=
  ∀ (a : Offset) (v : Word) (s : State), isBusy s = true → ¬ BadOffset a →
    (a ≠ 0x00C → a ≠ 0x014 → busWrite a v s = (.okay, { s with ovr := true })) ∧
    (a = 0x00C → busWrite a v s = (.okay, { s with
      done := if v.getLsbD 1 then false else s.done
      err := if v.getLsbD 2 then false else s.err
      errcode := if v.getLsbD 2 then 0 else s.errcode
      ovr := if v.getLsbD 3 then false else s.ovr })) ∧
    (a = 0x014 → busWrite a v s = (.okay, { s with doneIe := v.getLsbD 0 }))

/-- R67: a read is never blocked, and while BUSY = 1 it returns the committed value: the issue changes no read but that of
STATUS, and no later step that leaves the command pending changes any but those of STATUS and IRQ_EN. -/
def Obligations.ReadsWhileBusyAreCommitted : Prop :=
  (∀ (a : Offset) (w : Word) (s : State), isBusy s = false → a ≠ 0x00C →
    busRead a (busWrite 0x008 w s).2 = busRead a s) ∧
  (∀ (a : Offset) (s t : State), isBusy s = true → step s = .next t → isBusy t = true → a ≠ 0x00C → a ≠ 0x014 →
    busRead a t = busRead a s) ∧
  ∀ (a : Offset) (s : State), ¬ BadOffset a → ∃ v, busRead a s = (.okay, v)

/-- R27, R29 to R34, R68: a write to a read-write register stores the bits the register has and no others, and changes
the value of no other register, each word of a 64-bit pair on its own; the HI word of a pair holds bits 63:32, the LO
word bits 31:0. -/
def Obligations.InputRegistersStoreWhatIsWritten : Prop :=
  (∀ (s : State) (r : Reg) (v m : Word), storedBits r = some m → isBusy s = false →
    ∃ t, busWrite (regOffset r) v s = (.okay, t) ∧
      (∀ r' : Reg, readReg r' t = if r' = r then v &&& m else readReg r' s) ∧
      t.key = s.key ∧ t.pending = s.pending ∧ t.env = s.env) ∧
  ∀ s : State,
    busRead 0x020 s = (.okay, s.time.extractLsb' 32 32) ∧ busRead 0x024 s = (.okay, s.time.extractLsb' 0 32) ∧
    busRead 0x028 s = (.okay, s.t0.extractLsb' 32 32) ∧ busRead 0x02C s = (.okay, s.t0.extractLsb' 0 32) ∧
    busRead 0x030 s = (.okay, s.ctr.extractLsb' 32 32) ∧ busRead 0x034 s = (.okay, s.ctr.extractLsb' 0 32)

/-- R38, R69: a write of w to KEYj sets the four bytes 4j to 4j+3, w[31:24] first, and nothing else; DIGEST and CODE read
the same way. -/
def Obligations.BuffersArePackedBigEndian : Prop :=
  (∀ (s : State) (j : Fin 32) (w : Word), isBusy s = false →
    ∃ k, busWrite (BitVec.ofNat 9 (0x100 + 4 * j.val)) w s = (.okay, { s with key := k }) ∧
      byteAt k (4 * j.val) = w.extractLsb' 24 8 ∧ byteAt k (4 * j.val + 1) = w.extractLsb' 16 8 ∧
      byteAt k (4 * j.val + 2) = w.extractLsb' 8 8 ∧ byteAt k (4 * j.val + 3) = w.extractLsb' 0 8 ∧
      ∀ i, i / 4 ≠ j.val → byteAt k i = byteAt s.key i) ∧
  (∀ (s : State) (j : Fin 16), busRead (BitVec.ofNat 9 (0x180 + 4 * j.val)) s =
    (.okay, byteAt s.digest (4 * j.val) ++ byteAt s.digest (4 * j.val + 1) ++ byteAt s.digest (4 * j.val + 2)
      ++ byteAt s.digest (4 * j.val + 3))) ∧
  ∀ (s : State) (j : Fin 3), busRead (BitVec.ofNat 9 (0x1C0 + 4 * j.val)) s =
    (.okay, byteAt s.code (4 * j.val) ++ byteAt s.code (4 * j.val + 1) ++ byteAt s.code (4 * j.val + 2)
      ++ byteAt s.code (4 * j.val + 3))

/-- R28: the fields of STATUS, and its write-1-to-clear, honoured whether BUSY is 0 or 1. -/
def Obligations.StatusFieldsAndClears : Prop :=
  ∀ s : State,
    (∃ w, busRead 0x00C s = (.okay, w) ∧
      w.getLsbD 0 = isBusy s ∧ w.getLsbD 1 = s.done ∧ w.getLsbD 2 = s.err ∧ w.getLsbD 3 = s.ovr ∧
      w.getLsbD 4 = s.dv ∧ w.getLsbD 5 = s.pv ∧ w.getLsbD 6 = s.ov ∧ w.getLsbD 7 = s.cv ∧
      w.extractLsb' 8 4 = s.errcode ∧ w.extractLsb' 12 2 = dalgBits s.dalg ∧ w.extractLsb' 14 2 = 0 ∧
      w.extractLsb' 16 4 = s.odig ∧ w.extractLsb' 20 12 = 0) ∧
    ∀ v : Word, busWrite 0x00C v s = (.okay, { s with
      done := if v.getLsbD 1 then false else s.done
      err := if v.getLsbD 2 then false else s.err
      errcode := if v.getLsbD 2 then 0 else s.errcode
      ovr := if v.getLsbD 3 then false else s.ovr })

/-- R24, R25, R26, R35, R36, R37: what the constant, command and result registers read. -/
def Obligations.ResultRegistersRead : Prop :=
  ∀ s : State,
    busRead 0x000 s = (.okay, 0x544F5450) ∧ busRead 0x004 s = (.okay, 0x00800A07) ∧ busRead 0x008 s = (.okay, 0) ∧
    (∃ w, busRead 0x038 s = (.okay, w) ∧ w.toNat = s.truncOffset.toNat) ∧
    (∃ w, busRead 0x03C s = (.okay, w) ∧ w.toNat = s.p.toNat ∧ w.getLsbD 31 = false) ∧
    ∃ w, busRead 0x040 s = (.okay, w) ∧ w.toNat = s.otp.toNat ∧ w.getLsbD 31 = false

/-- R45: a HOST write to an input register or the KEY window changes no valid bit and no result. -/
def Obligations.InputWritesKeepTheStages : Prop :=
  ∀ (a : Offset) (v : Word) (s : State), a ≠ 0x008 → a ≠ 0x00C →
    ∃ t, (busWrite a v s).2 = t ∧
      t.dv = s.dv ∧ t.pv = s.pv ∧ t.ov = s.ov ∧ t.cv = s.cv ∧ t.digest = s.digest ∧ t.dalg = s.dalg ∧
      t.truncOffset = s.truncOffset ∧ t.p = s.p ∧ t.otp = s.otp ∧ t.odig = s.odig ∧ t.code = s.code ∧
      t.done = s.done ∧ t.err = s.err ∧ t.errcode = s.errcode ∧ t.pending = s.pending

/-- R61: the aperture is 0x200 bytes at BASE, 512-byte aligned; an access outside it does not reach the block; inside
it, the block sees the offset. -/
def Obligations.ApertureIsAtBase : Prop :=
  Config.base % 512 = 0 ∧
  (∀ (addr : Nat) (v : Word) (s : State), addr < Config.base ∨ Config.base + 0x200 ≤ addr →
    access (.read addr) s = s ∧ access (.write addr v) s = s) ∧
  ∀ (a : Offset) (v : Word) (s : State),
    access (.read (Config.base + a.toNat)) s = readAccess a s ∧
    access (.write (Config.base + a.toNat) v) s = writeAccess a v s

/-- R72: a read, as a step of a bus master, changes nothing of the block and records the port's answer (log 9), so a read
repeated gives the same; so does a write's answer. -/
def Obligations.ReadsHaveNoSideEffects : Prop :=
  ∀ (a b : Offset) (v : Word) (s : State),
    SameBlock s (readAccess a s) ∧ busRead b (readAccess a s) = busRead b s ∧
    (readAccess a s).env = { s.env with reply := some (.read (busRead a s).1 (busRead a s).2) } ∧
    SameBlock (busWrite a v s).2 (writeAccess a v s) ∧
    (writeAccess a v s).env = { s.env with reply := some (.write (busWrite a v s).1) }

/-! ## Reset -/

/-- R49, R280, R283: what reset leaves, register by register, as the HOST reads it and in State. -/
def Obligations.ResetValues : Prop :=
  busRead 0x000 State.reset = (.okay, 0x544F5450) ∧ busRead 0x004 State.reset = (.okay, 0x00800A07) ∧
  busRead 0x00C State.reset = (.okay, 0x00000000) ∧ busRead 0x010 State.reset = (.okay, 0x00000001) ∧
  busRead 0x014 State.reset = (.okay, 0x00000000) ∧ busRead 0x018 State.reset = (.okay, 0x00000000) ∧
  busRead 0x01C State.reset = (.okay, 0x0000001E) ∧
  (∀ j : Fin 9, busRead (BitVec.ofNat 9 (0x020 + 4 * j.val)) State.reset = (.okay, 0)) ∧
  (∀ j : Fin 19, busRead (BitVec.ofNat 9 (0x180 + 4 * j.val)) State.reset = (.okay, 0)) ∧
  (∀ i, byteAt State.reset.key i = 0) ∧ isBusy State.reset = false ∧ irq State.reset = false

/-- R280, R281, R282: the reset event gives every register its reset value and discards a pending command, which never
completes; while reset is asserted an access has no step. -/
def Obligations.ResetEventDiscardsThePendingCommand : Prop :=
  ∀ s : State,
    (∃ t, takeTurn .reset s = .next t ∧ SameBlock State.reset t ∧ t.pending = none ∧ t.done = false ∧
      t.env.inReset = true ∧ engineStep t = .next t) ∧
    (s.env.inReset = true →
      (∀ a, takeTurn (.bus a) s = .next s) ∧ (∀ a v, hostWrite a v s = s) ∧ ∀ r a, hostRead r a s = s)

/-! ## Invariants and progress -/

/-- R50 and the model's own invariants (its choices: logs 6 and 8) hold right after reset. -/
def Obligations.ResetIsGood : Prop := Inv State.reset

/-- Every step keeps the invariants of R50 and the model's own (its choices: logs 6 and 8), from every state that meets
them. -/
def Obligations.StepKeepsTheInvariants : Prop :=
  ∀ s t : State, Inv s → step s = .next t → Inv t

/-- The machine never stops unless the HOST's own program has a statement without a meaning (log 11): with a program
all of whose statements have one, every state has a next state, and the program stays so. -/
def Obligations.TheMachineNeverStops : Prop :=
  ∀ s : State, HostProgramOK s → ∃ t, step s = .next t ∧ HostProgramOK t

/-- Progress (R294), with the model's choice of how it comes about (logs 1 and 2: a finite schedule, then COMPLETE). From
every state with a pending command the schedule of any length runs out, and by then the command has completed (DONE) or
reset has discarded it: within the schedule's length and two steps more, a bound that is the model's and counts no bus
cycles. -/
def Obligations.PendingCommandsComplete : Prop :=
  ∀ s : State, HostProgramOK s → isBusy s = true →
    ∃ k t, k ≤ s.env.turns.length + 2 ∧ Host.Core.run Sys2Proof.core k s = .next t ∧ isBusy t = false ∧
      (t.done = true ∨ t.env.inReset = true)

/-! ## Rules about every step -/

/-- R78: while a command stays pending, no step changes the word or any register a command reads as an operand. -/
def Obligations.PendingOperandsAreStable : Prop :=
  ∀ s t : State, isBusy s = true → step s = .next t → isBusy t = true →
    t.pending = s.pending ∧ t.key = s.key ∧ t.keylen = s.keylen ∧ t.asciiOnly = s.asciiOnly ∧ t.ctr = s.ctr ∧
    t.time = s.time ∧ t.t0 = s.t0 ∧ t.stepSecs = s.stepSecs ∧ t.digest = s.digest ∧ t.dalg = s.dalg ∧
    t.truncOffset = s.truncOffset ∧ t.p = s.p ∧ t.otp = s.otp ∧ t.odig = s.odig ∧ t.code = s.code ∧
    t.dv = s.dv ∧ t.pv = s.pv ∧ t.ov = s.ov ∧ t.cv = s.cv

/-- R246: OVR is set by a step only by a write dropped under R66, and cleared only by a STATUS write with bit 3 = 1 or by
reset; the dropped write changes no ERR, ERRCODE or DONE. -/
def Obligations.OverrunIsSticky : Prop :=
  ∀ s t : State, step s = .next t →
    (s.ovr = true → t.ovr = false →
      (nextTurn s).1 = .reset ∨ ∃ v, turnWrite s = some (0x00C, v) ∧ v.getLsbD 3 = true) ∧
    (s.ovr = false → t.ovr = true →
      isBusy s = true ∧ ∃ a v, turnWrite s = some (a, v) ∧ ¬ BadOffset a ∧ a ≠ 0x00C ∧ a ≠ 0x014) ∧
    (isBusy s = true → ∀ a v, turnWrite s = some (a, v) → ¬ BadOffset a → a ≠ 0x00C → a ≠ 0x014 →
      SameBlock { s with ovr := true } t)

/-- R247: irq is the level DONE_IE ∧ DONE; COMPLETE raises it when DONE_IE = 1; setting DONE_IE while DONE = 1 raises it;
it rises nowhere else. -/
def Obligations.InterruptRisesOnlyAtDone : Prop :=
  (∀ s : State, irq s = (s.doneIe && s.done)) ∧
  (∀ s t : State, isBusy s = true → s.doneIe = true → engineStep s = .next t → irq t = true) ∧
  (∀ (s : State) (v : Word), s.done = true → irq (busWrite 0x014 v s).2 = v.getLsbD 0) ∧
  ∀ s t : State, step s = .next t → irq s = false → irq t = true →
    ((nextTurn s).1 = .engine ∧ isBusy s = true ∧ s.doneIe = true) ∨
    ∃ v, turnWrite s = some (0x014, v) ∧ v.getLsbD 0 = true ∧ s.done = true

/-- R248, R295: a STATUS write with bit 1 = 1, the issue of the next command and a write of DONE_IE = 0 each lower irq, the
last without clearing DONE; and irq falls in no other step but a reset. -/
def Obligations.InterruptFallsOnlyWhenCleared : Prop :=
  (∀ (s : State) (v : Word), v.getLsbD 1 = true → irq (busWrite 0x00C v s).2 = false) ∧
  (∀ (s : State) (w : Word), isBusy s = false → irq (busWrite 0x008 w s).2 = false) ∧
  (∀ (s : State) (v : Word), v.getLsbD 0 = false →
    irq (busWrite 0x014 v s).2 = false ∧ (busWrite 0x014 v s).2.done = s.done) ∧
  ∀ s t : State, step s = .next t → irq s = true → irq t = false →
    (nextTurn s).1 = .reset ∨ (∃ v, turnWrite s = some (0x00C, v) ∧ v.getLsbD 1 = true) ∨
    (∃ w, turnWrite s = some (0x008, w) ∧ isBusy s = false) ∨
    ∃ v, turnWrite s = some (0x014, v) ∧ v.getLsbD 0 = false

/-- R292 (with R38, R215, R280): the secret changes only by a write of the KEY window while BUSY = 0, by CLEAR, or by
reset. -/
def Obligations.SecretChangesOnlyByKeyWriteClearReset : Prop :=
  ∀ s t : State, step s = .next t → t.key ≠ s.key →
    (nextTurn s).1 = .reset ∨
    (isBusy s = false ∧ ∃ a v, turnWrite s = some (a, v) ∧ 0x100 ≤ a.toNat ∧ a.toNat < 0x180) ∨
    ∃ w, s.pending = some w ∧ (nextTurn s).1 = .engine ∧ decode w = .ok .clear

/-- R254: no read shows the secret, and no step but the completion of a keyed command lets it reach anything else: two
machines that differ only in KEY stay so, and answer every read alike. -/
def Obligations.SecretIsNotReadable : Prop :=
  (∀ (a : Offset) (s : State) (k : Vector Byte 128), busRead a { s with key := k } = busRead a s) ∧
  ∀ (s t : State) (k : Vector Byte 128), step s = .next t →
    (∀ w i, s.pending = some w → (nextTurn s).1 = .engine → decode w = .ok i → opCode i ∉ [3, 7, 8]) →
    ∃ k', step { s with key := k } = .next { t with key := k' }

/-! ## The HOST's program -/

/-- R102: what each statement does, when reset is not asserted. Which of several places a label by name is, how variables
are held, that the reply is recorded, and what a missing label does are the model's choices (logs 7, 8, 9, 11). -/
def Obligations.HostStatementsDoWhatTheirTableSays : Prop :=
  ∀ (s : State) (st : Stmt), s.env.script[s.env.pos]? = some st → s.env.inReset = false → VarsCanonical s →
    (∀ off v, st = .wr off v → WritesAndGoesOn off v s) ∧
    (∀ r off, st = .rd r off → ∃ t, hostStep s = .next t ∧ SameBlock s t ∧ readVar r t = (busRead off s).2 ∧
      (∀ q, q ≠ r → readVar q t = readVar q s) ∧
      t.env = { s.env with
        pos := s.env.pos + 1, vars := t.env.vars, reply := some (.read (busRead off s).1 (busRead off s).2) }) ∧
    (∀ c, st = .cmd c → c.assembles = true → WritesAndGoesOn 0x008 (encode c) s) ∧
    (∀ v, st = .word v → WritesAndGoesOn 0x008 v s) ∧
    (∀ off r, st = .wrr off r → WritesAndGoesOn off (readVar r s) s) ∧
    (∀ r v, st = .li r v → SetsVariable r v s) ∧
    (∀ r v, st = .addi r v → SetsVariable r (readVar r s + v) s) ∧
    (∀ r b l, st = .bset r b l → BranchesTo ((readVar r s).getLsbD b.val = true) l s) ∧
    (∀ r b l, st = .bclr r b l → BranchesTo ((readVar r s).getLsbD b.val = false) l s) ∧
    (∀ r v l, st = .bne r v l → BranchesTo (readVar r s ≠ v) l s) ∧
    (∀ l, st = .label l → hostStep s = .next (atPlace (s.env.pos + 1) s)) ∧
    (st = .halt → hostStep s = .next s)

/-- R103, R104: the pseudo-statements' expansions (a key string of at most 128 bytes, log 7), and the spec's examples. -/
def Obligations.PseudoStatementsExpand : Prop :=
  waitStmts = [.label 1, .rd 0 0x00C, .bset 0 0 (.back 1)] ∧
  (∀ v : DWord, time64Stmts v = [.wr 0x020 (v.extractLsb' 32 32), .wr 0x024 (v.extractLsb' 0 32)] ∧
    t064Stmts v = [.wr 0x028 (v.extractLsb' 32 32), .wr 0x02C (v.extractLsb' 0 32)] ∧
    ctr64Stmts v = [.wr 0x030 (v.extractLsb' 32 32), .wr 0x034 (v.extractLsb' 0 32)]) ∧
  ackStmts = [.wr 0x00C 0x0000000E] ∧ (∀ c, runCmdStmts c = [.cmd c] ++ waitStmts) ∧
  (∀ str : List Byte, str.length ≤ 128 →
    (keyStmts str).length = (str.length + 3) / 4 + 1 ∧
    (∀ j < (str.length + 3) / 4, (keyStmts str)[j]? = some (.wr (BitVec.ofNat 9 (0x100 + 4 * j))
      (str.getD (4 * j) 0 ++ str.getD (4 * j + 1) 0 ++ str.getD (4 * j + 2) 0 ++ str.getD (4 * j + 3) 0))) ∧
    (keyStmts str)[(str.length + 3) / 4]? = some (.wr 0x018 (BitVec.ofNat 32 str.length))) ∧
  keyStmts keyK20 =
    [.wr 0x100 0x31323334, .wr 0x104 0x35363738, .wr 0x108 0x39303132, .wr 0x10C 0x33343536, .wr 0x110 0x37383930,
      .wr 0x018 0x00000014] ∧
  time64Stmts 20000000000 = [.wr 0x020 0x00000004, .wr 0x024 0xA817C800] ∧ Illegal 0x00000009 ∧ Illegal 0x00000048
end

