-- ==== Sys2Proof/Laws/Bytes.lean ====
section
/-! SUPPORT. What byte strings, byte order and byte buffers satisfy (spec/20_memory.md R68, R69; spec/40_counter.md R111,
R114). -/

namespace Sys2Proof.Machine

@[simp] theorem beBytes_length (k : Nat) {w : Nat} (v : BitVec w) : (beBytes k v).length = k := by
  simp [beBytes]

/-- Byte i of a value written most significant byte first. -/
theorem beBytes_getElem (k : Nat) {w : Nat} (v : BitVec w) (i : Nat) (h : i < (beBytes k v).length) :
    (beBytes k v)[i] = v.extractLsb' (8 * (k - 1 - i)) 8 := by
  simp [beBytes]

/-- The first byte is the top one, and the rest are the bytes of the value without it. -/
theorem beBytes_succ (k : Nat) {w : Nat} (v : BitVec w) :
    beBytes (k + 1) v = v.extractLsb' (8 * k) 8 :: beBytes k v := by
  simp only [beBytes, List.range_succ_eq_map, List.map_cons, List.map_map]
  congr 1
  apply List.map_congr_left
  intro i _
  simp only [Function.comp_apply]
  congr 2
  omega

theorem foldl_be_acc (bs : List Byte) (acc : Nat) :
    bs.foldl (fun acc b => acc * 256 + b.toNat) acc = acc * 256 ^ bs.length + beNat bs := by
  induction bs generalizing acc with
  | nil => simp [beNat]
  | cons b bs ih =>
    simp only [beNat, List.foldl_cons, List.length_cons] at ih ⊢
    rw [ih, ih (0 * 256 + b.toNat), Nat.pow_succ]
    ring

theorem beNat_cons (b : Byte) (bs : List Byte) : beNat (b :: bs) = b.toNat * 256 ^ bs.length + beNat bs := by
  rw [beNat, List.foldl_cons, foldl_be_acc]
  simp

/-- Reading k bytes back gives the value modulo 2^(8k). -/
theorem beNat_beBytes (k : Nat) {w : Nat} (v : BitVec w) : beNat (beBytes k v) = v.toNat % 2 ^ (8 * k) := by
  induction k with
  | zero => simp [beBytes, beNat, Nat.mod_one]
  | succ k ih =>
    rw [beBytes_succ, beNat_cons, ih, beBytes_length, BitVec.extractLsb'_toNat, Nat.shiftRight_eq_div_pow]
    have h256 : (256 : Nat) ^ k = 2 ^ (8 * k) := by rw [Nat.pow_mul]
    rw [h256, show 8 * (k + 1) = 8 * k + 8 by ring, Nat.pow_add, Nat.mod_mul]
    ring

/-! ## Buffers -/

@[simp] theorem byteAt_eq_getElem {n : Nat} (b : Vector Byte n) (i : Nat) (h : i < n) : byteAt b i = b[i] := by
  simp [byteAt, List.getD_eq_getElem?_getD, h]

theorem byteAt_of_le {n : Nat} (b : Vector Byte n) (i : Nat) (h : n ≤ i) : byteAt b i = 0 := by
  simp [byteAt, List.getD_eq_getElem?_getD, Nat.not_lt.mpr h]

/-- Two buffers with the same bytes are the same. -/
theorem buffer_ext {n : Nat} {a b : Vector Byte n} (h : ∀ i < n, byteAt a i = byteAt b i) : a = b := by
  apply Vector.ext
  intro i hi
  simpa [hi] using h i hi

@[simp] theorem byteAt_replicate_zero (n i : Nat) : byteAt (Vector.replicate n 0#8) i = 0#8 := by
  by_cases h : i < n
  · simp [h]
  · exact byteAt_of_le _ _ (by omega)

theorem byteAt_bufferOf (n : Nat) (bs : List Byte) (i : Nat) (h : i < n) : byteAt (bufferOf n bs) i = bs.getD i 0 := by
  simp [bufferOf, h]

/-- A buffer that holds a byte string not longer than it is the string and then zeros. -/
theorem bufferOf_toList (n : Nat) (bs : List Byte) (h : bs.length ≤ n) :
    (bufferOf n bs).toList = bs ++ List.replicate (n - bs.length) 0 := by
  apply List.ext_getElem
  · simp; omega
  · intro i h1 h2
    simp only [Vector.length_toList] at h1
    have e : (bufferOf n bs).toList[i]'(by simpa using h1) = byteAt (bufferOf n bs) i := by simp [h1]
    rw [e, byteAt_bufferOf n bs i h1, List.getD_eq_getElem?_getD]
    by_cases hi : i < bs.length
    · simp [hi, List.getElem_append_left]
    · simp [hi, List.getElem_append_right, Nat.not_lt.mp hi]

/-- A word written into a buffer sets its four bytes and no other (R38, R69). -/
theorem byteAt_setWordAt {n : Nat} (b : Vector Byte n) (j : Nat) (w : Word) (i : Nat) (h : i < n) :
    byteAt (setWordAt b j w) i = if i / 4 = j then wordByte w (i % 4) else byteAt b i := by
  simp [setWordAt, h]

/-! ## The two words of a 64-bit register -/

theorem getLsbD_wordPair (x y : Word) (i : Nat) :
    BitVec.getLsbD (w := 64) (x ++ y) i = if i < 32 then y.getLsbD i else x.getLsbD (i - 32) :=
  BitVec.getLsbD_append

@[simp] theorem hiWord_wordPair (x y : Word) : hiWord (x ++ y) = x := by
  apply BitVec.eq_of_getLsbD_eq
  intro i hi
  rw [hiWord, BitVec.getLsbD_extractLsb', getLsbD_wordPair]
  simp [hi]

@[simp] theorem loWord_wordPair (x y : Word) : loWord (x ++ y) = y := by
  apply BitVec.eq_of_getLsbD_eq
  intro i hi
  rw [loWord, BitVec.getLsbD_extractLsb', getLsbD_wordPair]
  simp [hi]

@[simp] theorem hiWord_setHiWord (x : DWord) (v : Word) : hiWord (setHiWord x v) = v := by simp [setHiWord]

@[simp] theorem loWord_setHiWord (x : DWord) (v : Word) : loWord (setHiWord x v) = loWord x := by simp [setHiWord]

@[simp] theorem hiWord_setLoWord (x : DWord) (v : Word) : hiWord (setLoWord x v) = hiWord x := by simp [setLoWord]

@[simp] theorem loWord_setLoWord (x : DWord) (v : Word) : loWord (setLoWord x v) = v := by simp [setLoWord]

end Sys2Proof.Machine
end

