-- ==== Sys2Proof/Laws/State.lean ====
section
/-! SUPPORT. One lemma per field per update of State, so that no later proof unfolds a record update: what each shared
update sets, and every field it leaves. -/

namespace Sys2Proof.Machine

/-! ## Issue (R210) -/

@[simp] theorem issue_pending (s : State) (w : Word) : (issue w s).pending = some w := rfl
@[simp] theorem issue_done (s : State) (w : Word) : (issue w s).done = false := rfl
@[simp] theorem issue_err (s : State) (w : Word) : (issue w s).err = false := rfl
@[simp] theorem issue_ovr (s : State) (w : Word) : (issue w s).ovr = s.ovr := rfl
@[simp] theorem issue_dv (s : State) (w : Word) : (issue w s).dv = s.dv := rfl
@[simp] theorem issue_pv (s : State) (w : Word) : (issue w s).pv = s.pv := rfl
@[simp] theorem issue_ov (s : State) (w : Word) : (issue w s).ov = s.ov := rfl
@[simp] theorem issue_cv (s : State) (w : Word) : (issue w s).cv = s.cv := rfl
@[simp] theorem issue_errcode (s : State) (w : Word) : (issue w s).errcode = 0 := rfl
@[simp] theorem issue_dalg (s : State) (w : Word) : (issue w s).dalg = s.dalg := rfl
@[simp] theorem issue_odig (s : State) (w : Word) : (issue w s).odig = s.odig := rfl
@[simp] theorem issue_asciiOnly (s : State) (w : Word) : (issue w s).asciiOnly = s.asciiOnly := rfl
@[simp] theorem issue_doneIe (s : State) (w : Word) : (issue w s).doneIe = s.doneIe := rfl
@[simp] theorem issue_keylen (s : State) (w : Word) : (issue w s).keylen = s.keylen := rfl
@[simp] theorem issue_stepSecs (s : State) (w : Word) : (issue w s).stepSecs = s.stepSecs := rfl
@[simp] theorem issue_time (s : State) (w : Word) : (issue w s).time = s.time := rfl
@[simp] theorem issue_t0 (s : State) (w : Word) : (issue w s).t0 = s.t0 := rfl
@[simp] theorem issue_ctr (s : State) (w : Word) : (issue w s).ctr = s.ctr := rfl
@[simp] theorem issue_truncOffset (s : State) (w : Word) : (issue w s).truncOffset = s.truncOffset := rfl
@[simp] theorem issue_p (s : State) (w : Word) : (issue w s).p = s.p := rfl
@[simp] theorem issue_otp (s : State) (w : Word) : (issue w s).otp = s.otp := rfl
@[simp] theorem issue_key (s : State) (w : Word) : (issue w s).key = s.key := rfl
@[simp] theorem issue_digest (s : State) (w : Word) : (issue w s).digest = s.digest := rfl
@[simp] theorem issue_code (s : State) (w : Word) : (issue w s).code = s.code := rfl
@[simp] theorem issue_env (s : State) (w : Word) : (issue w s).env = s.env := rfl

/-! ## Successful completion (R244) -/

@[simp] theorem finishOk_pending (s : State) : (finishOk s).pending = none := rfl
@[simp] theorem finishOk_done (s : State) : (finishOk s).done = true := rfl
@[simp] theorem finishOk_err (s : State) : (finishOk s).err = s.err := rfl
@[simp] theorem finishOk_ovr (s : State) : (finishOk s).ovr = s.ovr := rfl
@[simp] theorem finishOk_dv (s : State) : (finishOk s).dv = s.dv := rfl
@[simp] theorem finishOk_pv (s : State) : (finishOk s).pv = s.pv := rfl
@[simp] theorem finishOk_ov (s : State) : (finishOk s).ov = s.ov := rfl
@[simp] theorem finishOk_cv (s : State) : (finishOk s).cv = s.cv := rfl
@[simp] theorem finishOk_errcode (s : State) : (finishOk s).errcode = s.errcode := rfl
@[simp] theorem finishOk_dalg (s : State) : (finishOk s).dalg = s.dalg := rfl
@[simp] theorem finishOk_odig (s : State) : (finishOk s).odig = s.odig := rfl
@[simp] theorem finishOk_asciiOnly (s : State) : (finishOk s).asciiOnly = s.asciiOnly := rfl
@[simp] theorem finishOk_doneIe (s : State) : (finishOk s).doneIe = s.doneIe := rfl
@[simp] theorem finishOk_keylen (s : State) : (finishOk s).keylen = s.keylen := rfl
@[simp] theorem finishOk_stepSecs (s : State) : (finishOk s).stepSecs = s.stepSecs := rfl
@[simp] theorem finishOk_time (s : State) : (finishOk s).time = s.time := rfl
@[simp] theorem finishOk_t0 (s : State) : (finishOk s).t0 = s.t0 := rfl
@[simp] theorem finishOk_ctr (s : State) : (finishOk s).ctr = s.ctr := rfl
@[simp] theorem finishOk_truncOffset (s : State) : (finishOk s).truncOffset = s.truncOffset := rfl
@[simp] theorem finishOk_p (s : State) : (finishOk s).p = s.p := rfl
@[simp] theorem finishOk_otp (s : State) : (finishOk s).otp = s.otp := rfl
@[simp] theorem finishOk_key (s : State) : (finishOk s).key = s.key := rfl
@[simp] theorem finishOk_digest (s : State) : (finishOk s).digest = s.digest := rfl
@[simp] theorem finishOk_code (s : State) : (finishOk s).code = s.code := rfl
@[simp] theorem finishOk_env (s : State) : (finishOk s).env = s.env := rfl

/-! ## Error completion (R243) -/

@[simp] theorem finishErr_pending (s : State) (c : ErrorCode) : (finishErr c s).pending = none := rfl
@[simp] theorem finishErr_done (s : State) (c : ErrorCode) : (finishErr c s).done = true := rfl
@[simp] theorem finishErr_err (s : State) (c : ErrorCode) : (finishErr c s).err = true := rfl
@[simp] theorem finishErr_ovr (s : State) (c : ErrorCode) : (finishErr c s).ovr = s.ovr := rfl
@[simp] theorem finishErr_dv (s : State) (c : ErrorCode) : (finishErr c s).dv = s.dv := rfl
@[simp] theorem finishErr_pv (s : State) (c : ErrorCode) : (finishErr c s).pv = s.pv := rfl
@[simp] theorem finishErr_ov (s : State) (c : ErrorCode) : (finishErr c s).ov = s.ov := rfl
@[simp] theorem finishErr_cv (s : State) (c : ErrorCode) : (finishErr c s).cv = s.cv := rfl
@[simp] theorem finishErr_errcode (s : State) (c : ErrorCode) : (finishErr c s).errcode = errBits c := rfl
@[simp] theorem finishErr_dalg (s : State) (c : ErrorCode) : (finishErr c s).dalg = s.dalg := rfl
@[simp] theorem finishErr_odig (s : State) (c : ErrorCode) : (finishErr c s).odig = s.odig := rfl
@[simp] theorem finishErr_asciiOnly (s : State) (c : ErrorCode) : (finishErr c s).asciiOnly = s.asciiOnly := rfl
@[simp] theorem finishErr_doneIe (s : State) (c : ErrorCode) : (finishErr c s).doneIe = s.doneIe := rfl
@[simp] theorem finishErr_keylen (s : State) (c : ErrorCode) : (finishErr c s).keylen = s.keylen := rfl
@[simp] theorem finishErr_stepSecs (s : State) (c : ErrorCode) : (finishErr c s).stepSecs = s.stepSecs := rfl
@[simp] theorem finishErr_time (s : State) (c : ErrorCode) : (finishErr c s).time = s.time := rfl
@[simp] theorem finishErr_t0 (s : State) (c : ErrorCode) : (finishErr c s).t0 = s.t0 := rfl
@[simp] theorem finishErr_ctr (s : State) (c : ErrorCode) : (finishErr c s).ctr = s.ctr := rfl
@[simp] theorem finishErr_truncOffset (s : State) (c : ErrorCode) : (finishErr c s).truncOffset = s.truncOffset := rfl
@[simp] theorem finishErr_p (s : State) (c : ErrorCode) : (finishErr c s).p = s.p := rfl
@[simp] theorem finishErr_otp (s : State) (c : ErrorCode) : (finishErr c s).otp = s.otp := rfl
@[simp] theorem finishErr_key (s : State) (c : ErrorCode) : (finishErr c s).key = s.key := rfl
@[simp] theorem finishErr_digest (s : State) (c : ErrorCode) : (finishErr c s).digest = s.digest := rfl
@[simp] theorem finishErr_code (s : State) (c : ErrorCode) : (finishErr c s).code = s.code := rfl
@[simp] theorem finishErr_env (s : State) (c : ErrorCode) : (finishErr c s).env = s.env := rfl

/-! ## A write of STATUS (R28) -/

@[simp] theorem writeStatus_pending (s : State) (v : Word) : (writeStatus v s).pending = s.pending := rfl
@[simp] theorem writeStatus_done (s : State) (v : Word) : (writeStatus v s).done = (s.done && !v.getLsbD 1) := rfl
@[simp] theorem writeStatus_err (s : State) (v : Word) : (writeStatus v s).err = (s.err && !v.getLsbD 2) := rfl
@[simp] theorem writeStatus_ovr (s : State) (v : Word) : (writeStatus v s).ovr = (s.ovr && !v.getLsbD 3) := rfl
@[simp] theorem writeStatus_dv (s : State) (v : Word) : (writeStatus v s).dv = s.dv := rfl
@[simp] theorem writeStatus_pv (s : State) (v : Word) : (writeStatus v s).pv = s.pv := rfl
@[simp] theorem writeStatus_ov (s : State) (v : Word) : (writeStatus v s).ov = s.ov := rfl
@[simp] theorem writeStatus_cv (s : State) (v : Word) : (writeStatus v s).cv = s.cv := rfl
@[simp] theorem writeStatus_errcode (s : State) (v : Word) : (writeStatus v s).errcode = if v.getLsbD 2 then 0 else s.errcode := rfl
@[simp] theorem writeStatus_dalg (s : State) (v : Word) : (writeStatus v s).dalg = s.dalg := rfl
@[simp] theorem writeStatus_odig (s : State) (v : Word) : (writeStatus v s).odig = s.odig := rfl
@[simp] theorem writeStatus_asciiOnly (s : State) (v : Word) : (writeStatus v s).asciiOnly = s.asciiOnly := rfl
@[simp] theorem writeStatus_doneIe (s : State) (v : Word) : (writeStatus v s).doneIe = s.doneIe := rfl
@[simp] theorem writeStatus_keylen (s : State) (v : Word) : (writeStatus v s).keylen = s.keylen := rfl
@[simp] theorem writeStatus_stepSecs (s : State) (v : Word) : (writeStatus v s).stepSecs = s.stepSecs := rfl
@[simp] theorem writeStatus_time (s : State) (v : Word) : (writeStatus v s).time = s.time := rfl
@[simp] theorem writeStatus_t0 (s : State) (v : Word) : (writeStatus v s).t0 = s.t0 := rfl
@[simp] theorem writeStatus_ctr (s : State) (v : Word) : (writeStatus v s).ctr = s.ctr := rfl
@[simp] theorem writeStatus_truncOffset (s : State) (v : Word) : (writeStatus v s).truncOffset = s.truncOffset := rfl
@[simp] theorem writeStatus_p (s : State) (v : Word) : (writeStatus v s).p = s.p := rfl
@[simp] theorem writeStatus_otp (s : State) (v : Word) : (writeStatus v s).otp = s.otp := rfl
@[simp] theorem writeStatus_key (s : State) (v : Word) : (writeStatus v s).key = s.key := rfl
@[simp] theorem writeStatus_digest (s : State) (v : Word) : (writeStatus v s).digest = s.digest := rfl
@[simp] theorem writeStatus_code (s : State) (v : Word) : (writeStatus v s).code = s.code := rfl
@[simp] theorem writeStatus_env (s : State) (v : Word) : (writeStatus v s).env = s.env := rfl

/-! ## markDigest (R44) -/

@[simp] theorem markDigest_pending (s : State) : (markDigest s).pending = s.pending := rfl
@[simp] theorem markDigest_done (s : State) : (markDigest s).done = s.done := rfl
@[simp] theorem markDigest_err (s : State) : (markDigest s).err = s.err := rfl
@[simp] theorem markDigest_ovr (s : State) : (markDigest s).ovr = s.ovr := rfl
@[simp] theorem markDigest_dv (s : State) : (markDigest s).dv = true := rfl
@[simp] theorem markDigest_pv (s : State) : (markDigest s).pv = false := rfl
@[simp] theorem markDigest_ov (s : State) : (markDigest s).ov = false := rfl
@[simp] theorem markDigest_cv (s : State) : (markDigest s).cv = false := rfl
@[simp] theorem markDigest_errcode (s : State) : (markDigest s).errcode = s.errcode := rfl
@[simp] theorem markDigest_dalg (s : State) : (markDigest s).dalg = s.dalg := rfl
@[simp] theorem markDigest_odig (s : State) : (markDigest s).odig = s.odig := rfl
@[simp] theorem markDigest_asciiOnly (s : State) : (markDigest s).asciiOnly = s.asciiOnly := rfl
@[simp] theorem markDigest_doneIe (s : State) : (markDigest s).doneIe = s.doneIe := rfl
@[simp] theorem markDigest_keylen (s : State) : (markDigest s).keylen = s.keylen := rfl
@[simp] theorem markDigest_stepSecs (s : State) : (markDigest s).stepSecs = s.stepSecs := rfl
@[simp] theorem markDigest_time (s : State) : (markDigest s).time = s.time := rfl
@[simp] theorem markDigest_t0 (s : State) : (markDigest s).t0 = s.t0 := rfl
@[simp] theorem markDigest_ctr (s : State) : (markDigest s).ctr = s.ctr := rfl
@[simp] theorem markDigest_truncOffset (s : State) : (markDigest s).truncOffset = s.truncOffset := rfl
@[simp] theorem markDigest_p (s : State) : (markDigest s).p = s.p := rfl
@[simp] theorem markDigest_otp (s : State) : (markDigest s).otp = s.otp := rfl
@[simp] theorem markDigest_key (s : State) : (markDigest s).key = s.key := rfl
@[simp] theorem markDigest_digest (s : State) : (markDigest s).digest = s.digest := rfl
@[simp] theorem markDigest_code (s : State) : (markDigest s).code = s.code := rfl
@[simp] theorem markDigest_env (s : State) : (markDigest s).env = s.env := rfl

/-! ## markTrunc (R44) -/

@[simp] theorem markTrunc_pending (s : State) : (markTrunc s).pending = s.pending := rfl
@[simp] theorem markTrunc_done (s : State) : (markTrunc s).done = s.done := rfl
@[simp] theorem markTrunc_err (s : State) : (markTrunc s).err = s.err := rfl
@[simp] theorem markTrunc_ovr (s : State) : (markTrunc s).ovr = s.ovr := rfl
@[simp] theorem markTrunc_dv (s : State) : (markTrunc s).dv = s.dv := rfl
@[simp] theorem markTrunc_pv (s : State) : (markTrunc s).pv = true := rfl
@[simp] theorem markTrunc_ov (s : State) : (markTrunc s).ov = false := rfl
@[simp] theorem markTrunc_cv (s : State) : (markTrunc s).cv = false := rfl
@[simp] theorem markTrunc_errcode (s : State) : (markTrunc s).errcode = s.errcode := rfl
@[simp] theorem markTrunc_dalg (s : State) : (markTrunc s).dalg = s.dalg := rfl
@[simp] theorem markTrunc_odig (s : State) : (markTrunc s).odig = s.odig := rfl
@[simp] theorem markTrunc_asciiOnly (s : State) : (markTrunc s).asciiOnly = s.asciiOnly := rfl
@[simp] theorem markTrunc_doneIe (s : State) : (markTrunc s).doneIe = s.doneIe := rfl
@[simp] theorem markTrunc_keylen (s : State) : (markTrunc s).keylen = s.keylen := rfl
@[simp] theorem markTrunc_stepSecs (s : State) : (markTrunc s).stepSecs = s.stepSecs := rfl
@[simp] theorem markTrunc_time (s : State) : (markTrunc s).time = s.time := rfl
@[simp] theorem markTrunc_t0 (s : State) : (markTrunc s).t0 = s.t0 := rfl
@[simp] theorem markTrunc_ctr (s : State) : (markTrunc s).ctr = s.ctr := rfl
@[simp] theorem markTrunc_truncOffset (s : State) : (markTrunc s).truncOffset = s.truncOffset := rfl
@[simp] theorem markTrunc_p (s : State) : (markTrunc s).p = s.p := rfl
@[simp] theorem markTrunc_otp (s : State) : (markTrunc s).otp = s.otp := rfl
@[simp] theorem markTrunc_key (s : State) : (markTrunc s).key = s.key := rfl
@[simp] theorem markTrunc_digest (s : State) : (markTrunc s).digest = s.digest := rfl
@[simp] theorem markTrunc_code (s : State) : (markTrunc s).code = s.code := rfl
@[simp] theorem markTrunc_env (s : State) : (markTrunc s).env = s.env := rfl

/-! ## markOtp (R44) -/

@[simp] theorem markOtp_pending (s : State) : (markOtp s).pending = s.pending := rfl
@[simp] theorem markOtp_done (s : State) : (markOtp s).done = s.done := rfl
@[simp] theorem markOtp_err (s : State) : (markOtp s).err = s.err := rfl
@[simp] theorem markOtp_ovr (s : State) : (markOtp s).ovr = s.ovr := rfl
@[simp] theorem markOtp_dv (s : State) : (markOtp s).dv = s.dv := rfl
@[simp] theorem markOtp_pv (s : State) : (markOtp s).pv = s.pv := rfl
@[simp] theorem markOtp_ov (s : State) : (markOtp s).ov = true := rfl
@[simp] theorem markOtp_cv (s : State) : (markOtp s).cv = false := rfl
@[simp] theorem markOtp_errcode (s : State) : (markOtp s).errcode = s.errcode := rfl
@[simp] theorem markOtp_dalg (s : State) : (markOtp s).dalg = s.dalg := rfl
@[simp] theorem markOtp_odig (s : State) : (markOtp s).odig = s.odig := rfl
@[simp] theorem markOtp_asciiOnly (s : State) : (markOtp s).asciiOnly = s.asciiOnly := rfl
@[simp] theorem markOtp_doneIe (s : State) : (markOtp s).doneIe = s.doneIe := rfl
@[simp] theorem markOtp_keylen (s : State) : (markOtp s).keylen = s.keylen := rfl
@[simp] theorem markOtp_stepSecs (s : State) : (markOtp s).stepSecs = s.stepSecs := rfl
@[simp] theorem markOtp_time (s : State) : (markOtp s).time = s.time := rfl
@[simp] theorem markOtp_t0 (s : State) : (markOtp s).t0 = s.t0 := rfl
@[simp] theorem markOtp_ctr (s : State) : (markOtp s).ctr = s.ctr := rfl
@[simp] theorem markOtp_truncOffset (s : State) : (markOtp s).truncOffset = s.truncOffset := rfl
@[simp] theorem markOtp_p (s : State) : (markOtp s).p = s.p := rfl
@[simp] theorem markOtp_otp (s : State) : (markOtp s).otp = s.otp := rfl
@[simp] theorem markOtp_key (s : State) : (markOtp s).key = s.key := rfl
@[simp] theorem markOtp_digest (s : State) : (markOtp s).digest = s.digest := rfl
@[simp] theorem markOtp_code (s : State) : (markOtp s).code = s.code := rfl
@[simp] theorem markOtp_env (s : State) : (markOtp s).env = s.env := rfl

/-! ## markCode (R44) -/

@[simp] theorem markCode_pending (s : State) : (markCode s).pending = s.pending := rfl
@[simp] theorem markCode_done (s : State) : (markCode s).done = s.done := rfl
@[simp] theorem markCode_err (s : State) : (markCode s).err = s.err := rfl
@[simp] theorem markCode_ovr (s : State) : (markCode s).ovr = s.ovr := rfl
@[simp] theorem markCode_dv (s : State) : (markCode s).dv = s.dv := rfl
@[simp] theorem markCode_pv (s : State) : (markCode s).pv = s.pv := rfl
@[simp] theorem markCode_ov (s : State) : (markCode s).ov = s.ov := rfl
@[simp] theorem markCode_cv (s : State) : (markCode s).cv = true := rfl
@[simp] theorem markCode_errcode (s : State) : (markCode s).errcode = s.errcode := rfl
@[simp] theorem markCode_dalg (s : State) : (markCode s).dalg = s.dalg := rfl
@[simp] theorem markCode_odig (s : State) : (markCode s).odig = s.odig := rfl
@[simp] theorem markCode_asciiOnly (s : State) : (markCode s).asciiOnly = s.asciiOnly := rfl
@[simp] theorem markCode_doneIe (s : State) : (markCode s).doneIe = s.doneIe := rfl
@[simp] theorem markCode_keylen (s : State) : (markCode s).keylen = s.keylen := rfl
@[simp] theorem markCode_stepSecs (s : State) : (markCode s).stepSecs = s.stepSecs := rfl
@[simp] theorem markCode_time (s : State) : (markCode s).time = s.time := rfl
@[simp] theorem markCode_t0 (s : State) : (markCode s).t0 = s.t0 := rfl
@[simp] theorem markCode_ctr (s : State) : (markCode s).ctr = s.ctr := rfl
@[simp] theorem markCode_truncOffset (s : State) : (markCode s).truncOffset = s.truncOffset := rfl
@[simp] theorem markCode_p (s : State) : (markCode s).p = s.p := rfl
@[simp] theorem markCode_otp (s : State) : (markCode s).otp = s.otp := rfl
@[simp] theorem markCode_key (s : State) : (markCode s).key = s.key := rfl
@[simp] theorem markCode_digest (s : State) : (markCode s).digest = s.digest := rfl
@[simp] theorem markCode_code (s : State) : (markCode s).code = s.code := rfl
@[simp] theorem markCode_env (s : State) : (markCode s).env = s.env := rfl

/-! ## markAll (R44) -/

@[simp] theorem markAll_pending (s : State) : (markAll s).pending = s.pending := rfl
@[simp] theorem markAll_done (s : State) : (markAll s).done = s.done := rfl
@[simp] theorem markAll_err (s : State) : (markAll s).err = s.err := rfl
@[simp] theorem markAll_ovr (s : State) : (markAll s).ovr = s.ovr := rfl
@[simp] theorem markAll_dv (s : State) : (markAll s).dv = true := rfl
@[simp] theorem markAll_pv (s : State) : (markAll s).pv = true := rfl
@[simp] theorem markAll_ov (s : State) : (markAll s).ov = true := rfl
@[simp] theorem markAll_cv (s : State) : (markAll s).cv = true := rfl
@[simp] theorem markAll_errcode (s : State) : (markAll s).errcode = s.errcode := rfl
@[simp] theorem markAll_dalg (s : State) : (markAll s).dalg = s.dalg := rfl
@[simp] theorem markAll_odig (s : State) : (markAll s).odig = s.odig := rfl
@[simp] theorem markAll_asciiOnly (s : State) : (markAll s).asciiOnly = s.asciiOnly := rfl
@[simp] theorem markAll_doneIe (s : State) : (markAll s).doneIe = s.doneIe := rfl
@[simp] theorem markAll_keylen (s : State) : (markAll s).keylen = s.keylen := rfl
@[simp] theorem markAll_stepSecs (s : State) : (markAll s).stepSecs = s.stepSecs := rfl
@[simp] theorem markAll_time (s : State) : (markAll s).time = s.time := rfl
@[simp] theorem markAll_t0 (s : State) : (markAll s).t0 = s.t0 := rfl
@[simp] theorem markAll_ctr (s : State) : (markAll s).ctr = s.ctr := rfl
@[simp] theorem markAll_truncOffset (s : State) : (markAll s).truncOffset = s.truncOffset := rfl
@[simp] theorem markAll_p (s : State) : (markAll s).p = s.p := rfl
@[simp] theorem markAll_otp (s : State) : (markAll s).otp = s.otp := rfl
@[simp] theorem markAll_key (s : State) : (markAll s).key = s.key := rfl
@[simp] theorem markAll_digest (s : State) : (markAll s).digest = s.digest := rfl
@[simp] theorem markAll_code (s : State) : (markAll s).code = s.code := rfl
@[simp] theorem markAll_env (s : State) : (markAll s).env = s.env := rfl

/-! ## markNone (R44) -/

@[simp] theorem markNone_pending (s : State) : (markNone s).pending = s.pending := rfl
@[simp] theorem markNone_done (s : State) : (markNone s).done = s.done := rfl
@[simp] theorem markNone_err (s : State) : (markNone s).err = s.err := rfl
@[simp] theorem markNone_ovr (s : State) : (markNone s).ovr = s.ovr := rfl
@[simp] theorem markNone_dv (s : State) : (markNone s).dv = false := rfl
@[simp] theorem markNone_pv (s : State) : (markNone s).pv = false := rfl
@[simp] theorem markNone_ov (s : State) : (markNone s).ov = false := rfl
@[simp] theorem markNone_cv (s : State) : (markNone s).cv = false := rfl
@[simp] theorem markNone_errcode (s : State) : (markNone s).errcode = s.errcode := rfl
@[simp] theorem markNone_dalg (s : State) : (markNone s).dalg = s.dalg := rfl
@[simp] theorem markNone_odig (s : State) : (markNone s).odig = s.odig := rfl
@[simp] theorem markNone_asciiOnly (s : State) : (markNone s).asciiOnly = s.asciiOnly := rfl
@[simp] theorem markNone_doneIe (s : State) : (markNone s).doneIe = s.doneIe := rfl
@[simp] theorem markNone_keylen (s : State) : (markNone s).keylen = s.keylen := rfl
@[simp] theorem markNone_stepSecs (s : State) : (markNone s).stepSecs = s.stepSecs := rfl
@[simp] theorem markNone_time (s : State) : (markNone s).time = s.time := rfl
@[simp] theorem markNone_t0 (s : State) : (markNone s).t0 = s.t0 := rfl
@[simp] theorem markNone_ctr (s : State) : (markNone s).ctr = s.ctr := rfl
@[simp] theorem markNone_truncOffset (s : State) : (markNone s).truncOffset = s.truncOffset := rfl
@[simp] theorem markNone_p (s : State) : (markNone s).p = s.p := rfl
@[simp] theorem markNone_otp (s : State) : (markNone s).otp = s.otp := rfl
@[simp] theorem markNone_key (s : State) : (markNone s).key = s.key := rfl
@[simp] theorem markNone_digest (s : State) : (markNone s).digest = s.digest := rfl
@[simp] theorem markNone_code (s : State) : (markNone s).code = s.code := rfl
@[simp] theorem markNone_env (s : State) : (markNone s).env = s.env := rfl

/-! ## The HOST goes on -/

@[simp] theorem advance_pending (s : State) : (advance s).pending = s.pending := rfl
@[simp] theorem advance_done (s : State) : (advance s).done = s.done := rfl
@[simp] theorem advance_err (s : State) : (advance s).err = s.err := rfl
@[simp] theorem advance_ovr (s : State) : (advance s).ovr = s.ovr := rfl
@[simp] theorem advance_dv (s : State) : (advance s).dv = s.dv := rfl
@[simp] theorem advance_pv (s : State) : (advance s).pv = s.pv := rfl
@[simp] theorem advance_ov (s : State) : (advance s).ov = s.ov := rfl
@[simp] theorem advance_cv (s : State) : (advance s).cv = s.cv := rfl
@[simp] theorem advance_errcode (s : State) : (advance s).errcode = s.errcode := rfl
@[simp] theorem advance_dalg (s : State) : (advance s).dalg = s.dalg := rfl
@[simp] theorem advance_odig (s : State) : (advance s).odig = s.odig := rfl
@[simp] theorem advance_asciiOnly (s : State) : (advance s).asciiOnly = s.asciiOnly := rfl
@[simp] theorem advance_doneIe (s : State) : (advance s).doneIe = s.doneIe := rfl
@[simp] theorem advance_keylen (s : State) : (advance s).keylen = s.keylen := rfl
@[simp] theorem advance_stepSecs (s : State) : (advance s).stepSecs = s.stepSecs := rfl
@[simp] theorem advance_time (s : State) : (advance s).time = s.time := rfl
@[simp] theorem advance_t0 (s : State) : (advance s).t0 = s.t0 := rfl
@[simp] theorem advance_ctr (s : State) : (advance s).ctr = s.ctr := rfl
@[simp] theorem advance_truncOffset (s : State) : (advance s).truncOffset = s.truncOffset := rfl
@[simp] theorem advance_p (s : State) : (advance s).p = s.p := rfl
@[simp] theorem advance_otp (s : State) : (advance s).otp = s.otp := rfl
@[simp] theorem advance_key (s : State) : (advance s).key = s.key := rfl
@[simp] theorem advance_digest (s : State) : (advance s).digest = s.digest := rfl
@[simp] theorem advance_code (s : State) : (advance s).code = s.code := rfl
@[simp] theorem advance_env_inReset (s : State) : (advance s).env.inReset = s.env.inReset := rfl
@[simp] theorem advance_env_turns (s : State) : (advance s).env.turns = s.env.turns := rfl
@[simp] theorem advance_env_script (s : State) : (advance s).env.script = s.env.script := rfl
@[simp] theorem advance_env_pos (s : State) : (advance s).env.pos = s.env.pos + 1 := rfl
@[simp] theorem advance_env_vars (s : State) : (advance s).env.vars = s.env.vars := rfl
@[simp] theorem advance_env_reply (s : State) : (advance s).env.reply = s.env.reply := rfl

/-! ## A host variable is written (R102) -/

@[simp] theorem writeVar_pending (s : State) (r : Nat) (v : Word) : (writeVar r v s).pending = s.pending := rfl
@[simp] theorem writeVar_done (s : State) (r : Nat) (v : Word) : (writeVar r v s).done = s.done := rfl
@[simp] theorem writeVar_err (s : State) (r : Nat) (v : Word) : (writeVar r v s).err = s.err := rfl
@[simp] theorem writeVar_ovr (s : State) (r : Nat) (v : Word) : (writeVar r v s).ovr = s.ovr := rfl
@[simp] theorem writeVar_dv (s : State) (r : Nat) (v : Word) : (writeVar r v s).dv = s.dv := rfl
@[simp] theorem writeVar_pv (s : State) (r : Nat) (v : Word) : (writeVar r v s).pv = s.pv := rfl
@[simp] theorem writeVar_ov (s : State) (r : Nat) (v : Word) : (writeVar r v s).ov = s.ov := rfl
@[simp] theorem writeVar_cv (s : State) (r : Nat) (v : Word) : (writeVar r v s).cv = s.cv := rfl
@[simp] theorem writeVar_errcode (s : State) (r : Nat) (v : Word) : (writeVar r v s).errcode = s.errcode := rfl
@[simp] theorem writeVar_dalg (s : State) (r : Nat) (v : Word) : (writeVar r v s).dalg = s.dalg := rfl
@[simp] theorem writeVar_odig (s : State) (r : Nat) (v : Word) : (writeVar r v s).odig = s.odig := rfl
@[simp] theorem writeVar_asciiOnly (s : State) (r : Nat) (v : Word) : (writeVar r v s).asciiOnly = s.asciiOnly := rfl
@[simp] theorem writeVar_doneIe (s : State) (r : Nat) (v : Word) : (writeVar r v s).doneIe = s.doneIe := rfl
@[simp] theorem writeVar_keylen (s : State) (r : Nat) (v : Word) : (writeVar r v s).keylen = s.keylen := rfl
@[simp] theorem writeVar_stepSecs (s : State) (r : Nat) (v : Word) : (writeVar r v s).stepSecs = s.stepSecs := rfl
@[simp] theorem writeVar_time (s : State) (r : Nat) (v : Word) : (writeVar r v s).time = s.time := rfl
@[simp] theorem writeVar_t0 (s : State) (r : Nat) (v : Word) : (writeVar r v s).t0 = s.t0 := rfl
@[simp] theorem writeVar_ctr (s : State) (r : Nat) (v : Word) : (writeVar r v s).ctr = s.ctr := rfl
@[simp] theorem writeVar_truncOffset (s : State) (r : Nat) (v : Word) : (writeVar r v s).truncOffset = s.truncOffset := rfl
@[simp] theorem writeVar_p (s : State) (r : Nat) (v : Word) : (writeVar r v s).p = s.p := rfl
@[simp] theorem writeVar_otp (s : State) (r : Nat) (v : Word) : (writeVar r v s).otp = s.otp := rfl
@[simp] theorem writeVar_key (s : State) (r : Nat) (v : Word) : (writeVar r v s).key = s.key := rfl
@[simp] theorem writeVar_digest (s : State) (r : Nat) (v : Word) : (writeVar r v s).digest = s.digest := rfl
@[simp] theorem writeVar_code (s : State) (r : Nat) (v : Word) : (writeVar r v s).code = s.code := rfl
@[simp] theorem writeVar_env_inReset (s : State) (r : Nat) (v : Word) : (writeVar r v s).env.inReset = s.env.inReset := rfl
@[simp] theorem writeVar_env_turns (s : State) (r : Nat) (v : Word) : (writeVar r v s).env.turns = s.env.turns := rfl
@[simp] theorem writeVar_env_script (s : State) (r : Nat) (v : Word) : (writeVar r v s).env.script = s.env.script := rfl
@[simp] theorem writeVar_env_pos (s : State) (r : Nat) (v : Word) : (writeVar r v s).env.pos = s.env.pos := rfl
@[simp] theorem writeVar_env_vars (s : State) (r : Nat) (v : Word) : (writeVar r v s).env.vars = setVarIn s.env.vars r v := rfl
@[simp] theorem writeVar_env_reply (s : State) (r : Nat) (v : Word) : (writeVar r v s).env.reply = s.env.reply := rfl

/-! ## A read is answered (R60, R72) -/

@[simp] theorem readAccess_pending (s : State) (a : Offset) : (readAccess a s).pending = s.pending := rfl
@[simp] theorem readAccess_done (s : State) (a : Offset) : (readAccess a s).done = s.done := rfl
@[simp] theorem readAccess_err (s : State) (a : Offset) : (readAccess a s).err = s.err := rfl
@[simp] theorem readAccess_ovr (s : State) (a : Offset) : (readAccess a s).ovr = s.ovr := rfl
@[simp] theorem readAccess_dv (s : State) (a : Offset) : (readAccess a s).dv = s.dv := rfl
@[simp] theorem readAccess_pv (s : State) (a : Offset) : (readAccess a s).pv = s.pv := rfl
@[simp] theorem readAccess_ov (s : State) (a : Offset) : (readAccess a s).ov = s.ov := rfl
@[simp] theorem readAccess_cv (s : State) (a : Offset) : (readAccess a s).cv = s.cv := rfl
@[simp] theorem readAccess_errcode (s : State) (a : Offset) : (readAccess a s).errcode = s.errcode := rfl
@[simp] theorem readAccess_dalg (s : State) (a : Offset) : (readAccess a s).dalg = s.dalg := rfl
@[simp] theorem readAccess_odig (s : State) (a : Offset) : (readAccess a s).odig = s.odig := rfl
@[simp] theorem readAccess_asciiOnly (s : State) (a : Offset) : (readAccess a s).asciiOnly = s.asciiOnly := rfl
@[simp] theorem readAccess_doneIe (s : State) (a : Offset) : (readAccess a s).doneIe = s.doneIe := rfl
@[simp] theorem readAccess_keylen (s : State) (a : Offset) : (readAccess a s).keylen = s.keylen := rfl
@[simp] theorem readAccess_stepSecs (s : State) (a : Offset) : (readAccess a s).stepSecs = s.stepSecs := rfl
@[simp] theorem readAccess_time (s : State) (a : Offset) : (readAccess a s).time = s.time := rfl
@[simp] theorem readAccess_t0 (s : State) (a : Offset) : (readAccess a s).t0 = s.t0 := rfl
@[simp] theorem readAccess_ctr (s : State) (a : Offset) : (readAccess a s).ctr = s.ctr := rfl
@[simp] theorem readAccess_truncOffset (s : State) (a : Offset) : (readAccess a s).truncOffset = s.truncOffset := rfl
@[simp] theorem readAccess_p (s : State) (a : Offset) : (readAccess a s).p = s.p := rfl
@[simp] theorem readAccess_otp (s : State) (a : Offset) : (readAccess a s).otp = s.otp := rfl
@[simp] theorem readAccess_key (s : State) (a : Offset) : (readAccess a s).key = s.key := rfl
@[simp] theorem readAccess_digest (s : State) (a : Offset) : (readAccess a s).digest = s.digest := rfl
@[simp] theorem readAccess_code (s : State) (a : Offset) : (readAccess a s).code = s.code := rfl
@[simp] theorem readAccess_env_inReset (s : State) (a : Offset) : (readAccess a s).env.inReset = s.env.inReset := rfl
@[simp] theorem readAccess_env_turns (s : State) (a : Offset) : (readAccess a s).env.turns = s.env.turns := rfl
@[simp] theorem readAccess_env_script (s : State) (a : Offset) : (readAccess a s).env.script = s.env.script := rfl
@[simp] theorem readAccess_env_pos (s : State) (a : Offset) : (readAccess a s).env.pos = s.env.pos := rfl
@[simp] theorem readAccess_env_vars (s : State) (a : Offset) : (readAccess a s).env.vars = s.env.vars := rfl
@[simp] theorem readAccess_env_reply (s : State) (a : Offset) : (readAccess a s).env.reply = some (.read (busRead a s).1 (busRead a s).2) := rfl

/-! ## The schedule moves on -/

@[simp] theorem turnState_pending (s : State) : (turnState s).pending = s.pending := rfl
@[simp] theorem turnState_done (s : State) : (turnState s).done = s.done := rfl
@[simp] theorem turnState_err (s : State) : (turnState s).err = s.err := rfl
@[simp] theorem turnState_ovr (s : State) : (turnState s).ovr = s.ovr := rfl
@[simp] theorem turnState_dv (s : State) : (turnState s).dv = s.dv := rfl
@[simp] theorem turnState_pv (s : State) : (turnState s).pv = s.pv := rfl
@[simp] theorem turnState_ov (s : State) : (turnState s).ov = s.ov := rfl
@[simp] theorem turnState_cv (s : State) : (turnState s).cv = s.cv := rfl
@[simp] theorem turnState_errcode (s : State) : (turnState s).errcode = s.errcode := rfl
@[simp] theorem turnState_dalg (s : State) : (turnState s).dalg = s.dalg := rfl
@[simp] theorem turnState_odig (s : State) : (turnState s).odig = s.odig := rfl
@[simp] theorem turnState_asciiOnly (s : State) : (turnState s).asciiOnly = s.asciiOnly := rfl
@[simp] theorem turnState_doneIe (s : State) : (turnState s).doneIe = s.doneIe := rfl
@[simp] theorem turnState_keylen (s : State) : (turnState s).keylen = s.keylen := rfl
@[simp] theorem turnState_stepSecs (s : State) : (turnState s).stepSecs = s.stepSecs := rfl
@[simp] theorem turnState_time (s : State) : (turnState s).time = s.time := rfl
@[simp] theorem turnState_t0 (s : State) : (turnState s).t0 = s.t0 := rfl
@[simp] theorem turnState_ctr (s : State) : (turnState s).ctr = s.ctr := rfl
@[simp] theorem turnState_truncOffset (s : State) : (turnState s).truncOffset = s.truncOffset := rfl
@[simp] theorem turnState_p (s : State) : (turnState s).p = s.p := rfl
@[simp] theorem turnState_otp (s : State) : (turnState s).otp = s.otp := rfl
@[simp] theorem turnState_key (s : State) : (turnState s).key = s.key := rfl
@[simp] theorem turnState_digest (s : State) : (turnState s).digest = s.digest := rfl
@[simp] theorem turnState_code (s : State) : (turnState s).code = s.code := rfl
@[simp] theorem turnState_env_inReset (s : State) : (turnState s).env.inReset = s.env.inReset := rfl
@[simp] theorem turnState_env_turns (s : State) : (turnState s).env.turns = (nextTurn s).2 := rfl
@[simp] theorem turnState_env_script (s : State) : (turnState s).env.script = s.env.script := rfl
@[simp] theorem turnState_env_pos (s : State) : (turnState s).env.pos = s.env.pos := rfl
@[simp] theorem turnState_env_vars (s : State) : (turnState s).env.vars = s.env.vars := rfl
@[simp] theorem turnState_env_reply (s : State) : (turnState s).env.reply = s.env.reply := rfl

/-! ## Reset is released -/

@[simp] theorem releaseReset_pending (s : State) : (releaseReset s).pending = s.pending := rfl
@[simp] theorem releaseReset_done (s : State) : (releaseReset s).done = s.done := rfl
@[simp] theorem releaseReset_err (s : State) : (releaseReset s).err = s.err := rfl
@[simp] theorem releaseReset_ovr (s : State) : (releaseReset s).ovr = s.ovr := rfl
@[simp] theorem releaseReset_dv (s : State) : (releaseReset s).dv = s.dv := rfl
@[simp] theorem releaseReset_pv (s : State) : (releaseReset s).pv = s.pv := rfl
@[simp] theorem releaseReset_ov (s : State) : (releaseReset s).ov = s.ov := rfl
@[simp] theorem releaseReset_cv (s : State) : (releaseReset s).cv = s.cv := rfl
@[simp] theorem releaseReset_errcode (s : State) : (releaseReset s).errcode = s.errcode := rfl
@[simp] theorem releaseReset_dalg (s : State) : (releaseReset s).dalg = s.dalg := rfl
@[simp] theorem releaseReset_odig (s : State) : (releaseReset s).odig = s.odig := rfl
@[simp] theorem releaseReset_asciiOnly (s : State) : (releaseReset s).asciiOnly = s.asciiOnly := rfl
@[simp] theorem releaseReset_doneIe (s : State) : (releaseReset s).doneIe = s.doneIe := rfl
@[simp] theorem releaseReset_keylen (s : State) : (releaseReset s).keylen = s.keylen := rfl
@[simp] theorem releaseReset_stepSecs (s : State) : (releaseReset s).stepSecs = s.stepSecs := rfl
@[simp] theorem releaseReset_time (s : State) : (releaseReset s).time = s.time := rfl
@[simp] theorem releaseReset_t0 (s : State) : (releaseReset s).t0 = s.t0 := rfl
@[simp] theorem releaseReset_ctr (s : State) : (releaseReset s).ctr = s.ctr := rfl
@[simp] theorem releaseReset_truncOffset (s : State) : (releaseReset s).truncOffset = s.truncOffset := rfl
@[simp] theorem releaseReset_p (s : State) : (releaseReset s).p = s.p := rfl
@[simp] theorem releaseReset_otp (s : State) : (releaseReset s).otp = s.otp := rfl
@[simp] theorem releaseReset_key (s : State) : (releaseReset s).key = s.key := rfl
@[simp] theorem releaseReset_digest (s : State) : (releaseReset s).digest = s.digest := rfl
@[simp] theorem releaseReset_code (s : State) : (releaseReset s).code = s.code := rfl
@[simp] theorem releaseReset_env_inReset (s : State) : (releaseReset s).env.inReset = false := rfl
@[simp] theorem releaseReset_env_turns (s : State) : (releaseReset s).env.turns = s.env.turns := rfl
@[simp] theorem releaseReset_env_script (s : State) : (releaseReset s).env.script = s.env.script := rfl
@[simp] theorem releaseReset_env_pos (s : State) : (releaseReset s).env.pos = s.env.pos := rfl
@[simp] theorem releaseReset_env_vars (s : State) : (releaseReset s).env.vars = s.env.vars := rfl
@[simp] theorem releaseReset_env_reply (s : State) : (releaseReset s).env.reply = s.env.reply := rfl

end Sys2Proof.Machine
end

