-- ==== Sys2Proof/Laws/Bus.lean ====
section
/-! SUPPORT. The register map and what a bus write can change (spec/10_state.md R23; spec/20_memory.md R62 to R69). -/

namespace Sys2Proof.Machine

/-! ## The map (R23) -/

theorem regAt_regOffset (r : Reg) : regAt (regOffset r) = some r := by
  cases r with
  | key j => revert j; decide
  | digest j => revert j; decide
  | code j => revert j; decide
  | _ => rfl

theorem regOffset_of_regAt (a : Offset) (r : Reg) (h : regAt a = some r) : regOffset r = a := by
  have key : ∀ a : BitVec 9, ∀ r, regAt a = some r → regOffset r = a := by
    intro a
    have h : ∀ n : Fin 512, (regAt (BitVec.ofFin n)).all (fun r => decide (regOffset r = BitVec.ofFin n)) = true := by
      decide +kernel
    intro r hr
    have := h a.toFin
    rw [show BitVec.ofFin a.toFin = a from rfl, hr] at this
    simpa using this
  exact key a r h

/-- An offset is mapped unless it is misaligned or reserved (R62, R63). -/
theorem regAt_eq_none_iff (a : Offset) :
    regAt a = none ↔ a.toNat % 4 ≠ 0 ∨ (0x044 ≤ a.toNat ∧ a.toNat ≤ 0x0FF) ∨ 0x1CC ≤ a.toNat := by
  have h : ∀ n : Fin 512, (regAt (BitVec.ofFin n) = none ↔
      n.val % 4 ≠ 0 ∨ (0x044 ≤ n.val ∧ n.val ≤ 0x0FF) ∨ 0x1CC ≤ n.val) := by decide +kernel
  exact h a.toFin

/-! ## What an access does -/

/-- A write of a mapped register, told apart by BUSY (R66). -/
theorem busWrite_of_reg {a : Offset} {r : Reg} (h : regAt a = some r) (v : Word) (s : State) :
    busWrite a v s =
      if isBusy s = true ∧ honouredWhileBusy r = false then (.okay, { s with ovr := true })
      else (.okay, writeReg r v s) := by
  simp [busWrite, h]

/-- What a write can do, once: nothing (a bad offset), be dropped with OVR set, or write its register. -/
theorem busWrite_cases (a : Offset) (v : Word) (s : State) :
    (regAt a = none ∧ (busWrite a v s).2 = s) ∨
    (∃ r, regAt a = some r ∧ isBusy s = true ∧ honouredWhileBusy r = false ∧
      (busWrite a v s).2 = { s with ovr := true }) ∨
    ∃ r, regAt a = some r ∧ (isBusy s = false ∨ honouredWhileBusy r = true) ∧ (busWrite a v s).2 = writeReg r v s := by
  cases h : regAt a with
  | none => exact .inl ⟨rfl, by simp [busWrite, h]⟩
  | some r =>
    refine .inr ?_
    rw [busWrite_of_reg h]
    split
    · next hb => exact .inl ⟨r, rfl, hb.1, hb.2, rfl⟩
    · next hb =>
      refine .inr ⟨r, rfl, ?_, rfl⟩
      cases hbz : isBusy s <;> cases hr : honouredWhileBusy r <;> simp_all

/-- No write changes the world outside the block. -/
@[simp] theorem writeReg_env (r : Reg) (v : Word) (s : State) : (writeReg r v s).env = s.env := by
  cases r <;> simp [writeReg]

@[simp] theorem busWrite_env (a : Offset) (v : Word) (s : State) : (busWrite a v s).2.env = s.env := by
  rcases busWrite_cases a v s with ⟨_, h⟩ | ⟨r, _, _, _, h⟩ | ⟨r, _, _, h⟩ <;> rw [h]
  simp

/-- A write as an access: the block of busWrite, the world with the reply. -/
theorem writeAccess_eq (a : Offset) (v : Word) (s : State) :
    writeAccess a v s =
      { (busWrite a v s).2 with env := { s.env with reply := some (.write (busWrite a v s).1) } } := rfl

/-- Reading never depends on the world outside the block. -/
@[simp] theorem readReg_with_env (r : Reg) (s : State) (e : Env) : readReg r { s with env := e } = readReg r s := by
  cases r <;> simp [readReg, statusWord, isBusy]

@[simp] theorem busRead_with_env (a : Offset) (s : State) (e : Env) : busRead a { s with env := e } = busRead a s := by
  simp [busRead]

/-- A write's effect on the block does not depend on the world outside it. -/
theorem writeReg_with_env (r : Reg) (v : Word) (s : State) (e : Env) :
    writeReg r v { s with env := e } = { writeReg r v s with env := e } := by
  cases r <;> simp [writeReg, issue, writeStatus]

theorem busWrite_with_env (a : Offset) (v : Word) (s : State) (e : Env) :
    (busWrite a v { s with env := e }).2 = { (busWrite a v s).2 with env := e } := by
  cases h : regAt a with
  | none => simp [busWrite, h]
  | some r =>
    rw [busWrite_of_reg h, busWrite_of_reg h]
    by_cases hc : isBusy s = true ∧ honouredWhileBusy r = false
    · have hc' : isBusy { s with env := e } = true ∧ honouredWhileBusy r = false := hc
      rw [if_pos hc, if_pos hc']
    · have hc' : ¬ (isBusy { s with env := e } = true ∧ honouredWhileBusy r = false) := hc
      rw [if_neg hc, if_neg hc']
      exact writeReg_with_env r v s e

end Sys2Proof.Machine
end

