-- ==== Sys2Proof/Laws/Hash.lean ====
section
/-! SUPPORT. What the hash functions and HMAC satisfy whatever the message: padding, schedules, lengths (spec/41_hmac.md
R130 to R132, R137, R143, R149, R152, R153). -/

namespace Sys2Proof.Machine

/-! ## Padding (R131, R132) -/

theorem zeroPad_spec (b k n : Nat) (hk : 1 ≤ k) (hkb : k ≤ b) :
    (n + 1 + zeroPad b k n) % b = (b - k) % b ∧ zeroPad b k n < b := by
  have hb : 0 < b := by omega
  have hn := Nat.mod_lt n hb
  refine ⟨?_, Nat.mod_lt _ hb⟩
  unfold zeroPad
  rw [Nat.add_mod, Nat.mod_mod, ← Nat.add_mod]
  have e : n + 1 + (b - k + (b - 1) - n % b) = (b - k) + b * (n / b + 1) := by
    have h1 := Nat.div_add_mod n b
    have h2 : b * (n / b + 1) = b * (n / b) + b := by ring
    omega
  rw [e, Nat.add_mul_mod_self_left]

theorem padMessage_length (b k : Nat) (m : List Byte) :
    (padMessage b k m).length = m.length + 1 + zeroPad b k m.length + k := by
  simp [padMessage]; omega

theorem padMessage_length_mod (b k : Nat) (m : List Byte) (hk : 1 ≤ k) (hkb : k ≤ b) :
    (padMessage b k m).length % b = 0 := by
  have h := (zeroPad_spec b k m.length hk hkb).1
  rw [padMessage_length, Nat.add_mod, h, ← Nat.add_mod, Nat.sub_add_cancel hkb, Nat.mod_self]

/-! ## Blocks -/

theorem blocksOf_length (b : Nat) (m : List Byte) : (blocksOf b m).length = m.length / b := by
  simp [blocksOf]

theorem flatten_chunks (b n : Nat) (m : List Byte) :
    ((List.range n).map fun i => (m.drop (b * i)).take b).flatten = m.take (b * n) := by
  induction n with
  | zero => simp
  | succ n ih =>
    rw [List.range_succ, List.map_append, List.flatten_append, ih, Nat.mul_succ, List.take_add]
    simp

theorem blocksOf_flatten (b : Nat) (m : List Byte) (h : m.length % b = 0) : (blocksOf b m).flatten = m := by
  rw [blocksOf, flatten_chunks, Nat.mul_div_cancel' (Nat.dvd_of_mod_eq_zero h), List.take_length]

theorem length_of_mem_blocksOf (b : Nat) (m x : List Byte) (hx : x ∈ blocksOf b m) : x.length = b := by
  simp only [blocksOf, List.mem_map, List.mem_range] at hx
  obtain ⟨i, hi, rfl⟩ := hx
  have h1 : b * (i + 1) ≤ m.length :=
    le_trans (Nat.mul_le_mul_left b hi) (Nat.mul_div_le m.length b)
  rw [Nat.mul_succ] at h1
  simp
  omega

/-! ## Schedules (R137, R143, R149) -/

theorem scheduleRev_length {w : Nat} (next : List (BitVec w) → BitVec w) (n : Nat) (r : List (BitVec w)) :
    (scheduleRev next n r).length = n + r.length := by
  induction n generalizing r with
  | zero => simp [scheduleRev]
  | succ n ih => rw [scheduleRev, ih, List.length_cons]; omega

/-- The words so far stay, at the end of the longer list. -/
theorem scheduleRev_drop {w : Nat} (next : List (BitVec w) → BitVec w) (n : Nat) (r : List (BitVec w)) :
    (scheduleRev next n r).drop n = r := by
  induction n generalizing r with
  | zero => simp [scheduleRev]
  | succ n ih =>
    rw [scheduleRev]
    rw [← List.tail_drop, ih]
    rfl

/-- Every word after the first is next of the words before it. -/
theorem scheduleRev_head {w : Nat} (next : List (BitVec w) → BitVec w) (n : Nat) (r : List (BitVec w)) (j : Nat)
    (hj : j < n) :
    (scheduleRev next n r).drop j = next ((scheduleRev next n r).drop (j + 1)) :: (scheduleRev next n r).drop (j + 1) := by
  induction n generalizing r with
  | zero => omega
  | succ n ih =>
    rw [scheduleRev]
    by_cases h : j < n
    · exact ih _ h
    · have e : j = n := by omega
      subst e
      have hd := scheduleRev_drop next j (next r :: r)
      have ht : (scheduleRev next j (next r :: r)).drop (j + 1) = r := by
        rw [← List.tail_drop, hd]; rfl
      rw [hd, ht]

theorem getD_reverse {w : Nat} (l : List (BitVec w)) (t : Nat) (h : t < l.length) :
    l.reverse.getD t 0 = l.getD (l.length - 1 - t) 0 := by
  simp [List.getD_eq_getElem?_getD, List.getElem?_reverse h]

theorem schedule_length {w : Nat} (next : List (BitVec w) → BitVec w) (n : Nat) (m : List (BitVec w)) :
    (schedule next n m).length = n + m.length := by
  simp [schedule, scheduleRev_length]

theorem getD_drop {w : Nat} (l : List (BitVec w)) (a j : Nat) : (l.drop a).getD j 0 = l.getD (a + j) 0 := by
  simp [List.getD_eq_getElem?_getD]

/-- The first words of the schedule are the block's. -/
theorem schedule_start {w : Nat} (next : List (BitVec w) → BitVec w) (n : Nat) (m : List (BitVec w)) (t : Nat)
    (ht : t < m.length) : (schedule next n m).getD t 0 = m.getD t 0 := by
  rw [schedule, getD_reverse _ _ (by rw [scheduleRev_length]; simp; omega), scheduleRev_length, List.length_reverse]
  have hd := scheduleRev_drop next n m.reverse
  have e : n + m.length - 1 - t = n + (m.length - 1 - t) := by omega
  rw [e, ← getD_drop, hd, getD_reverse _ _ (by omega)]
  congr 1
  omega

/-- The words before word t, newest first. -/
def wordsBefore {w : Nat} (next : List (BitVec w) → BitVec w) (n : Nat) (m : List (BitVec w)) (t : Nat) :
    List (BitVec w) :=
  (scheduleRev next n m.reverse).drop (n + m.length - t)

theorem wordsBefore_getD {w : Nat} (next : List (BitVec w) → BitVec w) (n : Nat) (m : List (BitVec w)) (t j : Nat)
    (ht : t ≤ n + m.length) (hj : j < t) :
    (wordsBefore next n m t).getD j 0 = (schedule next n m).getD (t - 1 - j) 0 := by
  rw [wordsBefore, getD_drop, schedule, getD_reverse _ _ (by rw [scheduleRev_length]; simp; omega), scheduleRev_length,
    List.length_reverse]
  congr 1
  omega

/-- Every later word of the schedule is next of the words before it. -/
theorem schedule_next {w : Nat} (next : List (BitVec w) → BitVec w) (n : Nat) (m : List (BitVec w)) (t : Nat)
    (h1 : m.length ≤ t) (h2 : t < n + m.length) :
    (schedule next n m).getD t 0 = next (wordsBefore next n m t) := by
  rw [schedule, getD_reverse _ _ (by rw [scheduleRev_length]; simp; omega), scheduleRev_length, List.length_reverse]
  have h := scheduleRev_head next n m.reverse (n + m.length - 1 - t) (by omega)
  have e0 := getD_drop (scheduleRev next n m.reverse) (n + m.length - 1 - t) 0
  rw [Nat.add_zero] at e0
  rw [← e0, h, wordsBefore, show n + m.length - 1 - t + 1 = n + m.length - t by omega]
  rfl

/-! ## Lengths (R130, R152, R153) -/

@[simp] theorem hash_length (h : HashAlg) (m : List Byte) : (hash h m).length = dlen h := by
  cases h <;> simp [hash, sha1, sha256, sha512, sha2Output, dlen]

theorem dlen_le_blockLen (h : HashAlg) : dlen h ≤ blockLen h := by cases h <;> decide

theorem dlen_le_64 (h : HashAlg) : dlen h ≤ 64 := by cases h <;> decide

theorem shortKey_length (h : HashAlg) (k : List Byte) : (shortKey h k).length ≤ blockLen h := by
  unfold shortKey
  split
  · assumption
  · simpa using dlen_le_blockLen h

@[simp] theorem keyBlock_length (h : HashAlg) (k : List Byte) : (keyBlock h k).length = blockLen h := by
  have := shortKey_length h k
  simp [keyBlock]; omega

@[simp] theorem hmac_length (h : HashAlg) (k m : List Byte) : (hmac h k m).length = dlen h := by
  simp [hmac]

/-- A key longer than a block has the key block of its hash (R152, R156). -/
theorem keyBlock_hash (h : HashAlg) (k : List Byte) (hk : blockLen h < k.length) :
    keyBlock h (hash h k) = keyBlock h k := by
  have e : shortKey h (hash h k) = shortKey h k := by
    simp [shortKey, dlen_le_blockLen h, Nat.not_le.mpr hk]
  simp [keyBlock, e]

/-- A key of exactly one block is its own key block (R152). -/
theorem keyBlock_of_full (h : HashAlg) (k : List Byte) (hk : k.length = blockLen h) : keyBlock h k = k := by
  simp [keyBlock, shortKey, hk]

end Sys2Proof.Machine
end

