-- ==== Sys2Proof/Laws/Ops.lean ====
section
/-! SUPPORT. What the shared operations of the commands do, said once: KeyCheck, DeriveT, Truncate, Reduce, Format, and
the one shape every command has (spec/44_sequence.md R211, R213). -/

namespace Sys2Proof.Machine

/-! ## Every command is a result and its completion -/

/-- Exec(cmd, s): the result a command completes with (R211). -/
def commandResult : Instr → State → Except ErrorCode State
  | .nop, s => nopResult s
  | .clear, s => clearResult s
  | .derive, s => deriveResult s
  | .hmac a, s => hmacResult a s
  | .trunc, s => truncResult s
  | .reduce d, s => reduceResult d s
  | .format, s => formatResult s
  | .hotp a d, s => hotpResult a d s
  | .totp a d, s => totpResult a d s

theorem exec_eq_complete (i : Instr) (s : State) : exec i s = complete s (commandResult i s) := by
  cases i <;> rfl

theorem complete_ok (s u : State) : complete s (.ok u) = .next (finishOk u) := rfl

theorem complete_error (s : State) (c : ErrorCode) : complete s (.error c) = .next (finishErr c s) := rfl

/-- The two ways a command completes (R243, R244). -/
theorem exec_cases {i : Instr} {s t : State} (h : exec i s = .next t) :
    (∃ u, commandResult i s = .ok u ∧ t = finishOk u) ∨
    ∃ c, commandResult i s = .error c ∧ t = finishErr c s := by
  rw [exec_eq_complete] at h
  cases hr : commandResult i s with
  | ok u => rw [hr, complete_ok] at h; cases h; exact .inl ⟨u, rfl, rfl⟩
  | error c => rw [hr, complete_error] at h; cases h; exact .inr ⟨c, rfl, rfl⟩

theorem exec_of_ok {i : Instr} {s u : State} (h : commandResult i s = .ok u) : exec i s = .next (finishOk u) := by
  rw [exec_eq_complete, h, complete_ok]

theorem exec_of_error {i : Instr} {s : State} {c : ErrorCode} (h : commandResult i s = .error c) :
    exec i s = .next (finishErr c s) := by
  rw [exec_eq_complete, h, complete_error]

/-! ## The checks -/

theorem digitsOK_iff (d : Nat) : digitsOK d = true ↔ 1 ≤ d ∧ d ≤ 10 := by simp [digitsOK]

theorem keyLengthOK_iff (s : State) : keyLengthOK s = true ↔ 1 ≤ s.keylen.toNat ∧ s.keylen.toNat ≤ 128 := by
  simp [keyLengthOK]; omega

/-- Some key byte below KEYLEN is ≥ 0x80, byte by byte (R155). -/
theorem keyHasNonAscii_iff (s : State) (hlen : s.keylen.toNat ≤ 128) :
    keyHasNonAscii s = true ↔ ∃ i < s.keylen.toNat, 0x80 ≤ (byteAt s.key i).toNat := by
  simp only [keyHasNonAscii, keyBytes, List.any_eq_true, decide_eq_true_eq, List.mem_take_iff_getElem]
  constructor
  · rintro ⟨b, ⟨i, hi, rfl⟩, hb⟩
    simp only [Vector.length_toList, lt_min_iff] at hi
    exact ⟨i, hi.1, by simpa [hi.2] using hb⟩
  · rintro ⟨i, hi, hb⟩
    have h128 : i < 128 := by omega
    exact ⟨s.key[i], ⟨i, by rw [Vector.length_toList]; exact lt_min hi h128, by simp⟩, by simpa [h128] using hb⟩

theorem keyCheck_eq_none_iff (s : State) :
    keyCheck s = none ↔ (1 ≤ s.keylen.toNat ∧ s.keylen.toNat ≤ 128) ∧
      (s.asciiOnly = true → ∀ i < s.keylen.toNat, (byteAt s.key i).toNat < 0x80) := by
  rw [← keyLengthOK_iff]
  unfold keyCheck
  cases hl : keyLengthOK s with
  | false => simp
  | true =>
    have hn := keyHasNonAscii_iff s ((keyLengthOK_iff s).1 hl).2
    cases ha : s.asciiOnly <;> cases hk : keyHasNonAscii s <;> simp_all

theorem keyCheck_of_bad_length (s : State) (h : ¬ (1 ≤ s.keylen.toNat ∧ s.keylen.toNat ≤ 128)) :
    keyCheck s = some .keyLength := by
  rw [← keyLengthOK_iff] at h
  simp [keyCheck, h]

theorem keyCheck_of_bad_encoding (s : State) (hl : 1 ≤ s.keylen.toNat ∧ s.keylen.toNat ≤ 128)
    (h : ¬ (s.asciiOnly = true → ∀ i < s.keylen.toNat, (byteAt s.key i).toNat < 0x80)) :
    keyCheck s = some .invalidSecretEncoding := by
  have hn := keyHasNonAscii_iff s hl.2
  rw [← keyLengthOK_iff] at hl
  push Not at h
  simp [keyCheck, hl, h.1, hn.2 h.2]

theorem deriveT_of_ok {time t0 : DWord} {n : Word} (hn : n ≠ 0) (ht : t0.toNat ≤ time.toNat) :
    deriveT time t0 n = .ok (BitVec.ofNat 64 ((time.toNat - t0.toNat) / n.toNat)) := by
  have : n.toNat ≠ 0 := fun e => hn (BitVec.eq_of_toNat_eq (by simpa using e))
  simp [deriveT, this, Nat.not_lt.mpr ht]

theorem deriveT_of_zero (time t0 : DWord) : deriveT time t0 0 = .error .stepZero := by simp [deriveT]

theorem deriveT_of_before {time t0 : DWord} {n : Word} (hn : n ≠ 0) (ht : time.toNat < t0.toNat) :
    deriveT time t0 n = .error .timeBeforeEpoch := by
  have : n.toNat ≠ 0 := fun e => hn (BitVec.eq_of_toNat_eq (by simpa using e))
  simp [deriveT, this, ht]

/-! ## Truncate, Reduce, Format -/

/-- The offset is the low nibble of the last digest byte (R180). -/
theorem windowOffset_toNat (d : Vector Byte Config.digestBufBytes) (l : Nat) :
    (windowOffset d l).toNat = (byteAt d (l - 1)).toNat % 16 := by
  have h : ∀ b : BitVec 8, ((b &&& 0x0F).setWidth 4).toNat = b.toNat % 16 := by decide +kernel
  exact h _

/-- All that Truncate reads: the low nibble of byte l − 1, and the four bytes from the offset it gives (R180). -/
theorem truncate_congr {d d' : Vector Byte Config.digestBufBytes} {l : Nat}
    (ho : (byteAt d (l - 1)).toNat % 16 = (byteAt d' (l - 1)).toNat % 16)
    (hw : ∀ i, (byteAt d (l - 1)).toNat % 16 ≤ i → i ≤ (byteAt d (l - 1)).toNat % 16 + 3 → byteAt d i = byteAt d' i) :
    truncate d l = truncate d' l := by
  have e : windowOffset d l = windowOffset d' l := BitVec.eq_of_toNat_eq (by simp only [windowOffset_toNat, ho])
  simp only [← windowOffset_toNat] at hw
  simp only [truncate, windowValue, ← e, hw _ (Nat.le_refl _) (by omega), hw _ (Nat.le_add_right _ 1) (by omega),
    hw _ (Nat.le_add_right _ 2) (by omega), hw _ (Nat.le_add_right _ 3) (by omega)]

theorem or_shift_add (x y k : Nat) (hy : y < 2 ^ k) : (x <<< k) ||| y = x * 2 ^ k + y := by
  rw [Nat.shiftLeft_eq, Nat.mul_comm, Nat.two_pow_add_eq_or_of_lt hy]

/-- P is the four bytes of the window, big-endian, the top bit of the first cleared (R180). -/
theorem windowValue_toNat (d : Vector Byte Config.digestBufBytes) (o : Nat) :
    (windowValue d o).toNat = (byteAt d o).toNat % 128 * 2 ^ 24 + (byteAt d (o + 1)).toNat * 2 ^ 16
      + (byteAt d (o + 2)).toNat * 2 ^ 8 + (byteAt d (o + 3)).toNat := by
  have h : ∀ b0 b1 b2 b3 : BitVec 8,
      (((((b0 &&& 0x7F).setWidth 32 : Word) <<< 24) ||| ((b1.setWidth 32 : Word) <<< 16)
        ||| ((b2.setWidth 32 : Word) <<< 8) ||| (b3.setWidth 32 : Word)).setWidth 31).toNat =
      b0.toNat % 128 * 2 ^ 24 + b1.toNat * 2 ^ 16 + b2.toNat * 2 ^ 8 + b3.toNat := by
    intro b0 b1 b2 b3
    have hb : (b0 &&& 0x7F : BitVec 8).toNat = b0.toNat % 128 := by
      rw [BitVec.toNat_and]; exact Nat.and_two_pow_sub_one_eq_mod b0.toNat 7
    have l1 := b1.isLt
    have l2 := b2.isLt
    have l3 := b3.isLt
    have l0 := Nat.mod_lt b0.toNat (show 0 < 128 by decide)
    simp only [BitVec.toNat_setWidth, BitVec.toNat_or, BitVec.toNat_shiftLeft, hb]
    generalize b0.toNat % 128 = x0 at l0 ⊢
    generalize b1.toNat = x1 at l1 ⊢
    generalize b2.toNat = x2 at l2 ⊢
    generalize b3.toNat = x3 at l3 ⊢
    have e0 : x0 % 2 ^ 32 = x0 := Nat.mod_eq_of_lt (by omega)
    have e1 : x1 % 2 ^ 32 = x1 := Nat.mod_eq_of_lt (by omega)
    have e2 : x2 % 2 ^ 32 = x2 := Nat.mod_eq_of_lt (by omega)
    have e3 : x3 % 2 ^ 32 = x3 := Nat.mod_eq_of_lt (by omega)
    have g0 : x0 * 2 ^ 24 % 2 ^ 32 = x0 * 2 ^ 24 := Nat.mod_eq_of_lt (by omega)
    have g1 : x1 * 2 ^ 16 % 2 ^ 32 = x1 * 2 ^ 16 := Nat.mod_eq_of_lt (by omega)
    have g2 : x2 * 2 ^ 8 % 2 ^ 32 = x2 * 2 ^ 8 := Nat.mod_eq_of_lt (by omega)
    rw [e0, e1, e2, e3, Nat.shiftLeft_eq, Nat.shiftLeft_eq, Nat.shiftLeft_eq, g0, g1, g2]
    have f1 : x0 * 2 ^ 24 ||| x1 * 2 ^ 16 = x0 * 2 ^ 24 + x1 * 2 ^ 16 := by
      rw [← Nat.shiftLeft_eq x0, or_shift_add _ _ _ (by omega), Nat.shiftLeft_eq]
    have f2 : (x0 * 2 ^ 24 + x1 * 2 ^ 16) ||| x2 * 2 ^ 8 = x0 * 2 ^ 24 + x1 * 2 ^ 16 + x2 * 2 ^ 8 := by
      rw [show x0 * 2 ^ 24 + x1 * 2 ^ 16 = (x0 * 2 ^ 8 + x1) <<< 16 by rw [Nat.shiftLeft_eq]; ring,
        or_shift_add _ _ _ (by omega), Nat.shiftLeft_eq]
    have f3 : (x0 * 2 ^ 24 + x1 * 2 ^ 16 + x2 * 2 ^ 8) ||| x3 = x0 * 2 ^ 24 + x1 * 2 ^ 16 + x2 * 2 ^ 8 + x3 := by
      rw [show x0 * 2 ^ 24 + x1 * 2 ^ 16 + x2 * 2 ^ 8 = (x0 * 2 ^ 16 + x1 * 2 ^ 8 + x2) <<< 8 by
        rw [Nat.shiftLeft_eq]; ring, or_shift_add _ _ _ (by omega), Nat.shiftLeft_eq]
    rw [f1, f2, f3]
    exact Nat.mod_eq_of_lt (by omega)
  exact h _ _ _ _

/-- Reduce is the remainder, exactly (R183). -/
theorem reduceBy_toNat (p : BitVec 31) (d : Nat) : (reduceBy p d).toNat = p.toNat % 10 ^ d := by
  have h := Nat.mod_le p.toNat (10 ^ d)
  have := p.isLt
  rw [reduceBy, BitVec.toNat_ofNat, Nat.mod_eq_of_lt (by omega)]

theorem byteAt_formatCode (v : BitVec 31) (d i : Nat) (h : i < 12) :
    byteAt (formatCode v d) i = formatByte v.toNat d i := by
  simp [formatCode, h]

/-- A byte of the code is an ASCII digit (R200). -/
theorem formatByte_toNat (v d i : Nat) (h : i < d) : (formatByte v d i).toNat = 0x30 + v / 10 ^ (d - 1 - i) % 10 := by
  have := Nat.mod_lt (v / 10 ^ (d - 1 - i)) (show 0 < 10 by decide)
  rw [formatByte, if_pos h, BitVec.toNat_ofNat, Nat.mod_eq_of_lt (by omega)]

theorem formatByte_of_le (v d i : Nat) (h : d ≤ i) : formatByte v d i = 0 := by
  rw [formatByte, if_neg (by omega)]

end Sys2Proof.Machine
end

