-- ==== Sys2Proof/Laws/Commands.lean ====
section
/-! SUPPORT. The checks of the commands as cases that exclude each other, and what each command writes when its checks
pass (spec/30_encoding.md R93; spec/40_counter.md R110, R112; spec/41_hmac.md R154, R155; spec/42_truncate.md R182 to
R185; spec/43_format.md R201; spec/44_sequence.md R216, R217). -/

namespace Sys2Proof.Machine

/-! ## The checks, case by case -/

theorem algOf_cases (a : AlgField) : (algOf a = none ∧ a = .reserved) ∨ ∃ h, algOf a = some h ∧ a ≠ .reserved := by
  cases a <;> simp [algOf]

theorem digitsOK_cases (d : Nat) :
    (digitsOK d = true ∧ 1 ≤ d ∧ d ≤ 10) ∨ (digitsOK d = false ∧ ¬ (1 ≤ d ∧ d ≤ 10)) := by
  have h := digitsOK_iff d
  cases hd : digitsOK d <;> simp_all

/-- KeyCheck's three answers (R155). -/
theorem keyCheck_cases (s : State) :
    (keyCheck s = none ∧ (1 ≤ s.keylen.toNat ∧ s.keylen.toNat ≤ 128) ∧
      (s.asciiOnly = true → ∀ i < s.keylen.toNat, (byteAt s.key i).toNat < 0x80)) ∨
    (keyCheck s = some .keyLength ∧ ¬ (1 ≤ s.keylen.toNat ∧ s.keylen.toNat ≤ 128)) ∨
    (keyCheck s = some .invalidSecretEncoding ∧ (1 ≤ s.keylen.toNat ∧ s.keylen.toNat ≤ 128) ∧
      ¬ (s.asciiOnly = true → ∀ i < s.keylen.toNat, (byteAt s.key i).toNat < 0x80)) := by
  by_cases h : 1 ≤ s.keylen.toNat ∧ s.keylen.toNat ≤ 128
  · by_cases h2 : s.asciiOnly = true → ∀ i < s.keylen.toNat, (byteAt s.key i).toNat < 0x80
    · exact .inl ⟨(keyCheck_eq_none_iff s).2 ⟨h, h2⟩, h, h2⟩
    · exact .inr (.inr ⟨keyCheck_of_bad_encoding s h h2, h, h2⟩)
  · exact .inr (.inl ⟨keyCheck_of_bad_length s h, h⟩)

/-- DeriveT's three answers (R110). -/
theorem deriveT_cases (s : State) :
    (deriveT s.time s.t0 s.stepSecs = .error .stepZero ∧ s.stepSecs = 0) ∨
    (deriveT s.time s.t0 s.stepSecs = .error .timeBeforeEpoch ∧ s.stepSecs ≠ 0 ∧ s.time.toNat < s.t0.toNat) ∨
    (deriveT s.time s.t0 s.stepSecs = .ok (BitVec.ofNat 64 ((s.time.toNat - s.t0.toNat) / s.stepSecs.toNat)) ∧
      s.stepSecs ≠ 0 ∧ s.t0.toNat ≤ s.time.toNat) := by
  by_cases h : s.stepSecs = 0
  · exact .inl ⟨by rw [h]; exact deriveT_of_zero _ _, h⟩
  · by_cases h2 : s.time.toNat < s.t0.toNat
    · exact .inr (.inl ⟨deriveT_of_before h h2, h, h2⟩)
    · exact .inr (.inr ⟨deriveT_of_ok h (by omega), h, by omega⟩)

/-! ## The key, as far as it is read (R30, R155) -/

/-- The secret is the bytes below KEYLEN: two machines that agree on them have the same. -/
theorem keyBytes_agree {s s' : State} (hl : s.keylen = s'.keylen)
    (hk : ∀ j < s.keylen.toNat, byteAt s.key j = byteAt s'.key j) : keyBytes s = keyBytes s' := by
  apply List.ext_getElem
  · simp [keyBytes, hl]
  · intro i h1 h2
    simp only [keyBytes, List.length_take, Vector.length_toList, lt_min_iff] at h1
    have := hk i h1.1
    have h128 : i < 128 := h1.2
    simpa [keyBytes, h128] using this

theorem keyCheck_agree {s s' : State} (hl : s.keylen = s'.keylen) (ha : s.asciiOnly = s'.asciiOnly)
    (hk : ∀ j < s.keylen.toNat, byteAt s.key j = byteAt s'.key j) : keyCheck s = keyCheck s' := by
  unfold keyCheck keyHasNonAscii keyLengthOK
  rw [keyBytes_agree hl hk, hl, ha]

/-! ## What a command writes -/

theorem deriveResult_of_ok {s : State} {t : DWord} (h : deriveT s.time s.t0 s.stepSecs = .ok t) :
    deriveResult s = .ok { s with ctr := t } := by
  simp [deriveResult, h]

theorem hmacResult_of_ok {alg : AlgField} {h : HashAlg} {s : State} (ha : algOf alg = some h) (hk : keyCheck s = none) :
    hmacResult alg s = .ok (markDigest { s with digest := bufferOf _ (keyedDigest h s), dalg := h }) := by
  simp [hmacResult, ha, hk]

theorem truncResult_of_ok {s : State} (h : s.dv = true) :
    truncResult s = .ok (markTrunc { s with
      truncOffset := (truncate s.digest (dlen s.dalg)).1, p := (truncate s.digest (dlen s.dalg)).2 }) := by
  rw [truncResult, if_neg (by simp [h])]

theorem truncResult_of_not_ready {s : State} (h : s.dv = false) : truncResult s = .error .notReady := by
  simp [truncResult, h]

theorem reduceResult_of_ok {d : Nat} {s : State} (hd : digitsOK d = true) (h : s.pv = true) :
    reduceResult d s = .ok (markOtp { s with otp := reduceBy s.p d, odig := BitVec.ofNat 4 d }) := by
  rw [reduceResult, if_neg (by simp [hd]), if_neg (by simp [h])]

theorem reduceResult_of_not_ready {d : Nat} {s : State} (hd : digitsOK d = true) (h : s.pv = false) :
    reduceResult d s = .error .notReady := by
  simp [reduceResult, hd, h]

theorem formatResult_of_ok {s : State} (h : s.ov = true) :
    formatResult s = .ok (markCode { s with code := formatCode s.otp s.odig.toNat }) := by
  rw [formatResult, if_neg (by simp [h])]

theorem formatResult_of_not_ready {s : State} (h : s.ov = false) : formatResult s = .error .notReady := by
  simp [formatResult, h]

theorem hotpResult_of_ok {alg : AlgField} {h : HashAlg} {d : Nat} {s : State} (ha : algOf alg = some h)
    (hd : digitsOK d = true) (hk : keyCheck s = none) : hotpResult alg d s = .ok (hotpWrites h d s) := by
  simp [hotpResult, ha, hd, hk]

theorem totpResult_of_ok {alg : AlgField} {h : HashAlg} {d : Nat} {s : State} {t : DWord} (ha : algOf alg = some h)
    (hd : digitsOK d = true) (hk : keyCheck s = none) (ht : deriveT s.time s.t0 s.stepSecs = .ok t) :
    totpResult alg d s = .ok (hotpWrites h d { s with ctr := t }) := by
  have hk' : keyCheck { s with ctr := t } = none := hk
  simp only [totpResult, ha, hd, hk, ht, Bool.true_eq_false, ↓reduceIte]
  exact hotpResult_of_ok ha hd hk'

/-! ## The results in the rules' own terms -/

/-- DIGEST after a keyed command: the HMAC, then zeros (R154). -/
theorem keyedDigest_toList (h : HashAlg) (s : State) :
    (bufferOf Config.digestBufBytes (keyedDigest h s)).toList =
      hmac h (s.key.toList.take s.keylen.toNat) (serialize s.ctr) ++ List.replicate (64 - dlen h) 0 := by
  have hl : (keyedDigest h s).length = dlen h := by simp [keyedDigest]
  have e := bufferOf_toList Config.digestBufBytes (keyedDigest h s) (by rw [hl]; exact dlen_le_64 h)
  rw [hl] at e
  exact e

/-! ## What every command leaves alone when it succeeds (R244) -/

theorem commandResult_keeps_error_fields {i : Instr} {s u : State} (h : commandResult i s = .ok u) :
    u.err = s.err ∧ u.errcode = s.errcode := by
  cases i <;>
    simp only [commandResult, nopResult, clearResult, deriveResult, hmacResult, truncResult, reduceResult, formatResult,
      hotpResult, totpResult] at h <;>
    (repeat' (split at h)) <;>
    first
    | (cases h; exact ⟨rfl, rfl⟩)
    | cases h

/-- No command ends in ILLEGAL_CMD: that code is for words that decode to none (R98, R240). -/
theorem commandResult_ne_illegal (i : Instr) (s : State) : commandResult i s ≠ .error .illegalCmd := by
  have hk : keyCheck s ≠ some .illegalCmd := by
    rcases keyCheck_cases s with h | h | h <;> rw [h.1] <;> simp
  have hk' : ∀ t : DWord, keyCheck { s with ctr := t } ≠ some .illegalCmd := fun _ => hk
  have ht : deriveT s.time s.t0 s.stepSecs ≠ .error .illegalCmd := by
    rcases deriveT_cases s with h | h | h <;> rw [h.1] <;> simp
  intro h
  cases i <;>
    simp only [commandResult, nopResult, clearResult, deriveResult, hmacResult, truncResult, reduceResult, formatResult,
      hotpResult, totpResult] at h <;>
    (repeat' (split at h)) <;>
    simp_all

end Sys2Proof.Machine
end

