-- ==== Sys2Proof/Laws/Decode.lean ====
section
/-! SUPPORT. Decoding and encoding (spec/30_encoding.md R91 to R98): every field of a packed word reads back, and a word
is its fields. -/

namespace Sys2Proof

/-- A bit of a packed word (R91). -/
theorem getLsbD_packFields (d : BitVec 4) (a : BitVec 2) (o : BitVec 4) (i : Nat) :
    (packFields d a o).getLsbD i =
      if i < 4 then o.getLsbD i
      else if i < 6 then a.getLsbD (i - 4)
      else if i < 8 then false
      else if i < 12 then d.getLsbD (i - 8)
      else false := by
  have e : packFields d a o = (((((0 : BitVec 20) ++ d : BitVec 24) ++ (0 : BitVec 2) : BitVec 26) ++ a : BitVec 28) ++ o :
    BitVec (28 + 4)) := rfl
  rw [e]
  have h1 : ∀ j, BitVec.getLsbD (w := 28) ((((0 : BitVec 20) ++ d : BitVec 24) ++ (0 : BitVec 2) : BitVec 26) ++ a) j
      = if j < 2 then a.getLsbD j
        else if j - 2 < 2 then false
        else if j - 4 < 4 then d.getLsbD (j - 4) else false := by
    intro j
    have h2 : BitVec.getLsbD (w := 28) ((((0 : BitVec 20) ++ d : BitVec 24) ++ (0 : BitVec 2) : BitVec 26) ++ a) j
        = BitVec.getLsbD (w := 26 + 2) ((((0 : BitVec 20) ++ d : BitVec 24) ++ (0 : BitVec 2) : BitVec (24 + 2)) ++ a) j := rfl
    have h3 : ∀ n, BitVec.getLsbD (w := 24) ((0 : BitVec 20) ++ d) n
        = BitVec.getLsbD (w := 20 + 4) ((0 : BitVec 20) ++ d) n := fun _ => rfl
    rw [h2, BitVec.getLsbD_append, BitVec.getLsbD_append, h3, BitVec.getLsbD_append]
    simp [Nat.sub_sub]
  rw [BitVec.getLsbD_append, h1]
  split <;> [rfl; skip]
  split <;> split <;> first | rfl | omega | skip
  all_goals (repeat' split) <;> first | rfl | omega

@[simp] theorem opField_packFields (d : BitVec 4) (a : BitVec 2) (o : BitVec 4) : opField (packFields d a o) = o := by
  apply BitVec.eq_of_getLsbD_eq
  intro i hi
  rw [opField, BitVec.getLsbD_extractLsb', getLsbD_packFields]
  simp [hi]

@[simp] theorem algBits_packFields (d : BitVec 4) (a : BitVec 2) (o : BitVec 4) : algBits (packFields d a o) = a := by
  apply BitVec.eq_of_getLsbD_eq
  intro i hi
  rw [algBits, BitVec.getLsbD_extractLsb', getLsbD_packFields, if_neg (by omega), if_pos (by omega)]
  simp [hi]

@[simp] theorem digitsBits_packFields (d : BitVec 4) (a : BitVec 2) (o : BitVec 4) :
    digitsBits (packFields d a o) = d := by
  apply BitVec.eq_of_getLsbD_eq
  intro i hi
  rw [digitsBits, BitVec.getLsbD_extractLsb', getLsbD_packFields, if_neg (by omega), if_neg (by omega),
    if_neg (by omega), if_pos (by omega)]
  simp [hi]

@[simp] theorem res0Field_packFields (d : BitVec 4) (a : BitVec 2) (o : BitVec 4) : res0Field (packFields d a o) = 0 := by
  apply BitVec.eq_of_getLsbD_eq
  intro i hi
  rw [res0Field, BitVec.getLsbD_extractLsb', getLsbD_packFields, if_neg (by omega), if_neg (by omega),
    if_pos (by omega)]
  simp

@[simp] theorem res1Field_packFields (d : BitVec 4) (a : BitVec 2) (o : BitVec 4) : res1Field (packFields d a o) = 0 := by
  apply BitVec.eq_of_getLsbD_eq
  intro i hi
  rw [res1Field, BitVec.getLsbD_extractLsb', getLsbD_packFields, if_neg (by omega), if_neg (by omega),
    if_neg (by omega), if_neg (by omega)]
  simp

/-- A packed word decodes by its OP and fields (R97). -/
theorem decode_packFields (d : BitVec 4) (a : BitVec 2) (o : BitVec 4) :
    decode (packFields d a o) = decodeOp o (algOfBits a) d.toNat := by
  simp [decode]

@[simp] theorem algOfBits_algCode (a : AlgField) : algOfBits (algCode a) = a := by
  cases a <;> rfl

@[simp] theorem algCode_algOfBits (b : BitVec 2) : algCode (algOfBits b) = b := by
  revert b; decide

/-- A word with no reserved bit set is the pack of its fields (R91). -/
theorem packFields_of_fields (w : Word) (h0 : res0Field w = 0) (h1 : res1Field w = 0) :
    packFields (digitsBits w) (algBits w) (opField w) = w := by
  apply BitVec.eq_of_getLsbD_eq
  intro i hi
  rw [getLsbD_packFields]
  have r0 : ∀ j < 2, w.getLsbD (6 + j) = false := fun j hj => by
    have := congrArg (fun x : BitVec 2 => x.getLsbD j) h0
    simpa [res0Field, hj] using this
  have r1 : ∀ j < 20, w.getLsbD (12 + j) = false := fun j hj => by
    have := congrArg (fun x : BitVec 20 => x.getLsbD j) h1
    simpa [res1Field, hj] using this
  split
  · next h => simp [opField, h]
  split
  · next h h' => simp [algBits, show i - 4 < 2 by omega, show 4 + (i - 4) = i by omega]
  split
  · next h h' h'' => rw [← r0 (i - 6) (by omega), show 6 + (i - 6) = i by omega]
  split
  · next h _ _ h' => simp [digitsBits, show i - 8 < 4 by omega, show 8 + (i - 8) = i by omega]
  · next h _ _ h' => rw [← r1 (i - 12) (by omega), show 12 + (i - 12) = i by omega]

/-- What decoding answers, once: the word has no reserved bit set and its OP's row gives the command (R97). -/
theorem decode_ok_iff (w : Word) (i : Instr) :
    decode w = .ok i ↔
      res0Field w = 0 ∧ res1Field w = 0 ∧ decodeOp (opField w) (algOfBits (algBits w)) (digitsBits w).toNat = .ok i := by
  unfold decode
  split
  · next h => exact ⟨(fun e => by cases e), (fun ⟨h0, h1, _⟩ => by simp [h0, h1] at h)⟩
  · next h =>
    simp only [not_or, not_not] at h
    exact ⟨fun e => ⟨h.2, h.1, e⟩, fun e => e.2.2⟩

/-- The OP of a decoded word is its command's (R92). -/
theorem opCode_of_decodeOp {op : BitVec 4} {a : AlgField} {d : Nat} {i : Instr} (h : decodeOp op a d = .ok i) :
    opCode i = op := by
  have key : ∀ op : BitVec 4, decodeOp op a d = .ok i → opCode i = op := by
    intro op
    have hop : op.toNat < 16 := op.isLt
    unfold decodeOp
    split <;> intro h <;> first | (cases h; apply BitVec.eq_of_toNat_eq; simp [opCode]; omega) | cases h
  exact key op h

/-! ## Match and mask (R97) -/

/-- Two words agree under the table's mask exactly when OP and the reserved fields agree. -/
theorem masked_eq_iff (w v : Word) : w &&& 0xFFFFF0CF = v &&& 0xFFFFF0CF ↔
    opField w = opField v ∧ res0Field w = res0Field v ∧ res1Field w = res1Field v := by
  have bit : ∀ i, i < 32 → (0xFFFFF0CF : BitVec 32).getLsbD i =
      (decide (i < 4) || decide (6 ≤ i ∧ i < 8) || decide (12 ≤ i)) := by decide
  constructor
  · intro h
    have hb : ∀ i, i < 32 → (i < 4 ∨ (6 ≤ i ∧ i < 8) ∨ 12 ≤ i) → w.getLsbD i = v.getLsbD i := by
      intro i hi hc
      have := congrArg (fun x : BitVec 32 => x.getLsbD i) h
      simp only [BitVec.getLsbD_and, bit i hi] at this
      have hh : (decide (i < 4) || decide (6 ≤ i ∧ i < 8) || decide (12 ≤ i)) = true := by simpa [or_assoc] using hc
      simpa only [hh, Bool.and_true] using this
    refine ⟨?_, ?_, ?_⟩ <;> apply BitVec.eq_of_getLsbD_eq <;> intro i hi
    · simp only [opField, BitVec.getLsbD_extractLsb']; rw [hb _ (by omega) (by omega)]
    · simp only [res0Field, BitVec.getLsbD_extractLsb']; rw [hb _ (by omega) (by omega)]
    · simp only [res1Field, BitVec.getLsbD_extractLsb']; rw [hb _ (by omega) (by omega)]
  · rintro ⟨h0, h1, h2⟩
    apply BitVec.eq_of_getLsbD_eq
    intro i hi
    simp only [BitVec.getLsbD_and, bit i hi]
    by_cases c0 : i < 4
    · have := congrArg (fun x : BitVec 4 => x.getLsbD i) h0
      simp only [opField, BitVec.getLsbD_extractLsb', c0, decide_true, Bool.true_and, Nat.zero_add] at this
      rw [this]
    · by_cases c1 : 6 ≤ i ∧ i < 8
      · have := congrArg (fun x : BitVec 2 => x.getLsbD (i-6)) h1
        simp only [res0Field, BitVec.getLsbD_extractLsb', show i - 6 < 2 by omega, decide_true, Bool.true_and,
          show 6 + (i - 6) = i by omega] at this
        rw [this]
      · by_cases c2 : 12 ≤ i
        · have := congrArg (fun x : BitVec 20 => x.getLsbD (i-12)) h2
          simp only [res1Field, BitVec.getLsbD_extractLsb', show i - 12 < 20 by omega, decide_true, Bool.true_and,
            show 12 + (i - 12) = i by omega] at this
          rw [this]
        · simp [c0, c1, c2]

/-- A word has an OP's match exactly when its OP is that one and its reserved fields are 0. -/
theorem match_iff (w : Word) (o : BitVec 4) :
    w &&& 0xFFFFF0CF = o.setWidth 32 ↔ opField w = o ∧ res0Field w = 0 ∧ res1Field w = 0 := by
  have e : (o.setWidth 32 : Word) = o.setWidth 32 &&& 0xFFFFF0CF := by revert o; decide +kernel
  have f : ∀ o : BitVec 4, opField (o.setWidth 32) = o ∧ res0Field (o.setWidth 32) = 0 ∧ res1Field (o.setWidth 32) = 0 := by
    decide +kernel
  obtain ⟨a, b, c⟩ := f o
  rw [e, masked_eq_iff, a, b, c]

theorem decode_of_fields {w : Word} {o : BitVec 4} (h : opField w = o ∧ res0Field w = 0 ∧ res1Field w = 0) :
    decode w = decodeOp o (algOfBits (algBits w)) (digitsBits w).toNat := by
  simp [decode, h.1, h.2.1, h.2.2]

theorem decodeOp_error_iff (o : BitVec 4) (a : AlgField) (d : Nat) :
    (∃ e, decodeOp o a d = .error e) ↔ 9 ≤ o.toNat := by
  unfold decodeOp
  split <;> simp_all
  omega

/-- The words that decode to nothing (R95, R98). -/
theorem decode_error_iff (w : Word) :
    (∃ e, decode w = .error e) ↔ 9 ≤ (opField w).toNat ∨ res0Field w ≠ 0 ∨ res1Field w ≠ 0 := by
  unfold decode
  split
  · next h => simp; tauto
  · next h =>
    simp only [not_or, not_not] at h
    rw [decodeOp_error_iff]
    simp [h.1, h.2]

/-- The low four bits of a word are its OP. -/
theorem opField_of_and {w : Word} {o : BitVec 4} (h : w &&& 0xF = o.setWidth 32) : opField w = o := by
  apply BitVec.eq_of_getLsbD_eq
  intro i hi
  have := congrArg (fun x : BitVec 32 => x.getLsbD i) h
  have bit : ∀ i, i < 4 → (0xF : BitVec 32).getLsbD i = true := by decide
  simp only [BitVec.getLsbD_and, bit i hi, Bool.and_true] at this
  simp [opField, hi]
  simpa [hi, show i < 32 by omega] using this

/-- A legal word under a mask of whole fields. -/
theorem and_packFields (w : Word) (h0 : res0Field w = 0) (h1 : res1Field w = 0) (d : BitVec 4) (a : BitVec 2) :
    w &&& packFields d a 0xF = packFields (digitsBits w &&& d) (algBits w &&& a) (opField w) := by
  conv_lhs => rw [← packFields_of_fields w h0 h1]
  apply BitVec.eq_of_getLsbD_eq
  intro i hi
  simp only [BitVec.getLsbD_and, getLsbD_packFields]
  have bit : ∀ i, i < 4 → (0xF : BitVec 4).getLsbD i = true := by decide
  split
  · next h => rw [bit i h, Bool.and_true]
  · split
    · rfl
    · split
      · rfl
      · split <;> rfl

end Sys2Proof
end

