-- ==== Sys2Proof/Laws/Flags.lean ====
section
/-! SUPPORT. Every bit of the STATUS word (spec/10_state.md R28). -/

namespace Sys2Proof.Machine

/-- Bit i of STATUS (R28). -/
theorem getLsbD_statusWord (s : State) (i : Nat) : (statusWord s).getLsbD i =
    if i < 1 then isBusy s else if i < 2 then s.done else if i < 3 then s.err else if i < 4 then s.ovr
    else if i < 5 then s.dv else if i < 6 then s.pv else if i < 7 then s.ov else if i < 8 then s.cv
    else if i < 12 then s.errcode.getLsbD (i - 8) else if i < 14 then (dalgBits s.dalg).getLsbD (i - 12)
    else if i < 16 then false else if i < 20 then s.odig.getLsbD (i - 16) else false := by
  have e : (statusWord s).getLsbD i = BitVec.getLsbD (w := 31 + 1)
      (((0 : BitVec 12) ++ s.odig ++ (0 : BitVec 2) ++ dalgBits s.dalg ++ s.errcode
    ++ BitVec.ofBool s.cv ++ BitVec.ofBool s.ov ++ BitVec.ofBool s.pv ++ BitVec.ofBool s.dv
    ++ BitVec.ofBool s.ovr ++ BitVec.ofBool s.err ++ BitVec.ofBool s.done :
      BitVec (12 + 4 + 2 + 2 + 4 + 1 + 1 + 1 + 1 + 1 + 1 + 1)) ++ BitVec.ofBool (isBusy s)) i := rfl
  rw [e]
  simp only [BitVec.getLsbD_append]
  by_cases h : i < 20
  · clear e; interval_cases i <;> simp
  · have hn : ∀ n < 20, ¬ i < n := fun n hn => by omega
    simp [Nat.sub_sub, hn, h]
    repeat (rw [if_neg (by omega)])
    intros; omega

end Sys2Proof.Machine
end

