-- ==== Sys2Proof/Laws/HostVars.lean ====
section
/-! SUPPORT. The host variables' list: one form, kept by every write; a write reads back (spec/30_encoding.md R102;
log 8). -/

namespace Sys2Proof.Machine

theorem varsWf_cons (low n : Nat) (x : Word) (l : List (Nat × Word)) :
    varsWf low ((n, x) :: l) = true ↔ low ≤ n ∧ x ≠ 0 ∧ varsWf (n + 1) l = true := by
  simp [varsWf, and_assoc]

theorem varsWf_mono {low low' : Nat} (h : low ≤ low') {l : List (Nat × Word)} (hw : varsWf low' l = true) :
    varsWf low l = true := by
  cases l with
  | nil => rfl
  | cons p l => exact (varsWf_cons ..).2 ⟨h.trans ((varsWf_cons ..).1 hw).1, ((varsWf_cons ..).1 hw).2⟩

/-- A variable below every listed number is 0. -/
theorem varIn_of_lt {low : Nat} {l : List (Nat × Word)} (hw : varsWf low l = true) {q : Nat} (hq : q < low) :
    varIn l q = 0 := by
  induction l generalizing low with
  | nil => rfl
  | cons p l ih =>
    have h := (varsWf_cons ..).1 hw
    rw [varIn, if_neg (by omega)]
    exact ih h.2.2 (by omega)

/-- The write keeps the list's one form. -/
theorem setVarIn_wf {low : Nat} {l : List (Nat × Word)} (hw : varsWf low l = true) {r : Nat} (hr : low ≤ r) (v : Word) :
    varsWf low (setVarIn l r v) = true := by
  induction l generalizing low with
  | nil =>
    unfold setVarIn
    split
    · rfl
    · next hv => exact (varsWf_cons ..).2 ⟨hr, hv, rfl⟩
  | cons p l ih =>
    obtain ⟨h1, h2, h3⟩ := (varsWf_cons ..).1 hw
    unfold setVarIn
    split
    · next hlt =>
      split
      · exact hw
      · next hv => exact (varsWf_cons ..).2 ⟨hr, hv, (varsWf_cons ..).2 ⟨by omega, h2, h3⟩⟩
    · split
      · next heq =>
        split
        · exact varsWf_mono (by omega) h3
        · next hv => exact (varsWf_cons ..).2 ⟨hr, hv, by rw [heq]; exact h3⟩
      · exact (varsWf_cons ..).2 ⟨h1, h2, ih h3 (by omega)⟩

/-- A written variable reads back, and every other keeps its value. -/
theorem varIn_setVarIn {low : Nat} {l : List (Nat × Word)} (hw : varsWf low l = true) (r : Nat) (v : Word) (q : Nat) :
    varIn (setVarIn l r v) q = if q = r then v else varIn l q := by
  induction l generalizing low with
  | nil =>
    unfold setVarIn
    split
    · next hv => rw [hv]; split <;> rfl
    · simp only [varIn, eq_comm]
  | cons p l ih =>
    obtain ⟨h1, h2, h3⟩ := (varsWf_cons ..).1 hw
    unfold setVarIn
    split
    · next hlt =>
      split
      · next hv =>
        split
        · next hq => rw [hq, hv, varIn, if_neg (by omega), varIn_of_lt h3 (by omega)]
        · rfl
      · rw [varIn]; simp only [eq_comm]
    · split
      · next hlt heq =>
        split
        · next hv =>
          split
          · next hq => rw [hq, hv, varIn_of_lt h3 (by omega)]
          · next hq => rw [varIn, if_neg (by omega)]
        · next hv =>
          rw [varIn]
          split
          · next hq => rw [if_pos hq.symm]
          · next hq => rw [if_neg (Ne.symm hq), varIn, if_neg (by omega)]
      · next hlt hne =>
        rw [varIn, ih h3]
        split
        · next hq => rw [if_neg (by omega), varIn, if_pos hq]
        · next hq => rw [varIn, if_neg hq]

end Sys2Proof.Machine
end

