-- ==== Sys2Proof/Laws/Labels.lean ====
section
/-! SUPPORT. Where a host script's labels are (spec/30_encoding.md R102, R103; log 7): what the search for a label finds,
and so everything a jump can do. -/

namespace Sys2Proof.Machine

/-- The search from the front finds the first place of the label. -/
theorem firstLabel_some {l at0 n : Nat} {sts : List Stmt} (h : firstLabel l at0 sts = some n) :
    ∃ k, n = at0 + k ∧ sts[k]? = some (.label l) ∧ ∀ m < k, sts[m]? ≠ some (.label l) := by
  induction sts generalizing at0 with
  | nil => cases h
  | cons st rest ih =>
    rw [firstLabel] at h
    split at h
    · next hl =>
      cases h
      exact ⟨0, rfl, by simp [hl], by simp⟩
    · next hl =>
      obtain ⟨k, rfl, hk, hlt⟩ := ih h
      refine ⟨k + 1, by omega, by simpa using hk, fun m hm => ?_⟩
      cases m with
      | zero => simpa using hl
      | succ m => simpa using hlt m (by omega)

theorem firstLabel_none {l at0 : Nat} {sts : List Stmt} (h : firstLabel l at0 sts = none) : .label l ∉ sts := by
  induction sts generalizing at0 with
  | nil => simp
  | cons st rest ih =>
    rw [firstLabel] at h
    split at h
    · cases h
    · next hl => simpa [Ne.symm hl] using ih h

theorem lastLabel_none {l at0 : Nat} {sts : List Stmt} (h : lastLabel l at0 sts = none) : .label l ∉ sts := by
  induction sts generalizing at0 with
  | nil => simp
  | cons st rest ih =>
    rw [lastLabel] at h
    split at h
    · cases h
    · next hr =>
      split at h
      · cases h
      · next hl => simpa [Ne.symm hl] using ih hr

/-- The search from the back finds the last place of the label. -/
theorem lastLabel_some {l at0 n : Nat} {sts : List Stmt} (h : lastLabel l at0 sts = some n) :
    ∃ k, n = at0 + k ∧ sts[k]? = some (.label l) ∧ ∀ m, k < m → sts[m]? ≠ some (.label l) := by
  induction sts generalizing at0 with
  | nil => cases h
  | cons st rest ih =>
    rw [lastLabel] at h
    split at h
    · next hr =>
      cases h
      obtain ⟨k, rfl, hk, hgt⟩ := ih hr
      refine ⟨k + 1, by omega, by simpa using hk, fun m hm => ?_⟩
      obtain ⟨m, rfl⟩ : ∃ j, m = j + 1 := ⟨m - 1, by omega⟩
      simpa using hgt m (by omega)
    · next hr =>
      split at h
      · next hl =>
        cases h
        refine ⟨0, rfl, by simp [hl], fun m hm he => lastLabel_none hr ?_⟩
        obtain ⟨m, rfl⟩ : ∃ j, m = j + 1 := ⟨m - 1, by omega⟩
        exact List.mem_of_getElem? (by simpa using he)
      · cases h

/-- A jump to a label by name: to its first place, or a fault when the script does not hold it. -/
theorem jump_named (l : Nat) (s : State) :
    (∃ n, s.env.script[n]? = some (.label l) ∧ (∀ m < n, s.env.script[m]? ≠ some (.label l)) ∧
      jump (.named l) s = .next { s with env := { s.env with pos := n } }) ∨
    (.label l ∉ s.env.script ∧ jump (.named l) s = .fault .noSuchLabel) := by
  cases h : firstLabel l 0 s.env.script with
  | none => exact .inr ⟨firstLabel_none h, by simp [jump, targetPos, h]⟩
  | some n =>
    obtain ⟨k, rfl, hk, hlt⟩ := firstLabel_some h
    exact .inl ⟨k, hk, hlt, by simp [jump, targetPos, h]⟩

/-- A jump back: to the last place of the label before the statement, or a fault when there is none. -/
theorem jump_back (l : Nat) (s : State) :
    (∃ n < s.env.pos, s.env.script[n]? = some (.label l) ∧
      (∀ m < s.env.pos, n < m → s.env.script[m]? ≠ some (.label l)) ∧
      jump (.back l) s = .next { s with env := { s.env with pos := n } }) ∨
    (.label l ∉ s.env.script.take s.env.pos ∧ jump (.back l) s = .fault .noSuchLabel) := by
  cases h : lastLabel l 0 (s.env.script.take s.env.pos) with
  | none => exact .inr ⟨lastLabel_none h, by simp [jump, targetPos, h]⟩
  | some n =>
    obtain ⟨k, rfl, hk, hgt⟩ := lastLabel_some h
    have hp : k < s.env.pos := by
      have := (List.getElem?_eq_some_iff.1 hk).1
      simp only [List.length_take] at this
      omega
    refine .inl ⟨k, hp, by rwa [List.getElem?_take_of_lt hp] at hk, fun m hm hkm => ?_, by simp [jump, targetPos, h]⟩
    rw [← List.getElem?_take_of_lt hm]
    exact hgt m hkm

end Sys2Proof.Machine
end

