-- ==== Sys2Proof/Laws/PerInstr.lean ====
section
/-! SUPPORT. Per command: its encoding is on its row of the opcode table (spec/30_encoding.md R97): under the mask
0xFFFFF0CF it is its OP. -/

namespace Sys2Proof.Laws.TableRow

/-- The command's word has its row's match under the table's mask. -/
def Statement (i : Instr) : Prop := encode i &&& tableMask = tableMatch i

theorem packFields_masked (d : BitVec 4) (a : BitVec 2) (o : BitVec 4) :
    packFields d a o &&& tableMask = o.setWidth 32 := by
  have h : ∀ (d : Fin 16) (a : Fin 4) (o : Fin 16),
      packFields (BitVec.ofFin (w := 4) d) (BitVec.ofFin (w := 2) a) (BitVec.ofFin (w := 4) o) &&& tableMask =
        (BitVec.ofFin (w := 4) o).setWidth 32 := by
    decide +kernel
  exact h d.toFin a.toFin o.toFin

theorem nop : Statement .nop := packFields_masked _ _ _

theorem clear : Statement .clear := packFields_masked _ _ _

theorem derive : Statement .derive := packFields_masked _ _ _

theorem hmac (alg : AlgField) : Statement (.hmac alg) := packFields_masked _ _ _

theorem trunc : Statement .trunc := packFields_masked _ _ _

theorem reduce (digits : Nat) : Statement (.reduce digits) := packFields_masked _ _ _

theorem format : Statement .format := packFields_masked _ _ _

theorem hotp (alg : AlgField) (digits : Nat) : Statement (.hotp alg digits) := packFields_masked _ _ _

theorem totp (alg : AlgField) (digits : Nat) : Statement (.totp alg digits) := packFields_masked _ _ _

end Sys2Proof.Laws.TableRow
end

