-- ==== Sys2Proof/Laws/Step.lean ====
section
/-! SUPPORT. What a turn, and so a step, can do, said once (spec/00_scope.md R13; spec/20_memory.md R75): nothing to the
block, one bus write, one COMPLETE, or reset. Every rule about all steps is read off step_cases. -/

namespace Sys2Proof.Machine

open Sys2Proof.Safety

/-! ## What an access leaves of the world -/

theorem sameBlock_refl (s : State) : SameBlock s s := rfl

theorem sameBlock_with_env (s : State) (e : Env) : SameBlock s { s with env := e } := rfl

theorem sameBlock_trans {s t u : State} (h : SameBlock s t) (h' : SameBlock t u) : SameBlock s u := by
  rw [SameBlock] at h h' ⊢
  rw [h', h]

/-- Two machines with the same block differ by their worlds alone. -/
theorem sameBlock_iff_exists (s t : State) : SameBlock s t ↔ ∃ e, t = { s with env := e } :=
  ⟨fun h => ⟨_, h⟩, fun ⟨e, h⟩ => by subst h; rfl⟩

/-- What the HOST's world keeps through its own turn. -/
structure WorldKept (s t : State) : Prop where
  script : t.env.script = s.env.script
  turns : t.env.turns = s.env.turns
  inReset : t.env.inReset = s.env.inReset
  vars : varsWf 0 s.env.vars = true → varsWf 0 t.env.vars = true

theorem worldKept_refl (s : State) : WorldKept s s := ⟨rfl, rfl, rfl, id⟩

theorem worldKept_trans {s t u : State} (h : WorldKept s t) (h' : WorldKept t u) : WorldKept s u :=
  ⟨h'.script.trans h.script, h'.turns.trans h.turns, h'.inReset.trans h.inReset, fun w => h'.vars (h.vars w)⟩

theorem worldKept_advance (s : State) : WorldKept s (advance s) := ⟨rfl, rfl, rfl, id⟩

theorem worldKept_writeVar (r : Nat) (v : Word) (s : State) : WorldKept s (writeVar r v s) :=
  ⟨rfl, rfl, rfl, fun w => setVarIn_wf w (Nat.zero_le r) v⟩

theorem worldKept_readAccess (a : Offset) (s : State) : WorldKept s (readAccess a s) := ⟨rfl, rfl, rfl, id⟩

theorem worldKept_writeAccess (a : Offset) (v : Word) (s : State) : WorldKept s (writeAccess a v s) :=
  ⟨rfl, rfl, rfl, id⟩

theorem sameBlock_writeAccess (a : Offset) (v : Word) (s : State) : SameBlock (busWrite a v s).2 (writeAccess a v s) := rfl

/-! ## The HOST's turn -/

/-- The write the HOST's next statement makes, if it makes one. -/
def stmtWrite (st : Stmt) (s : State) : Option (Offset × Word) :=
  match st with
  | .wr off v => some (off, v)
  | .cmd c => if c.assembles then some (cmdOffset, encode c) else none
  | .word v => some (cmdOffset, v)
  | .wrr off r => some (off, readVar r s)
  | _ => none

theorem hostWrite_cases (a : Offset) (v : Word) (s : State) :
    (s.env.inReset = true ∧ hostWrite a v s = s) ∨
    (s.env.inReset = false ∧ hostWrite a v s = advance (writeAccess a v s)) := by
  cases h : s.env.inReset <;> simp [hostWrite, h]

theorem hostRead_cases (r : Nat) (a : Offset) (s : State) :
    (s.env.inReset = true ∧ hostRead r a s = s) ∨
    (s.env.inReset = false ∧ hostRead r a s = advance (writeVar r (busRead a s).2 (readAccess a s))) := by
  cases h : s.env.inReset <;> simp [hostRead, h]

theorem jump_cases {l : Target} {s t : State} (h : jump l s = .next t) :
    ∃ n, targetPos s.env.script s.env.pos l = some n ∧ t = { s with env := { s.env with pos := n } } := by
  unfold jump at h
  split at h
  · next n hn => cases h; exact ⟨n, hn, rfl⟩
  · cases h

theorem branch_cases {b : Bool} {l : Target} {s t : State} (h : branch b l s = .next t) :
    ∃ n, t = { s with env := { s.env with pos := n } } := by
  unfold branch at h
  split at h
  · obtain ⟨n, _, e⟩ := jump_cases h; exact ⟨n, e⟩
  · cases h; exact ⟨_, rfl⟩

/-- What one statement can do to the block: nothing, or its one bus write. -/
theorem runStmt_cases {st : Stmt} {s t : State} (h : runStmt st s = .next t) :
    WorldKept s t ∧ (SameBlock s t ∨
      ∃ a v, stmtWrite st s = some (a, v) ∧ s.env.inReset = false ∧ SameBlock (busWrite a v s).2 t) := by
  have wcase : ∀ a v, stmtWrite st s = some (a, v) → t = hostWrite a v s → WorldKept s t ∧ (SameBlock s t ∨
      ∃ a v, stmtWrite st s = some (a, v) ∧ s.env.inReset = false ∧ SameBlock (busWrite a v s).2 t) := by
    intro a v hw e
    subst e
    rcases hostWrite_cases a v s with ⟨_, e⟩ | ⟨hr, e⟩
    · rw [e]; exact ⟨worldKept_refl s, .inl rfl⟩
    · rw [e]
      exact ⟨worldKept_trans (worldKept_writeAccess a v s) (worldKept_advance _), .inr ⟨a, v, hw, hr, rfl⟩⟩
  have bcase : ∀ b l, branch b l s = .next t → WorldKept s t ∧ (SameBlock s t ∨
      ∃ a v, stmtWrite st s = some (a, v) ∧ s.env.inReset = false ∧ SameBlock (busWrite a v s).2 t) := by
    intro b l hb
    obtain ⟨n, rfl⟩ := branch_cases hb
    exact ⟨⟨rfl, rfl, rfl, id⟩, .inl rfl⟩
  cases st with
  | wr off v => cases h; exact wcase off v rfl rfl
  | rd r off =>
    cases h
    rcases hostRead_cases r off s with ⟨_, e⟩ | ⟨_, e⟩ <;> rw [e]
    · exact ⟨worldKept_refl s, .inl rfl⟩
    · exact ⟨worldKept_trans (worldKept_readAccess off s)
        (worldKept_trans (worldKept_writeVar r _ _) (worldKept_advance _)), .inl rfl⟩
  | cmd c =>
    simp only [runStmt] at h
    split at h
    · next hc => cases h; exact wcase _ _ (by simp [stmtWrite, hc]) rfl
    · cases h
  | word v => cases h; exact wcase _ v rfl rfl
  | wrr off r => cases h; exact wcase off _ rfl rfl
  | li r v => cases h; exact ⟨worldKept_trans (worldKept_writeVar r v s) (worldKept_advance _), .inl rfl⟩
  | addi r v => cases h; exact ⟨worldKept_trans (worldKept_writeVar r _ s) (worldKept_advance _), .inl rfl⟩
  | bset r b l => exact bcase _ l h
  | bclr r b l => exact bcase _ l h
  | bne r v l => exact bcase _ l h
  | label l => cases h; exact ⟨worldKept_advance s, .inl rfl⟩
  | halt => cases h; exact ⟨worldKept_refl s, .inl rfl⟩

/-! ## COMPLETE -/

/-- COMPLETE always has a next state: the world outside the block is as it was, BUSY = 0, DONE = 1 (R213). -/
theorem exec_next (i : Instr) (s : State) : ∃ t, exec i s = .next t := by
  rw [exec_eq_complete]
  cases commandResult i s <;> exact ⟨_, rfl⟩

theorem completeWord_next (w : Word) (s : State) : ∃ t, completeWord w s = .next t := by
  unfold completeWord
  split
  · exact ⟨_, rfl⟩
  · exact exec_next _ s

/-- COMPLETE of a word: an illegal one ends in code 1, the others run their command. -/
theorem completeWord_cases {w : Word} {s t : State} (h : completeWord w s = .next t) :
    ((∃ e, decode w = .error e) ∧ t = finishErr .illegalCmd s) ∨
    ∃ i, decode w = .ok i ∧ exec i s = .next t := by
  unfold completeWord at h
  split at h
  · next e he => cases h; exact .inl ⟨⟨e, he⟩, rfl⟩
  · next i hi => exact .inr ⟨i, hi, h⟩

/-- A command's writes touch no part of the world outside the block, nor BUSY and DONE before the end. -/
theorem commandResult_env {i : Instr} {s u : State} (h : commandResult i s = .ok u) : u.env = s.env := by
  cases i with
  | nop => cases h; rfl
  | clear => cases h; rfl
  | derive =>
    simp only [commandResult, deriveResult] at h
    split at h <;> cases h; rfl
  | hmac a =>
    simp only [commandResult, hmacResult] at h
    repeat' (split at h)
    all_goals cases h
    rfl
  | trunc =>
    simp only [commandResult, truncResult] at h
    split at h <;> cases h; rfl
  | reduce d =>
    simp only [commandResult, reduceResult] at h
    repeat' (split at h)
    all_goals cases h
    rfl
  | format =>
    simp only [commandResult, formatResult] at h
    split at h <;> cases h; rfl
  | hotp a d =>
    simp only [commandResult, hotpResult] at h
    repeat' (split at h)
    all_goals cases h
    rfl
  | totp a d =>
    simp only [commandResult, totpResult, hotpResult] at h
    repeat' (split at h)
    all_goals cases h
    rfl

theorem exec_env {i : Instr} {s t : State} (h : exec i s = .next t) : t.env = s.env := by
  rcases exec_cases h with ⟨u, hu, rfl⟩ | ⟨c, _, rfl⟩
  · rw [finishOk_env, commandResult_env hu]
  · rfl

theorem exec_retires {i : Instr} {s t : State} (h : exec i s = .next t) : t.pending = none ∧ t.done = true := by
  rcases exec_cases h with ⟨u, _, rfl⟩ | ⟨c, _, rfl⟩ <;> exact ⟨rfl, rfl⟩

theorem completeWord_env {w : Word} {s t : State} (h : completeWord w s = .next t) : t.env = s.env := by
  rcases completeWord_cases h with ⟨_, rfl⟩ | ⟨i, _, hi⟩
  · rfl
  · exact exec_env hi

theorem completeWord_retires {w : Word} {s t : State} (h : completeWord w s = .next t) :
    t.pending = none ∧ t.done = true := by
  rcases completeWord_cases h with ⟨_, rfl⟩ | ⟨i, _, hi⟩
  · exact ⟨rfl, rfl⟩
  · exact exec_retires hi

/-! ## The step -/

theorem step_eq_takeTurn (s : State) : step s = takeTurn (nextTurn s).1 (turnState s) := rfl

theorem step_of_turn {s : State} {tn : Turn} {ts : List Turn} (h : s.env.turns = tn :: ts) :
    step s = takeTurn tn { s with env := { s.env with turns := ts } } := by
  simp [step_eq_takeTurn, turnState, nextTurn, h]

theorem step_of_no_turn {s : State} (h : s.env.turns = []) : step s = takeTurn (defaultTurn s) s := by
  have e : turnState s = s := by
    have h2 : (nextTurn s).2 = s.env.turns := by simp [nextTurn, h]
    rw [turnState, h2]
  rw [step_eq_takeTurn, e]
  simp [nextTurn, h]

/-- What a step can do, once. `u` below is the state the turn is taken in: s, its schedule moved on. -/
inductive StepEffect (s t : State) : Prop where
  /-- Nothing to the block. -/
  | still (turn : (nextTurn s).1 ≠ .reset) (block : SameBlock s t)
  /-- One bus write, reset not asserted. -/
  | wrote (a : Offset) (v : Word) (write : turnWrite s = some (a, v)) (calm : s.env.inReset = false)
      (block : SameBlock (busWrite a v s).2 t)
  /-- One COMPLETE. -/
  | completed (w : Word) (turn : (nextTurn s).1 = .engine) (word : s.pending = some w)
      (result : completeWord w (turnState s) = .next t)
  /-- The reset event. -/
  | reset (turn : (nextTurn s).1 = .reset) (block : SameBlock State.reset t) (asserted : t.env.inReset = true)

theorem sameBlock_busWrite_turnState {a : Offset} {v : Word} {s t : State}
    (h : SameBlock (busWrite a v (turnState s)).2 t) : SameBlock (busWrite a v s).2 t := by
  rw [turnState, busWrite_with_env] at h
  exact h

theorem turnWrite_host {s : State} (hr : s.env.inReset = false) (ht : (nextTurn s).1 = .host) {st : Stmt}
    (hs : s.env.script[s.env.pos]? = some st) : turnWrite s = stmtWrite st s := by
  unfold turnWrite stmtWrite
  rw [hr, ht]
  simp only [Bool.false_eq_true, ↓reduceIte, hs]
  cases st <;> rfl

/-- What a step can do to the block, and what it keeps of the world. -/
theorem step_cases {s t : State} (h : step s = .next t) :
    StepEffect s t ∧ t.env.script = s.env.script ∧ t.env.turns = (nextTurn s).2 ∧
      (varsWf 0 s.env.vars = true → varsWf 0 t.env.vars = true) ∧
      (t.env.inReset = true → s.env.inReset = true ∨ (nextTurn s).1 = .reset) := by
  rw [step_eq_takeTurn] at h
  cases ht : (nextTurn s).1 with
  | host =>
    rw [ht] at h
    have hh : hostStep (turnState s) = .next t := h
    unfold hostStep at hh
    split at hh
    · cases hh
      exact ⟨.still (by simp [ht]) rfl, rfl, rfl, id, .inl⟩
    · next st hst =>
      have hst' : s.env.script[s.env.pos]? = some st := hst
      obtain ⟨hk, hb⟩ := runStmt_cases hh
      refine ⟨?_, hk.script, hk.turns, hk.vars, fun e => .inl (hk.inReset ▸ e)⟩
      rcases hb with hb | ⟨a, v, hw, hr, hb⟩
      · exact .still (by simp [ht]) hb
      · exact .wrote a v ((turnWrite_host (s := s) hr ht hst').trans hw) hr (sameBlock_busWrite_turnState hb)
  | bus acc =>
    rw [ht] at h
    have hh : busStep acc (turnState s) = t := by cases h; rfl
    cases hr : s.env.inReset with
    | true =>
      have e : busStep acc (turnState s) = turnState s := by simp [busStep, hr]
      rw [e] at hh
      subst hh
      exact ⟨.still (by simp [ht]) rfl, rfl, rfl, id, fun _ => .inl rfl⟩
    | false =>
      have e : busStep acc (turnState s) = access acc (turnState s) := by simp [busStep, hr]
      rw [e] at hh
      cases acc with
      | read addr =>
        simp only [access] at hh
        split at hh <;> subst hh <;> exact ⟨.still (by simp [ht]) rfl, rfl, rfl, id, fun e => .inl (hr.symm.trans e)⟩
      | write addr v =>
        simp only [access] at hh
        split at hh
        · subst hh; exact ⟨.still (by simp [ht]) rfl, rfl, rfl, id, fun e => .inl (hr.symm.trans e)⟩
        · next off hoff =>
          subst hh
          exact ⟨.wrote off v (by simp [turnWrite, hr, ht, hoff]) hr
            (sameBlock_busWrite_turnState (sameBlock_writeAccess off v _)), rfl, rfl, id, fun e => .inl (hr.symm.trans e)⟩
  | engine =>
    rw [ht] at h
    have hh : engineStep (turnState s) = .next t := h
    unfold engineStep at hh
    split at hh
    · cases hh
      exact ⟨.still (by simp [ht]) rfl, rfl, rfl, id, .inl⟩
    · next w hw =>
      have he := completeWord_env hh
      exact ⟨.completed w ht hw hh, by rw [he]; rfl, by rw [he]; rfl, by rw [he]; exact id, by rw [he]; exact .inl⟩
  | reset =>
    rw [ht] at h
    have hh : assertReset (turnState s) = t := by cases h; rfl
    subst hh
    exact ⟨.reset ht rfl rfl, rfl, rfl, id, fun _ => .inr rfl⟩
  | release =>
    rw [ht] at h
    have hh : releaseReset (turnState s) = t := by cases h; rfl
    subst hh
    exact ⟨.still (by simp [ht]) rfl, rfl, rfl, id, fun e => by cases e⟩

/-- A turn that makes a write has a next state, and the block in it is as the write leaves it. -/
theorem step_of_turnWrite {s : State} {a : Offset} {v : Word} (hw : turnWrite s = some (a, v)) :
    ∃ t, step s = .next t ∧ SameBlock (busWrite a v s).2 t := by
  have hr : s.env.inReset = false := by
    cases h : s.env.inReset
    · rfl
    · simp [turnWrite, h] at hw
  rw [step_eq_takeTurn]
  cases ht : (nextTurn s).1 with
  | host =>
    have hwr : ∀ a v, takeTurn .host (turnState s) = .next (hostWrite a v (turnState s)) →
        ∃ t, takeTurn .host (turnState s) = .next t ∧ SameBlock (busWrite a v s).2 t := by
      intro a v e
      refine ⟨_, e, sameBlock_busWrite_turnState ?_⟩
      have e2 : hostWrite a v (turnState s) = advance (writeAccess a v (turnState s)) := by simp [hostWrite, hr]
      rw [e2]; rfl
    cases hst : s.env.script[s.env.pos]? with
    | none => simp [turnWrite, hr, ht, hst] at hw
    | some st =>
      rw [turnWrite_host hr ht hst] at hw
      have hrun : takeTurn .host (turnState s) = runStmt st (turnState s) := by
        simp only [takeTurn, hostStep]
        rw [show (turnState s).env.script[(turnState s).env.pos]? = some st from hst]
      cases st with
      | wr off v => cases hw; exact hwr _ _ hrun
      | cmd c =>
        simp only [stmtWrite] at hw
        split at hw
        · next hc => cases hw; exact hwr _ _ (hrun.trans (by simp [runStmt, hc]))
        · cases hw
      | word v => cases hw; exact hwr _ _ hrun
      | wrr off r => cases hw; exact hwr _ _ hrun
      | _ => cases hw
  | bus acc =>
    cases acc with
    | read addr => simp [turnWrite, hr, ht] at hw
    | write addr x =>
      simp only [turnWrite, hr, ht, Bool.false_eq_true, ↓reduceIte, Option.map_eq_some_iff] at hw
      obtain ⟨off, hoff, e⟩ := hw
      cases e
      refine ⟨_, rfl, sameBlock_busWrite_turnState ?_⟩
      have e2 : busStep (.write addr v) (turnState s) = writeAccess a v (turnState s) := by
        simp [busStep, hr, access, hoff]
      rw [e2]; rfl
  | engine => simp [turnWrite, hr, ht] at hw
  | reset => simp [turnWrite, hr, ht] at hw
  | release => simp [turnWrite, hr, ht] at hw

/-- A run, one step at a time. -/
theorem run_succ {M : Host.Core} {k : Nat} {s t : M.State} (h : M.step s = .next t) : M.run (k + 1) s = M.run k t := by
  simp only [Host.Core.run, h]

end Sys2Proof.Machine
end

