-- ==== Sys2Proof/Tests/Slice0.lean ====
section
/-! SUPPORT. Tests, each on one step or one function, with values taken from the spec (the vector or rule stands beside
each), and for every obligation with hypotheses a concrete input that meets them. -/

namespace Sys2Proof.Tests

set_option Elab.async false

open Sys2Proof.Machine Sys2Proof.Safety Sys2Proof.Claims

/-! ## Small states -/

/-- A machine with a secret loaded, CTR and TIME set (T0 = 0, STEP = 30 from reset). -/
def keyed (key : List Byte) (ctr time : DWord) : State :=
  { State.reset with key := bufferOf _ key, keylen := BitVec.ofNat 8 key.length, ctr := ctr, time := time }

/-- The spec's key K32 (95 section 1). -/
def keyK32 : List Byte := keyK20 ++ keyK20.take 12

/-- The spec's key K64 (95 section 1). -/
def keyK64 : List Byte := keyK20 ++ keyK20 ++ keyK20 ++ keyK20.take 4

/-- The first n bytes of "0123456789" repeated (95 section 3.4). -/
def keyDigits (n : Nat) : List Byte := (List.range n).map fun i => BitVec.ofNat 8 (0x30 + i % 10)

/-- A machine with a command pending. -/
def busy (w : Word) : State := { keyed keyK20 7 59 with pending := some w }

/-- A machine whose four stages hold a result: P = 42, OTP = 42 with 6 digits. -/
def staged : State :=
  { State.reset with dv := true, pv := true, ov := true, p := 42, otp := 42, odig := 6 }

/-- The same machine with a schedule. -/
def withTurns (ts : List Turn) (s : State) : State := { s with env := { s.env with turns := ts } }

/-- The next state of an outcome. -/
def nextOf : Host.Outcome State Fault Refusal → Option State
  | .next t => some t
  | _ => none

/-- STATUS after an outcome. -/
def statusAfter (o : Host.Outcome State Fault Refusal) : Option Word := (nextOf o).map statusWord

/-- DIGEST after an outcome, as one number of 64 bytes. -/
def digestAfter (o : Host.Outcome State Fault Refusal) : Option Nat := (nextOf o).map fun t => beNat t.digest.toList

/-- CTR, OFFSET, P, OTP after an outcome. -/
def valuesAfter (o : Host.Outcome State Fault Refusal) : Option (Nat × Nat × Nat × Nat) :=
  (nextOf o).map fun t => (t.ctr.toNat, t.truncOffset.toNat, t.p.toNat, t.otp.toNat)

/-- CODE0, CODE1, CODE2 after an outcome. -/
def codeAfter (o : Host.Outcome State Fault Refusal) : Option (Word × Word × Word) :=
  (nextOf o).map fun t => (wordAt t.code 0, wordAt t.code 1, wordAt t.code 2)

/-! ## WellFormed refuses what has no encoding (R94), the assembler what R101 refuses -/

theorem test_reduce_16_ill_formed : (Instr.reduce 16).wellFormed = false := by decide
theorem test_hotp_16_ill_formed : (Instr.hotp .sha1 16).wellFormed = false := by decide
theorem test_totp_16_ill_formed : (Instr.totp .reserved 16).wellFormed = false := by decide
theorem test_reduce_15_well_formed : (Instr.reduce 15).wellFormed = true := by decide
theorem test_hmac_reserved_not_assembled : (Instr.hmac .reserved).assembles = false := by decide
theorem test_reduce_0_not_assembled : (Instr.reduce 0).assembles = false := by decide
theorem test_hotp_11_not_assembled : (Instr.hotp .sha256 11).assembles = false := by decide
theorem test_totp_reserved_not_assembled : (Instr.totp .reserved 6).assembles = false := by decide

/-! ## Decoding: words written out from R91 (95 section 3.1) -/

/-- OP 0 with ALG 11 and DIGITS 1111, both ignored. -/
theorem test_decode_nop : decode 0b00000000000000000000_1111_00_11_0000 = .ok .nop := by decide
theorem test_decode_clear : decode 0b00000000000000000000_0000_00_00_0001 = .ok .clear := by decide
theorem test_decode_derive : decode 0b00000000000000000000_1111_00_11_0010 = .ok .derive := by decide
theorem test_decode_hmac : decode 0b00000000000000000000_0000_00_01_0011 = .ok (.hmac .sha256) := by decide
theorem test_decode_hmac_reserved : decode 0b00000000000000000000_1111_00_11_0011 = .ok (.hmac .reserved) := by decide
theorem test_decode_trunc : decode 0b00000000000000000000_0000_00_11_0100 = .ok .trunc := by decide
theorem test_decode_reduce : decode 0b00000000000000000000_1010_00_11_0101 = .ok (.reduce 10) := by decide
theorem test_decode_format : decode 0b00000000000000000000_0011_00_00_0110 = .ok .format := by decide
theorem test_decode_hotp : decode 0b00000000000000000000_0110_00_00_0111 = .ok (.hotp .sha1 6) := by decide
theorem test_decode_totp : decode 0b00000000000000000000_1010_00_10_1000 = .ok (.totp .sha512 10) := by decide
theorem test_decode_illegal :
    decode 0x00000009 = .error .reservedOp ∧ decode 0x0000000F = .error .reservedOp ∧
    decode 0x00000048 = .error .reservedBits ∧ decode 0x00000088 = .error .reservedBits ∧
    decode 0x00001008 = .error .reservedBits ∧ decode 0x80000000 = .error .reservedBits := by decide
theorem test_decodeTableWord :
    decodeTableWord 32 0x00000828 = some (.totp .sha512 8) ∧ decodeTableWord 32 0x00000009 = none := by decide
/-- The words of R101. -/
theorem test_encode :
    encode (.hmac .sha512) = 0x00000023 ∧ encode (.reduce 10) = 0x00000A05 ∧ encode (.hotp .sha1 6) = 0x00000607 ∧
    encode (.totp .sha256 8) = 0x00000818 ∧ encode .format = 0x00000006 := by decide

/-! ## Hashing and HMAC -/

/-- SHA-1 of the 65-byte key (95 section 3.4): two blocks. -/
theorem test_sha1_two_blocks : beNat (sha1 (keyDigits 65)) = 0x92de3a8444fe6d15268f0ba810aa43bc8b3a4ffe := by
  decide +kernel

/-- Key-length corners (95 section 3.4): n = 64 is used as it is, n = 65 is hashed first. -/
theorem test_hmac_sha1_corner :
    beNat (hmac .sha1 (keyDigits 64) (serialize 0)) = 0x87b20f37050b601fb4e019da3856da87636b1691 ∧
    beNat (hmac .sha1 (keyDigits 65) (serialize 0)) = 0x5667d4788b9d7ae0d8170196485cf5ec13c91cbc := by decide +kernel

theorem test_hmac_sha256_corner :
    beNat (hmac .sha256 (keyDigits 64) (serialize 0)) = 0xfb2d29ad18d35eeacb126f77ff2cdaee0652ae47ba7623582e01650d8683cb6c ∧
    beNat (hmac .sha256 (keyDigits 65) (serialize 0)) = 0x8f4bd562eda0d8ed7bd5b2aae38f14f56400386f7d9305456493e299d09aa888 := by
  decide +kernel

theorem test_hmac_sha512_corner : beNat (hmac .sha512 (keyDigits 128) (serialize 0)) =
    0xc15eeb6f17614da232d5f73b827de515305a83f672666ecb5518ccbb40e9b81ab7cb30f41392bf76a4431c635b7ded0600a489059427cf88b4c9f9f16574391b := by
  decide +kernel

theorem test_serialize : serialize 0x0102030405060708 = [0x01, 0x02, 0x03, 0x04, 0x05, 0x06, 0x07, 0x08] := by decide

/-! ## The commands (95 sections 1 to 3) -/

/-- Section 3.8: nop from reset. -/
theorem test_nop : statusAfter (exec .nop State.reset) = some 0x00000002 := by decide +kernel

/-- Section 3.8: clear after a result with OVR = 1: STATUS 0x0000000A, CTR and TIME kept. -/
theorem test_clear :
    statusAfter (exec .clear { staged with ovr := true, ctr := 1 }) = some 0x0000000A ∧
    valuesAfter (exec .clear { staged with ovr := true, ctr := 1 }) = some (1, 0, 0, 0) := by decide +kernel

/-- Section 3.2. -/
theorem test_derive :
    (valuesAfter (exec .derive (keyed [] 0 20000000000))).map (·.1) = some 0x0000000027BC86AA ∧
    (valuesAfter (exec .derive { keyed [] 0 0xFFFFFFFFFFFFFFFF with stepSecs := 0xFFFFFFFF })).map (·.1)
      = some 0x0000000100000001 := by decide +kernel

/-- Section 3.2: the errors; code 6 wins over 7. -/
theorem test_derive_errors :
    statusAfter (exec .derive { keyed [] 3 5 with t0 := 10 }) = some 0x00000706 ∧
    statusAfter (exec .derive { keyed [] 3 5 with t0 := 10, stepSecs := 0 }) = some 0x00000606 := by decide +kernel

/-- Section 3.4: hmac.sha512 with K64 at CTR 1. -/
theorem test_hmac :
    digestAfter (exec (.hmac .sha512) (keyed keyK64 1 0)) =
      some 0x6F76F324230CEFDA1D3F65309A0BADB36EFCE9528ADA64967D71E4E9D74C4AA37FE7650F931AB86DDCCC2D38962D720EE626A20FEB311B485A92E3BB0796DF28 ∧
    statusAfter (exec (.hmac .sha512) (keyed keyK64 1 0)) = some 0x00002012 := by decide +kernel

/-- Section 3.4: KEYLEN = 129; a non-ASCII key with and without ASCII_ONLY. -/
theorem test_hmac_keys :
    statusAfter (exec (.hmac .sha512) { State.reset with keylen := 129 }) = some 0x00000406 ∧
    statusAfter (exec (.hmac .sha1) (keyed [0x80] 0 0)) = some 0x00000506 ∧
    digestAfter (exec (.hmac .sha1) { keyed [0x80] 0 0 with asciiOnly := false }) =
      some (0x47bb0066f1de85873b0e12209f42fbf66a8c3532 * 2 ^ 352) := by decide +kernel

/-- Section 3.5: the length is that of the held digest's algorithm (D36): a SHA-512 digest whose byte 63 is 0x28 and
byte 19 is 0x52. -/
theorem test_trunc : (nextOf (exec .trunc { State.reset with
      dv := true, dalg := .sha512
      digest := bufferOf _ (hmac .sha512 keyK64 (serialize 1)) })).map (fun t => (t.truncOffset, t.p, statusWord t)) =
    some (8, 0x1D3F6530, 0x00002032) := by decide +kernel

theorem test_trunc_not_ready : statusAfter (exec .trunc State.reset) = some 0x00000806 := by decide +kernel

/-- Section 3.6. -/
theorem test_reduce :
    (nextOf (exec (.reduce 6) { State.reset with dv := true, pv := true, p := 0x4C93CF18 })).map
      (fun t => (t.otp, statusWord t)) = some (0x000B8618, 0x00060072) ∧
    (nextOf (exec (.reduce 10) { State.reset with dv := true, pv := true, p := 0x7FFFFFFF })).map (·.otp)
      = some 0x7FFFFFFF := by decide +kernel

/-- Section 3.6 and V-S7: code 3 is checked before code 8. -/
theorem test_reduce_errors :
    statusAfter (exec (.reduce 11) State.reset) = some 0x00000306 ∧
    statusAfter (exec (.reduce 8) State.reset) = some 0x00000806 := by decide +kernel

/-- V-S5, and ten zero digits (section 3.7). -/
theorem test_format :
    codeAfter (exec .format staged) = some (0x30303030, 0x34320000, 0x00000000) ∧
    codeAfter (exec .format { staged with otp := 0, odig := 10 }) = some (0x30303030, 0x30303030, 0x30300000) := by
  decide +kernel

theorem test_format_not_ready : statusAfter (exec .format State.reset) = some 0x00000806 := by decide +kernel

/-- V-H0 and the last counter (section 3.9). -/
theorem test_hotp :
    codeAfter (exec (.hotp .sha1 6) (keyed keyK20 0 0)) = some (0x37353532, 0x32340000, 0) ∧
    valuesAfter (exec (.hotp .sha1 10) (keyed keyK20 0xFFFFFFFFFFFFFFFF 0)) =
      some (0xFFFFFFFFFFFFFFFF, 10, 0x6320CEB3, 1663094451) := by decide +kernel

/-- Section 3.9: codes 2, 3, 4 in that order. -/
theorem test_hotp_errors :
    statusAfter (exec (.hotp .reserved 0) State.reset) = some 0x00000206 ∧
    statusAfter (exec (.hotp .sha1 0) State.reset) = some 0x00000306 ∧
    statusAfter (exec (.hotp .sha1 6) State.reset) = some 0x00000406 := by decide +kernel

/-- V-S1 at 1111111109 (a leading zero) and V-S2 at 20000000000. -/
theorem test_totp :
    codeAfter (exec (.totp .sha1 8) (keyed keyK20 0 1111111109)) = some (0x30373038, 0x31383034, 0) ∧
    valuesAfter (exec (.totp .sha256 8) (keyed keyK32 0 20000000000)) = some (0x27BC86AA, 8, 0x2E5B55EA, 77737706) := by
  decide +kernel

/-- V-S3 at 59, and key checks before counter checks (section 3.10). -/
theorem test_totp_status :
    statusAfter (exec (.totp .sha512 8) (keyed keyK64 0 59)) = some 0x000820F2 ∧
    statusAfter (exec (.totp .sha1 8) { keyed [] 0 5 with t0 := 10, stepSecs := 0 }) = some 0x00000406 := by
  decide +kernel

/-! ## The bus, STATUS, the interrupt, reset (95 sections 3.11 to 3.14) -/

theorem test_bus_reads :
    busRead 0x000 State.reset = (.okay, 0x544F5450) ∧ busRead 0x004 State.reset = (.okay, 0x00800A07) ∧
    busRead 0x002 State.reset = (.error, 0) ∧ busRead 0x044 State.reset = (.error, 0) ∧
    busRead 0x1CC State.reset = (.error, 0) ∧ busRead 0x100 (keyed keyK20 0 0) = (.okay, 0) := by decide +kernel

theorem test_bus_writes :
    busRead 0x018 (busWrite 0x018 0x000001FF State.reset).2 = (.okay, 0x000000FF) ∧
    busRead 0x010 (busWrite 0x010 0xFFFFFFFF State.reset).2 = (.okay, 0x00000001) ∧
    busRead 0x014 (busWrite 0x014 0x00000003 State.reset).2 = (.okay, 0x00000001) ∧
    (busWrite 0x034 0x05060708 (busWrite 0x030 0x01020304 State.reset).2).2.ctr = 0x0102030405060708 := by
  decide +kernel

/-- K20's first key word (R104) lands in KEY[0..3], most significant byte first (R69). -/
theorem test_key_write : ((busWrite 0x100 0x31323334 State.reset).2.key.toList.take 5) = [0x31, 0x32, 0x33, 0x34, 0] := by
  decide +kernel

/-- Section 3.12, from STATUS = 0x0000080E. -/
theorem test_status_clears :
    let s := { State.reset with done := true, err := true, errcode := 8, ovr := true }
    statusWord s = 0x0000080E ∧ statusWord (busWrite 0x00C 0x2 s).2 = 0x0000080C ∧
    statusWord (busWrite 0x00C 0x6 s).2 = 0x00000008 ∧ statusWord (busWrite 0x00C 0xFFFFFFF1 s).2 = 0x0000080E := by
  decide +kernel

/-- Section 3.12: writes while a TOTP is pending. -/
theorem test_busy_writes :
    (busWrite 0x024 60 (busy 0x808)).2 = { busy 0x808 with ovr := true } ∧
    (busWrite 0x008 0 (busy 0x808)).2 = { busy 0x808 with ovr := true } ∧
    (busWrite 0x014 1 (busy 0x808)).2 = { busy 0x808 with doneIe := true } := by decide +kernel

/-- Section 3.13. -/
theorem test_irq :
    irq State.reset = false ∧ (nextOf (exec .nop { State.reset with doneIe := true })).map irq = some true ∧
    irq (busWrite 0x00C 0x2 { State.reset with doneIe := true, done := true }).2 = false ∧
    irq (busWrite 0x008 0 { State.reset with doneIe := true, done := true }).2 = false := by decide +kernel

/-- Section 3.14: a reset while a TOTP is pending. -/
theorem test_reset :
    (nextOf (step (withTurns [.reset] (busy 0x808)))).map (fun t => (t.done, t.ctr, t.pending, statusWord t)) =
      some (false, 0, none, 0) := by decide +kernel

/-- The engine's turn runs the pending word; the host's turn runs its next statement (R102). -/
theorem test_step :
    (nextOf (step (State.reset.withFetchWord 32 0x00000009))).map statusWord = some 0x00000106 ∧
    (nextOf (step { State.reset with env := { Env.initial with script := [.wr 0x018 20] } })).map
      (fun t => (t.keylen, t.env.pos)) = some (20, 1) := by decide +kernel

/-- `wait`: the branch back to the nearest label 1 before it (R103). -/
theorem test_wait_loops :
    (nextOf (step { State.reset with env := { Env.initial with
      script := waitStmts ++ waitStmts, pos := 5, vars := [(0, 1)] } })).map (fun t => t.env.pos) = some 3 := by
  decide +kernel

/-- R101: a line and its word. -/
theorem test_assemble : assemble "TOTP.SHA256 8".toList = some 0x00000818 ∧ assemble "reduce 11".toList = none := by
  decide +kernel

/-! ## Witnesses: inputs that meet the hypotheses of each obligation, each clause at the ends of its range -/

/-- A machine whose HOST runs this one statement next. -/
def scripted (st : Stmt) (s : State) : State :=
  { s with env := { s.env with turns := [.host], script := [st], pos := 0 } }

/-- A secret with a byte that is not ASCII. -/
def keyed80 : State := keyed [0x80] 0 0

/-- The smallest and the largest legal secret; a byte of 0x80 is legal when ASCII_ONLY = 0. -/
theorem witness_keyed :
    KeyedOK .sha1 .sha1 (keyed [0x7F] 0 0) ∧ KeyedOK .sha256 .sha256 (keyed (keyDigits 128) 0 0) ∧
    KeyedOK .sha512 .sha512 { keyed80 with asciiOnly := false } := by decide +kernel

/-- The smallest and the largest illegal KEYLEN; an illegal secret of legal length. -/
theorem witness_keyed_errors :
    (algOf .sha1 = some .sha1 ∧ ¬ KeyLengthOK State.reset) ∧ ¬ KeyLengthOK { State.reset with keylen := 129 } ∧
    ¬ KeyLengthOK { State.reset with keylen := 255 } ∧ (KeyLengthOK keyed80 ∧ ¬ KeyEncodingOK keyed80) := by
  decide +kernel

theorem witness_digits :
    DigitsLegal 1 ∧ DigitsLegal 10 ∧ ¬ DigitsLegal 0 ∧ ¬ DigitsLegal 11 ∧ ¬ DigitsLegal 15 := by decide

theorem witness_DecodeFollowsMatchAndMask :
    Matches 0xF30 0 ∧ Matches 0xF31 1 ∧ Matches 0xF32 2 ∧ Matches 0xF33 3 ∧ Matches 0xF34 4 ∧ Matches 0xF35 5 ∧
    Matches 0xF36 6 ∧ Matches 0xF37 7 ∧ Matches 0xF38 8 ∧ Illegal 0x9 ∧ Illegal 0xF ∧ Illegal 0x40 ∧ Illegal 0x80 ∧
    Illegal 0x1000 ∧ Illegal 0x80000000 := by decide

theorem witness_UnusedFieldsAreIgnored :
    ((0xF30 : Word) &&& 0xFFFFF0CF = (0 : Word) &&& 0xFFFFF0CF ∧ (0xF30 : Word) &&& 0xF = 0) ∧
    ((0xF36 : Word) &&& 0xFFFFF0CF = (6 : Word) &&& 0xFFFFF0CF ∧ (0xF36 : Word) &&& 0xF = 6) ∧
    ((0xF23 : Word) &&& 0xFFFFF0CF = (0x23 : Word) &&& 0xFFFFF0CF ∧ (0xF23 : Word) &&& 0xF = 3 ∧
      (0xF23 : Word).extractLsb' 4 2 = (0x23 : Word).extractLsb' 4 2) ∧
    ((0xA35 : Word) &&& 0xFFFFF0CF = (0xA05 : Word) &&& 0xFFFFF0CF ∧ (0xA35 : Word) &&& 0xF = 5 ∧
      (0xA35 : Word).extractLsb' 8 4 = (0xA05 : Word).extractLsb' 8 4) := by decide

theorem witness_IllegalWordReportsCodeOne : Illegal 0x9 ∧ Illegal 0x80000000 ∧ isBusy State.reset = false := by decide

theorem witness_DecodeAndEncodeAgree :
    (Instr.reduce 0).wellFormed = true ∧ (Instr.totp .reserved 15).wellFormed = true ∧
    decode 0xF30 = .ok .nop ∧ decode 0xF38 = .ok (.totp .reserved 15) := by decide

theorem witness_AssemblerFollowsItsTable :
    (line "TOTP.SHA1 6").map Char.toLower = (line "totp.Sha1 6").map Char.toLower ∧
    assembleInstr (line "totp.sha1 6") = some (.totp .sha1 6) ∧
    assembleInstr (line "hmac.sha512") = some (.hmac .sha512) := by decide +kernel

theorem witness_StepRunsTheDecodedCommand :
    decode 0x808 = .ok (.totp .sha1 8) ∧ (busy 0x808).pending = some 0x808 ∧
    (withTurns [.engine, .host] (busy 0x808)).env.turns = .engine :: [.host] ∧
    (busy 0x808).env.turns = [] ∧ (busy 0x808).env.inReset = false := by decide +kernel

theorem witness_CmdWriteIssues :
    isBusy State.reset = false ∧ isBusy (busy 0) = true ∧ isBusy (busy 0xFFFFFFFF) = true := by decide

/-- A legal and an illegal word pending. -/
theorem witness_CommandSucceedsOrChangesNothing :
    (busy 0x0).pending = some 0x0 ∧ (busy 0xFFFFFFFF).pending = some 0xFFFFFFFF := by decide

theorem witness_NopOnlyCompletes :
    Matches 0xF30 0 ∧ isBusy staged = false ∧ isBusy (busy 0) = true ∧ ∃ t, issueAndComplete .nop staged = .next t :=
  ⟨by decide, rfl, rfl, _, rfl⟩

theorem witness_ClearZeroisesSecretAndResults :
    Matches 0xF31 1 ∧ algOf .sha512 = some .sha512 ∧ DigitsLegal 1 ∧ DigitsLegal 10 ∧ staged.err = false ∧
    staged.errcode = 0 ∧ staged.ovr = false := by decide

theorem witness_CompleteRetiresThePendingWord :
    State.reset.pending = none ∧ ((busy 0x9).pending = some 0x9 ∧ Illegal 0x9) ∧
    ((busy 0x808).pending = some 0x808 ∧ decode 0x808 = .ok (.totp .sha1 8)) := by decide +kernel

/-- A secret of one byte 0x80 and TIME < T0 with STEP = 0: every check of TOTP on the registers fails but KEY_LENGTH. -/
def manyFaults : State := { keyed [0x80] 0 0 with t0 := 1, stepSecs := 0 }

/-- No check below c fails. -/
theorem smallest {w : Word} {s : State} {c : Nat} (hc : c ≤ 8) (h : CheckFails w s c)
    (h' : ∀ x ∈ [1, 2, 3, 4, 5, 6, 7], x < c → ¬ CheckFails w s x) :
    CheckFails w s c ∧ ∀ c' < c, ¬ CheckFails w s c' := by
  refine ⟨h, fun c' hlt => ?_⟩
  by_cases h0 : c' = 0
  · subst h0
    exact fun hf => hf
  · exact h' c' (by simp; omega) hlt

/-- Each of the codes 1 to 8 is the smallest failing one somewhere, with larger ones failing beside it; and a word for
which none fails. -/
theorem witness_SmallestFailingCodeIsReported :
    (∀ x ∈ [((0x00000048 : Word), manyFaults, 1), (0x038, manyFaults, 2), (0x008, manyFaults, 3),
        (0x608, { manyFaults with keylen := 0 }, 4), (0x608, manyFaults, 5), (0x608, { manyFaults with asciiOnly := false }, 6),
        (0x002, { manyFaults with stepSecs := 1 }, 7), (0x605, manyFaults, 8)],
      CheckFails x.1 x.2.1 x.2.2 ∧ ∀ c' < x.2.2, ¬ CheckFails x.1 x.2.1 c') ∧
    ∀ c, ¬ CheckFails 0x000 manyFaults c := by
  refine ⟨fun x hx => ?_, fun c => ?_⟩
  · simp only [List.mem_cons, List.not_mem_nil, or_false] at hx
    rcases hx with rfl | rfl | rfl | rfl | rfl | rfl | rfl | rfl <;>
      exact smallest (by decide) (by simp only [CheckFails]; decide +kernel)
        (by
          simp only [List.forall_mem_cons, CheckFails, List.not_mem_nil, false_implies, implies_true, and_true]
          refine ⟨?_, ?_, ?_, ?_, ?_, ?_, ?_⟩ <;> decide +kernel)
  · unfold CheckFails
    split <;> decide +kernel

theorem witness_DeriveComputesTheTimeStep :
    TimeOK { State.reset with t0 := 5, time := 5 } ∧
    (TimeOK (keyed [] 0 0xFFFFFFFFFFFFFFFF) ∧ (keyed [] 0 0).t0 = 0) ∧
    TimeOK { State.reset with stepSecs := 1, time := 0xFFFFFFFFFFFFFFFF } ∧
    TimeOK { State.reset with stepSecs := 0xFFFFFFFF, time := 0xFFFFFFFE } ∧
    (TimeOK { State.reset with time := 59 } ∧ State.reset.stepSecs = 30 ∧ State.reset.t0 = 0) ∧
    { State.reset with stepSecs := 0 }.stepSecs = 0 ∧
    (State.reset.stepSecs ≠ 0 ∧ { State.reset with t0 := 1 }.time.toNat < { State.reset with t0 := 1 }.t0.toNat) := by
  decide +kernel

theorem witness_HmacWritesTheDigest :
    blockLen .sha1 < (keyDigits 65).length ∧ blockLen .sha512 < (keyDigits 129).length ∧
    (keyDigits 64).length = blockLen .sha256 ∧
    (∀ i < (keyed keyK20 0 0).keylen.toNat,
      byteAt (bufferOf 128 (keyK20 ++ [0xFF])) i = byteAt (keyed keyK20 0 0).key i) ∧
    bufferOf 128 (keyK20 ++ [0xFF]) ≠ (keyed keyK20 0 0).key ∧
    (nextOf (exec (.hmac .sha1) (keyed keyK20 0 0))).isSome = true := by decide +kernel

theorem witness_TruncSelectsTheWindow : Matches 0xF34 4 ∧ staged.dv = true ∧ State.reset.dv = false := by decide

theorem witness_ReduceTakesTheRemainder :
    Matches 0xA35 5 ∧ (DigitsLegal 1 ∧ DigitsLegal 10 ∧ staged.pv = true) ∧ ¬ DigitsLegal 0 ∧ ¬ DigitsLegal 11 ∧
    State.reset.pv = false := by decide

/-- REDUCE's, FORMAT's, HOTP's and TOTP's clauses; a result in range with one digit and the largest P with ten. -/
theorem witness_CodeReadsAsTheOtp :
    (DigitsLegal 10 ∧ staged.pv = true) ∧ (staged.ov = true ∧ OtpInRange staged) ∧
    OtpInRange { staged with otp := 0x7FFFFFFF, odig := 10 } ∧ OtpInRange { staged with otp := 9, odig := 1 } ∧
    (KeyedOK .sha1 .sha1 (keyed keyK20 0 59) ∧ TimeOK (keyed keyK20 0 59)) ∧
    KeyedOK .sha1 .sha1 { keyed keyK20 0 59 with stepSecs := 0 } := by decide +kernel

theorem witness_FormatWritesTheDigits :
    State.reset.ov = false ∧ staged.ov = true ∧ staged.otp = 42 ∧ staged.odig = 6 ∧ ∃ t, exec .format staged = .next t :=
  ⟨rfl, rfl, rfl, rfl, _, rfl⟩

/-- HOTP's success (with no valid bit set) and each of its errors. -/
theorem witness_HotpComputesThePassword :
    Matches 0x607 7 ∧ (KeyedOK .sha256 .sha256 (keyed keyK32 0 0) ∧ DigitsLegal 10) ∧ ¬ DigitsLegal 15 ∧
    (DigitsLegal 1 ∧ ¬ KeyLengthOK { State.reset with keylen := 129 }) ∧ KeyLengthOK keyed80 ∧ ¬ KeyEncodingOK keyed80 := by
  decide +kernel

/-- Everything the composites and their stages ask for, together. -/
theorem witness_CompositesEqualTheirStages :
    isBusy (keyed keyK20 0 59) = false ∧ KeyedOK .sha1 .sha1 (keyed keyK20 0 59) ∧ DigitsLegal 6 ∧
    TimeOK (keyed keyK20 0 59) := by decide +kernel

/-- TOTP's last two errors: a legal key and digit count with STEP = 0, and with TIME < T0. -/
theorem witness_TotpComputesThePassword :
    (DigitsLegal 1 ∧ KeyLengthOK (keyed keyK20 0 0) ∧ KeyEncodingOK (keyed keyK20 0 0)) ∧
    { keyed keyK20 0 0 with stepSecs := 0 }.stepSecs = 0 ∧ { keyed keyK20 0 0 with t0 := 1 }.stepSecs ≠ 0 ∧
    { keyed keyK20 0 0 with t0 := 1 }.time.toNat < { keyed keyK20 0 0 with t0 := 1 }.t0.toNat := by decide +kernel

/-- NOP (opcode 0) meets every clause's hypothesis; each other command meets some. -/
theorem witness_CommandFrame :
    (∃ t, exec .nop staged = .next t) ∧ opCode .nop ∉ [1, 2, 3, 4, 5, 6, 7, 8] ∧ (∃ t, exec .derive staged = .next t) ∧
    opCode .derive ∉ [1, 3, 4, 5, 6, 7, 8] ∧ opCode (.hmac .sha1) ∉ [1, 4, 7, 8] ∧ opCode .clear ∉ [2, 8] :=
  ⟨⟨_, rfl⟩, by decide, ⟨_, rfl⟩, by decide, by decide, by decide⟩

/-- Two different machines that agree on what TOTP reads. -/
theorem witness_CommandDependsOnlyOnItsOperands :
    let s := busy 0x808
    let s' := { busy 0x808 with key := bufferOf 128 (keyK20 ++ [0xFF]), p := 1, ctr := 9, ovr := true }
    s ≠ s' ∧ s.pending = some 0x808 ∧ s'.pending = some 0x808 ∧
    (∀ i, decode 0x808 = .ok i → OperandsAgree i s s') ∧ s.err = false ∧ s'.err = false ∧ s.errcode = 0 ∧
    s'.errcode = 0 := by
  refine ⟨by decide +kernel, rfl, rfl, fun i h => ?_, rfl, rfl, rfl, rfl⟩
  rw [show decode 0x808 = .ok (.totp .sha1 8) by decide] at h
  cases h
  exact ⟨⟨rfl, rfl, rfl⟩, rfl, rfl, by decide +kernel⟩

theorem witness_SameStepSameCounter :
    TimeOK (keyed keyK20 0 30) ∧ TimeOK { keyed keyK20 0 30 with time := 59 } ∧
    timeSteps { keyed keyK20 0 30 with time := 59 } = timeSteps (keyed keyK20 0 30) ∧
    KeyedOK .sha1 .sha1 (keyed keyK20 0 30) ∧ State.reset.t0 = 0 ∧ State.reset.stepSecs = 30 := by decide +kernel

theorem witness_SerializeIsBigEndian : 0 < 8 ∧ 7 < 8 ∧ serialize 1 = serialize (0x1 : DWord) := by decide

theorem witness_PaddingFillsWholeBlocks : 8 * (keyDigits 128).length < 2 ^ (8 * 8) ∧ 8 * 0 < 2 ^ (8 * 16) := by decide +kernel

theorem witness_SchedulesFollowTheirRecurrences :
    (List.replicate 16 (0 : Word)).length = 16 ∧ (List.replicate 16 (0 : DWord)).length = 16 := by decide

theorem witness_PrehashedKeyIsEquivalent :
    blockLen .sha1 < (keyDigits 65).length ∧ blockLen .sha256 < (keyDigits 65).length ∧
    blockLen .sha512 < (keyDigits 129).length := by decide +kernel

theorem witness_HmacBlockCounts :
    (serialize 0).length = 8 ∧ (65 ≤ (keyDigits 65).length ∧ (keyDigits 65).length ≤ 128) ∧
    (65 ≤ (keyDigits 128).length ∧ (keyDigits 128).length ≤ 128) := by decide +kernel

/-- Different buffers: agreeing up to byte 18 and in the offset's byte; agreeing below a length of 19; with offset 15,
agreeing from byte 15 to 18 alone, byte 19 differing in its high nibble. -/
theorem witness_WindowIsInsideTheDigest :
    let z := bufferOf 64 []
    let a := bufferOf 64 (List.replicate 19 0 ++ [1])
    let c := bufferOf 64 (List.replicate 19 0 ++ [0x0F])
    let e := bufferOf 64 (List.replicate 15 1 ++ List.replicate 4 0 ++ [0xFF])
    (z ≠ a ∧ byteAt z (64 - 1) = byteAt a (64 - 1) ∧ ∀ i ≤ 18, byteAt z i = byteAt a i) ∧
    (19 ≤ 19 ∧ ∀ i < 19, byteAt z i = byteAt a i) ∧
    (c ≠ e ∧ (byteAt c 19).toNat % 16 = 15 ∧ (byteAt e 19).toNat % 16 = 15 ∧
      ∀ i < 19, 15 ≤ i → byteAt c i = byteAt e i) := by
  decide +kernel

theorem witness_PseudoStatementsExpand : ([] : List Byte).length ≤ 128 ∧ (keyDigits 128).length ≤ 128 := by decide +kernel

/-- The ends of the reserved ranges and of the mapped ones. -/
theorem witness_BadOffsetsOnlyAnswerError :
    BadOffset 0x001 ∧ BadOffset 0x007 ∧ BadOffset 0x044 ∧ BadOffset 0x0FC ∧ BadOffset 0x1CC ∧ BadOffset 0x1FC ∧
    BadOffset 0x1FF ∧ ¬ BadOffset 0x000 ∧ ¬ BadOffset 0x040 ∧ ¬ BadOffset 0x100 ∧ ¬ BadOffset 0x1C8 := by decide

theorem witness_ReadOnlyAndWriteOnlyRegisters :
    readOnly .id = true ∧ readOnly (.digest 15) = true ∧ readOnly (.code 2) = true ∧ isBusy State.reset = false := by decide

theorem witness_WritesWhileBusyAreDropped :
    isBusy (busy 0x808) = true ∧ ¬ BadOffset 0x008 ∧ ¬ BadOffset 0x00C ∧ ¬ BadOffset 0x010 ∧ ¬ BadOffset 0x014 ∧
    ¬ BadOffset 0x1C8 := by decide

/-- A step that leaves the command pending: a polling read. -/
theorem witness_ReadsWhileBusyAreCommitted :
    isBusy (scripted (.rd 0 0x00C) (busy 0x808)) = true ∧
    ∃ t, step (scripted (.rd 0 0x00C) (busy 0x808)) = .next t ∧ isBusy t = true :=
  ⟨rfl, _, rfl, rfl⟩

/-- A step that leaves the command pending: a dropped write to an operand. -/
theorem witness_PendingOperandsAreStable :
    isBusy (scripted (.wr 0x024 60) (busy 0x808)) = true ∧
    ∃ t, step (scripted (.wr 0x024 60) (busy 0x808)) = .next t ∧ isBusy t = true :=
  ⟨rfl, _, rfl, rfl⟩

theorem witness_InputRegistersStoreWhatIsWritten :
    storedBits .ctrl = some 0x00000001 ∧ storedBits .keylen = some 0x000000FF ∧ storedBits .ctrLo = some 0xFFFFFFFF ∧
    isBusy State.reset = false := by decide

/-- Both ends of KEY, a byte outside the written word. -/
theorem witness_BuffersArePackedBigEndian :
    isBusy State.reset = false ∧ 4 / 4 ≠ (0 : Fin 32).val ∧ 123 / 4 ≠ (31 : Fin 32).val := by decide

theorem witness_InputWritesKeepTheStages : (0x100 : Offset) ≠ 0x008 ∧ (0x100 : Offset) ≠ 0x00C := by decide

theorem witness_ApertureIsAtBase :
    (Config.base + 0x200 < Config.base ∨ Config.base + 0x200 ≤ Config.base + 0x200) ∧
    (Config.base + 0x1FF < Config.base + 0x200) := ⟨.inr (Nat.le_refl _), by omega⟩

theorem witness_ResetEventDiscardsThePendingCommand : (assertReset (busy 0x808)).env.inReset = true := rfl

/-- The invariants hold of a machine with results, secret and schedule, and it steps. -/
theorem witness_StepKeepsTheInvariants :
    Inv (scripted (.wr 0x008 0x808) { staged with cv := true, code := formatCode 42 6, done := true }) ∧
    ∃ t, step (scripted (.wr 0x008 0x808) { staged with cv := true, code := formatCode 42 6, done := true }) = .next t :=
  ⟨by decide +kernel, _, rfl⟩

/-- A pending command, three turns before the ENGINE's, and a program with branches both ways. -/
theorem witness_PendingCommandsComplete :
    let s := withTurns [.host, .host, .release] (busy 0x808)
    let u := { s with env := { s.env with script := runCmdStmts .clear ++ [.bne 1 0 (.named 7), .label 7, .halt] } }
    HostProgramOK u ∧ isBusy u = true := by decide +kernel

theorem witness_TheMachineNeverStops :
    HostProgramOK State.reset ∧ HostProgramOK (scripted (.cmd (.totp .sha1 10)) State.reset) ∧
    ¬ HostProgramOK (scripted (.bne 0 1 (.named 5)) State.reset) := by decide

theorem witness_OverrunIsSticky :
    (∃ t, step (withTurns [.reset] { State.reset with ovr := true }) = .next t ∧ t.ovr = false) ∧
    (∃ t, step (scripted (.wr 0x00C 0x8) { busy 0 with ovr := true }) = .next t ∧ t.ovr = false) ∧
    (∃ t, step (scripted (.wr 0x008 0) (busy 0)) = .next t ∧ t.ovr = true) ∧
    turnWrite (scripted (.wr 0x1C8 0) (busy 0)) = some (0x1C8, 0) ∧ ¬ BadOffset 0x1C8 :=
  ⟨⟨_, rfl, rfl⟩, ⟨_, rfl, rfl⟩, ⟨_, rfl, rfl⟩, rfl, by decide⟩

theorem witness_InterruptRisesOnlyAtDone :
    (∃ t, engineStep { busy 0 with doneIe := true } = .next t) ∧
    (∃ t, step { busy 0 with doneIe := true } = .next t ∧ irq { busy 0 with doneIe := true } = false ∧ irq t = true) ∧
    ∃ t, step (scripted (.wr 0x014 1) { State.reset with done := true }) = .next t ∧ irq t = true :=
  ⟨⟨_, rfl⟩, ⟨_, rfl, rfl, rfl⟩, _, rfl, rfl⟩

/-- Each of the four causes. -/
theorem witness_InterruptFallsOnlyWhenCleared :
    let s := { State.reset with done := true, doneIe := true }
    ((0x2 : Word).getLsbD 1 = true ∧ isBusy s = false ∧ (0xFFFFFFFE : Word).getLsbD 0 = false) ∧ irq s = true ∧ (∃ t, step (withTurns [.reset] s) = .next t ∧ irq t = false) ∧
    (∃ t, step (scripted (.wr 0x00C 0x2) s) = .next t ∧ irq t = false) ∧
    (∃ t, step (scripted (.cmd .nop) s) = .next t ∧ irq t = false) ∧
    ∃ t, step (scripted (.wr 0x014 0) s) = .next t ∧ irq t = false :=
  ⟨by decide, rfl, ⟨_, rfl, rfl⟩, ⟨_, rfl, rfl⟩, ⟨_, rfl, rfl⟩, _, rfl, rfl⟩

/-- Each of the three causes, at both ends of the KEY window. -/
theorem witness_SecretChangesOnlyByKeyWriteClearReset :
    (∃ t, step (withTurns [.reset] (keyed keyK20 0 0)) = .next t ∧ t.key ≠ (keyed keyK20 0 0).key) ∧
    (∃ t, step (scripted (.wr 0x100 0) (keyed keyK20 0 0)) = .next t ∧ t.key ≠ (keyed keyK20 0 0).key) ∧
    (∃ t, step (scripted (.wr 0x17C 1) (keyed keyK20 0 0)) = .next t ∧ t.key ≠ (keyed keyK20 0 0).key) ∧
    ∃ t, step (busy 1) = .next t ∧ t.key ≠ (busy 1).key :=
  ⟨⟨_, rfl, by decide +kernel⟩, ⟨_, rfl, by decide +kernel⟩, ⟨_, rfl, by decide +kernel⟩, _, rfl, by decide +kernel⟩

/-- A step that completes a command which is no keyed one. -/
theorem witness_SecretIsNotReadable :
    (∃ t, step (busy 1) = .next t) ∧ (busy 1).pending = some 1 ∧ decode 1 = .ok .clear ∧ opCode .clear ∉ [3, 7, 8] :=
  ⟨⟨_, rfl⟩, rfl, by decide, by decide⟩

/-- Every form of statement stands in a program that is about to run it. -/
theorem witness_HostStatementsDoWhatTheirTableSays (st : Stmt) :
    (scripted st State.reset).env.script[(scripted st State.reset).env.pos]? = some st ∧
    (scripted st State.reset).env.inReset = false ∧ VarsCanonical (scripted st State.reset) ∧
    (Instr.totp .sha1 10).assembles = true := ⟨rfl, rfl, rfl, rfl⟩

/-- A program of a branch and four labels; the HOST stands at its place 3. -/
def labelled (st : Stmt) (ones : Word) : State :=
  { State.reset with env := { Env.initial with
      script := [.label 1, .label 2, .label 1, st, .label 2], pos := 3, vars := [(0, ones)] } }

/-- A branch taken, not taken, and taken to a label that is not there: a label by name at the first of its two places,
`1b` at the last one before the branch, a label only after the branch. -/
theorem witness_HostStatementsDoWhatTheirTableSays_branches :
    (LabelPlace (labelled (.bset 0 0 (.named 1)) 1) (.named 1) 0 ∧ LabelPlace (labelled .halt 1) (.named 2) 1 ∧
      LabelPlace (labelled .halt 1) (.back 1) 2) ∧
    (NoLabel (labelled .halt 1) (.named 3) ∧ NoLabel (scripted (.label 2) State.reset) (.back 2)) ∧
    ((readVar 0 (labelled .halt 1)).getLsbD 0 = true ∧ (readVar 0 (labelled .halt 2)).getLsbD 0 = false ∧
      readVar 0 (labelled .halt 1) ≠ 2) ∧ VarsCanonical (labelled .halt 1) := by
  unfold LabelPlace NoLabel
  decide +kernel

/-- R102's branches on the same program (where each continues read off its text). -/
theorem test_branches :
    (nextOf (step (labelled (.bset 0 0 (.named 1)) 1))).map (fun t => t.env.pos) = some 0 ∧
    (nextOf (step (labelled (.bset 0 0 (.back 1)) 1))).map (fun t => t.env.pos) = some 2 ∧
    (nextOf (step (labelled (.bset 0 0 (.back 1)) 2))).map (fun t => t.env.pos) = some 4 ∧
    (nextOf (step (labelled (.bclr 0 0 (.named 2)) 2))).map (fun t => t.env.pos) = some 1 ∧
    (nextOf (step (labelled (.bne 0 1 (.named 2)) 1))).map (fun t => t.env.pos) = some 4 := by decide +kernel

end Sys2Proof.Tests
end

/-! PROOFS. The statements of spec/10_state.md: what a command writes and reads (R47, R48), what a bus write leaves
alone (R28, R45), the register map (R23), reset (R49) and the invariants (R50). The facts they share stand first. -/

namespace Sys2Proof.Machine

open Sys2Proof.Safety Sys2Proof.Claims

/-! ## What a successful command writes, command by command -/

/-- The writes of CLEAR (R215). -/
def clearWrites (s : State) : State :=
  markNone
    { s with
      key := Vector.replicate _ 0, keylen := 0, digest := Vector.replicate _ 0, dalg := .sha1, truncOffset := 0
      p := 0, otp := 0, odig := 0, code := Vector.replicate _ 0 }

/-- The writes of HMAC with algorithm h (R154). -/
def hmacWrites (h : HashAlg) (s : State) : State :=
  markDigest { s with digest := bufferOf _ (keyedDigest h s), dalg := h }

/-- The writes of TRUNC (R182). -/
def truncWrites (s : State) : State :=
  markTrunc { s with
    truncOffset := (truncate s.digest (dlen s.dalg)).1, p := (truncate s.digest (dlen s.dalg)).2 }

/-- The writes of REDUCE with d digits (R185). -/
def reduceWrites (d : Nat) (s : State) : State :=
  markOtp { s with otp := reduceBy s.p d, odig := BitVec.ofNat 4 d }

/-- The writes of FORMAT (R201). -/
def formatWrites (s : State) : State := markCode { s with code := formatCode s.otp s.odig.toNat }

/-- The commands that succeed on s, each with the state its writes give and the checks on valid bits and digit count it
has passed. -/
inductive Success (s : State) : Instr → State → Prop where
  | nop : Success s .nop s
  | clear : Success s .clear (clearWrites s)
  | derive (c : DWord) : Success s .derive { s with ctr := c }
  | hmac (a : AlgField) (h : HashAlg) : Success s (.hmac a) (hmacWrites h s)
  | trunc (ready : s.dv = true) : Success s .trunc (truncWrites s)
  | reduce (d : Nat) (legal : 1 ≤ d ∧ d ≤ 10) (ready : s.pv = true) : Success s (.reduce d) (reduceWrites d s)
  | format (ready : s.ov = true) : Success s .format (formatWrites s)
  | hotp (a : AlgField) (h : HashAlg) (d : Nat) (legal : 1 ≤ d ∧ d ≤ 10) : Success s (.hotp a d) (hotpWrites h d s)
  | totp (a : AlgField) (h : HashAlg) (d : Nat) (c : DWord) (legal : 1 ≤ d ∧ d ≤ 10) :
      Success s (.totp a d) (hotpWrites h d { s with ctr := c })

/-- A successful HOTP has passed its checks and made its writes (R216). -/
theorem hotpResult_ok {a : AlgField} {d : Nat} {s u : State} (e : hotpResult a d s = .ok u) :
    ∃ h, (1 ≤ d ∧ d ≤ 10) ∧ u = hotpWrites h d s := by
  unfold hotpResult at e
  split at e
  · cases e
  · next h _ =>
    split at e
    · cases e
    · next hd =>
      split at e <;> cases e
      exact ⟨h, (digitsOK_iff d).1 (by simpa using hd), rfl⟩

/-- A successful TOTP is HOTP over a derived counter (R217). -/
theorem totpResult_ok {a : AlgField} {d : Nat} {s u : State} (e : totpResult a d s = .ok u) :
    ∃ c, hotpResult a d { s with ctr := c } = .ok u := by
  unfold totpResult at e
  repeat' split at e
  case h_2 c _ => exact ⟨c, e⟩
  all_goals cases e

/-- What a command's success says, once for all nine. -/
theorem success_of_commandResult {i : Instr} {s u : State} (e : commandResult i s = .ok u) : Success s i u := by
  cases i with
  | nop => cases e; exact .nop
  | clear => cases e; exact .clear
  | derive =>
    simp only [commandResult, deriveResult] at e
    split at e <;> cases e
    exact .derive _
  | hmac a =>
    simp only [commandResult, hmacResult] at e
    split at e
    · cases e
    · split at e <;> cases e
      exact .hmac a _
  | trunc =>
    cases hr : s.dv with
    | false => simp [commandResult, truncResult_of_not_ready hr] at e
    | true =>
      rw [commandResult, truncResult_of_ok hr] at e
      cases e
      exact .trunc hr
  | reduce d =>
    obtain ⟨hd, legal⟩ | ⟨hd, _⟩ := digitsOK_cases d
    · cases hr : s.pv with
      | false => simp [commandResult, reduceResult_of_not_ready hd hr] at e
      | true =>
        rw [commandResult, reduceResult_of_ok hd hr] at e
        cases e
        exact .reduce d legal hr
    · simp [commandResult, reduceResult, hd] at e
  | format =>
    cases hr : s.ov with
    | false => simp [commandResult, formatResult_of_not_ready hr] at e
    | true =>
      rw [commandResult, formatResult_of_ok hr] at e
      cases e
      exact .format hr
  | hotp a d =>
    obtain ⟨h, legal, rfl⟩ := hotpResult_ok e
    exact .hotp a h d legal
  | totp a d =>
    obtain ⟨c, e'⟩ := totpResult_ok e
    obtain ⟨h, legal, rfl⟩ := hotpResult_ok e'
    exact .totp a h d c legal

/-! ## Two states with the same stages, or the same status -/

/-- The stage registers and their valid bits are the same in both states. -/
structure SameStages (s t : State) : Prop where
  dv : t.dv = s.dv
  pv : t.pv = s.pv
  ov : t.ov = s.ov
  cv : t.cv = s.cv
  digest : t.digest = s.digest
  dalg : t.dalg = s.dalg
  truncOffset : t.truncOffset = s.truncOffset
  p : t.p = s.p
  otp : t.otp = s.otp
  odig : t.odig = s.odig
  code : t.code = s.code

/-- BUSY with its pending word, DONE, ERR and ERRCODE are the same in both states. -/
structure SameStatus (s t : State) : Prop where
  pending : t.pending = s.pending
  done : t.done = s.done
  err : t.err = s.err
  errcode : t.errcode = s.errcode

theorem SameStages.refl (s : State) : SameStages s s := ⟨rfl, rfl, rfl, rfl, rfl, rfl, rfl, rfl, rfl, rfl, rfl⟩

theorem SameStatus.refl (s : State) : SameStatus s s := ⟨rfl, rfl, rfl, rfl⟩

theorem sameStages_of_sameBlock {s t : State} (h : SameBlock s t) : SameStages s t := by
  obtain ⟨e, rfl⟩ := (sameBlock_iff_exists s t).1 h
  exact ⟨rfl, rfl, rfl, rfl, rfl, rfl, rfl, rfl, rfl, rfl, rfl⟩

theorem sameStatus_of_sameBlock {s t : State} (h : SameBlock s t) : SameStatus s t := by
  obtain ⟨e, rfl⟩ := (sameBlock_iff_exists s t).1 h
  exact ⟨rfl, rfl, rfl, rfl⟩

/-- No register of the map writes a stage: the results are read-only (R45, R64). -/
theorem writeReg_sameStages (r : Reg) (v : Word) (s : State) : SameStages s (writeReg r v s) := by
  cases r with
  | key j => rw [writeReg]; exact ⟨rfl, rfl, rfl, rfl, rfl, rfl, rfl, rfl, rfl, rfl, rfl⟩
  | _ => exact ⟨rfl, rfl, rfl, rfl, rfl, rfl, rfl, rfl, rfl, rfl, rfl⟩

theorem busWrite_sameStages (a : Offset) (v : Word) (s : State) : SameStages s (busWrite a v s).2 := by
  obtain ⟨_, e⟩ | ⟨r, _, _, _, e⟩ | ⟨r, _, _, e⟩ := busWrite_cases a v s <;> rw [e]
  · exact .refl s
  · exact ⟨rfl, rfl, rfl, rfl, rfl, rfl, rfl, rfl, rfl, rfl, rfl⟩
  · exact writeReg_sameStages r v s

/-- Only CMD and STATUS write the status fields (R210, R28). -/
theorem writeReg_sameStatus {r : Reg} (hc : r ≠ .cmd) (hs : r ≠ .status) (v : Word) (s : State) :
    SameStatus s (writeReg r v s) := by
  cases r with
  | cmd => exact absurd rfl hc
  | status => exact absurd rfl hs
  | key j => rw [writeReg]; exact ⟨rfl, rfl, rfl, rfl⟩
  | _ => exact ⟨rfl, rfl, rfl, rfl⟩

/-- What a write does to the status fields, once: nothing, or it issues a command on an idle block (R210), or it clears
bits of STATUS (R28). -/
theorem busWrite_status_cases (a : Offset) (v : Word) (s : State) :
    SameStatus s (busWrite a v s).2 ∨
    (a = 0x008 ∧ (busWrite a v s).2 = issue v s) ∨
    (a = 0x00C ∧ (busWrite a v s).2 = writeStatus v s) := by
  obtain ⟨_, e⟩ | ⟨r, _, _, _, e⟩ | ⟨r, hr, _, e⟩ := busWrite_cases a v s <;> rw [e]
  · exact .inl (.refl s)
  · exact .inl ⟨rfl, rfl, rfl, rfl⟩
  · by_cases hc : r = .cmd
    · subst hc
      exact .inr (.inl ⟨(regOffset_of_regAt a _ hr).symm, rfl⟩)
    · by_cases hs : r = .status
      · subst hs
        exact .inr (.inr ⟨(regOffset_of_regAt a _ hr).symm, rfl⟩)
      · exact .inl (writeReg_sameStatus hc hs v s)

/-! ## The invariants of the block (R50) -/

/-- R50 (d), (e), (f), (h): the invariants of the stages. -/
def StageInv (s : State) : Prop := OtpInRange s ∧ CodeIsFormat s ∧ StagesOrdered s ∧ CodeTailZero s

/-- R50 (a), (b): the invariants of the status fields. -/
def StatusInv (s : State) : Prop := ErrConsistent s ∧ BusyQuiet s

theorem inv_iff (s : State) : Safety.Inv s ↔ StatusInv s ∧ StageInv s ∧ ResetIdle s ∧ VarsCanonical s := by
  simp only [Safety.Inv, StatusInv, StageInv, and_assoc]

theorem stageInv_of_sameStages {s t : State} (h : SameStages s t) (hs : StageInv s) : StageInv t := by
  simpa only [StageInv, OtpInRange, CodeIsFormat, StagesOrdered, CodeTailZero, h.dv, h.pv, h.ov, h.cv, h.otp, h.odig,
    h.code] using hs

theorem statusInv_of_sameStatus {s t : State} (h : SameStatus s t) (hs : StatusInv s) : StatusInv t := by
  simpa only [StatusInv, ErrConsistent, BusyQuiet, isBusy, h.pending, h.done, h.err, h.errcode] using hs

/-- A write keeps the status fields' invariants: an issue and a clearing write leave no code without an error, and no
DONE or ERR beside BUSY. -/
theorem busWrite_statusInv (a : Offset) (v : Word) {s : State} (hs : StatusInv s) : StatusInv (busWrite a v s).2 := by
  obtain same | ⟨_, e⟩ | ⟨_, e⟩ := busWrite_status_cases a v s
  · exact statusInv_of_sameStatus same hs
  · rw [e]
    exact ⟨⟨by simp, by simp⟩, fun _ => ⟨rfl, rfl⟩⟩
  · rw [e]
    obtain ⟨⟨hcode, hle⟩, hquiet⟩ := hs
    refine ⟨?_, fun hb => ?_⟩
    · simp only [ErrConsistent, writeStatus_errcode, writeStatus_err]
      cases v.getLsbD 2 with
      | false => simpa using ⟨hcode, hle⟩
      | true => simp
    · obtain ⟨hdone, herr⟩ := hquiet hb
      exact ⟨by simp [hdone], by simp [herr]⟩

/-- Every error of the table has a code from 1 to 8 (R240). -/
theorem errBits_range (c : ErrorCode) : ¬ errBits c = 0#4 ∧ (errBits c).toNat ≤ 8 := by
  cases c <;> decide

/-! ## COMPLETE and the invariants -/

theorem statusInv_finishErr (c : ErrorCode) (s : State) : StatusInv (finishErr c s) :=
  ⟨⟨by simp [(errBits_range c).1], (errBits_range c).2⟩, fun hb => by simp [isBusy] at hb⟩

theorem statusInv_finishOk {s u : State} (hs : StatusInv s) (herr : u.err = s.err) (hcode : u.errcode = s.errcode) :
    StatusInv (finishOk u) := by
  refine ⟨?_, fun hb => by simp [isBusy] at hb⟩
  simpa only [ErrConsistent, finishOk_err, finishOk_errcode, herr, hcode] using hs.1

/-- A legal digit count survives its 4-bit register (R42). -/
theorem odig_toNat {d : Nat} (legal : 1 ≤ d ∧ d ≤ 10) : (BitVec.ofNat 4 d).toNat = d := by
  rw [BitVec.toNat_ofNat, Nat.mod_eq_of_lt (by omega)]

theorem reduceBy_lt (p : BitVec 31) (d : Nat) : (reduceBy p d).toNat < 10 ^ d := by
  rw [reduceBy_toNat]
  exact Nat.mod_lt _ (by positivity)

/-- A code of at most 10 digits ends in two zero bytes (R50 (h)). -/
theorem formatCode_tail_zero (v : BitVec 31) {d : Nat} (hd : d ≤ 10) :
    byteAt (formatCode v d) 10 = 0 ∧ byteAt (formatCode v d) 11 = 0 := by
  rw [byteAt_formatCode _ _ _ (by omega), byteAt_formatCode _ _ _ (by omega)]
  exact ⟨formatByte_of_le _ _ _ hd, formatByte_of_le _ _ _ (by omega)⟩

/-- A one-time password's four stages meet the invariants, whatever stood there before (R216). -/
theorem stageInv_hotpWrites (h : HashAlg) {d : Nat} (legal : 1 ≤ d ∧ d ≤ 10) (s : State) :
    StageInv (hotpWrites h d s) := by
  have hodig : (hotpWrites h d s).odig.toNat = d := odig_toNat legal
  refine ⟨fun _ => ?_, fun _ => ⟨rfl, ?_⟩, ⟨fun _ => rfl, fun _ => rfl⟩, formatCode_tail_zero _ legal.2⟩
  · rw [hodig]
    exact ⟨legal.1, legal.2, reduceBy_lt _ _⟩
  · rw [hodig]
    rfl

/-- The writes of every successful command keep the stages' invariants. -/
theorem stageInv_of_success {i : Instr} {s u : State} (h : Success s i u) (hs : StageInv s) : StageInv u := by
  have ⟨hrange, _, ⟨hpd, hop⟩, htail⟩ := hs
  cases h with
  | nop => exact hs
  | derive c => exact stageInv_of_sameStages ⟨rfl, rfl, rfl, rfl, rfl, rfl, rfl, rfl, rfl, rfl, rfl⟩ hs
  | clear => exact ⟨nofun, nofun, ⟨nofun, nofun⟩, byteAt_replicate_zero _ _, byteAt_replicate_zero _ _⟩
  | hmac a h => exact ⟨nofun, nofun, ⟨nofun, nofun⟩, htail⟩
  | trunc ready => exact ⟨nofun, nofun, ⟨fun _ => ready, nofun⟩, htail⟩
  | reduce d legal ready =>
    have hodig : (reduceWrites d s).odig.toNat = d := odig_toNat legal
    refine ⟨fun _ => ?_, nofun, ⟨hpd, fun _ => ready⟩, htail⟩
    rw [hodig]
    exact ⟨legal.1, legal.2, reduceBy_lt _ _⟩
  | format ready => exact ⟨hrange, fun _ => ⟨ready, rfl⟩, ⟨hpd, hop⟩, formatCode_tail_zero _ (hrange ready).2.1⟩
  | hotp a h d legal => exact stageInv_hotpWrites h legal s
  | totp a h d c legal => exact stageInv_hotpWrites h legal _

/-- An error completion touches no stage (R243). -/
theorem finishErr_sameStages (c : ErrorCode) (s : State) : SameStages s (finishErr c s) :=
  ⟨rfl, rfl, rfl, rfl, rfl, rfl, rfl, rfl, rfl, rfl, rfl⟩

theorem finishOk_sameStages (u : State) : SameStages u (finishOk u) :=
  ⟨rfl, rfl, rfl, rfl, rfl, rfl, rfl, rfl, rfl, rfl, rfl⟩

theorem finishErr_keeps_blockInv (c : ErrorCode) {s : State} (hs : StageInv s) :
    StatusInv (finishErr c s) ∧ StageInv (finishErr c s) :=
  ⟨statusInv_finishErr c s, stageInv_of_sameStages (finishErr_sameStages c s) hs⟩

/-- COMPLETE keeps the invariants of the block, for every pending word (R213). -/
theorem completeWord_keeps_blockInv {w : Word} {s t : State} (h : completeWord w s = .next t)
    (hstatus : StatusInv s) (hstage : StageInv s) : StatusInv t ∧ StageInv t := by
  obtain ⟨_, rfl⟩ | ⟨i, _, he⟩ := completeWord_cases h
  · exact finishErr_keeps_blockInv _ hstage
  · obtain ⟨u, hu, rfl⟩ | ⟨c, _, rfl⟩ := exec_cases he
    · obtain ⟨herr, hcode⟩ := commandResult_keeps_error_fields hu
      exact ⟨statusInv_finishOk hstatus herr hcode,
        stageInv_of_sameStages (finishOk_sameStages u) (stageInv_of_success (success_of_commandResult hu) hstage)⟩
    · exact finishErr_keeps_blockInv _ hstage

/-! ## Reset -/

theorem statusInv_reset : StatusInv State.reset := ⟨⟨by decide, by decide⟩, nofun⟩

theorem stageInv_reset : StageInv State.reset :=
  ⟨nofun, nofun, ⟨nofun, nofun⟩, byteAt_replicate_zero _ _, byteAt_replicate_zero _ _⟩

/-- Settles O48: nothing is valid, pending or in error at reset, and CODE is all zeros. -/
theorem resetIsGood : Obligations.ResetIsGood :=
  (inv_iff _).2 ⟨statusInv_reset, stageInv_reset, fun _ => rfl, rfl⟩

/-! ## Every step keeps the invariants -/

/-- The invariants of the block are kept by everything a step can do to it. -/
theorem stepEffect_keeps_blockInv {s t : State} (h : StepEffect s t) (hstatus : StatusInv s) (hstage : StageInv s) :
    StatusInv t ∧ StageInv t := by
  have ofBlock {u : State} (hb : SameBlock u t) (hu : StatusInv u) (hu' : StageInv u) : StatusInv t ∧ StageInv t :=
    ⟨statusInv_of_sameStatus (sameStatus_of_sameBlock hb) hu, stageInv_of_sameStages (sameStages_of_sameBlock hb) hu'⟩
  cases h with
  | still _ block => exact ofBlock block hstatus hstage
  | wrote a v _ _ block =>
    exact ofBlock block (busWrite_statusInv a v hstatus) (stageInv_of_sameStages (busWrite_sameStages a v s) hstage)
  | completed w _ _ result =>
    have moved : SameBlock s (turnState s) := rfl
    exact completeWord_keeps_blockInv result (statusInv_of_sameStatus (sameStatus_of_sameBlock moved) hstatus)
      (stageInv_of_sameStages (sameStages_of_sameBlock moved) hstage)
  | reset _ block _ => exact ofBlock block statusInv_reset stageInv_reset

theorem nextTurn_ne_reset_of_turnWrite {s : State} {x : Offset × Word} (h : turnWrite s = some x) :
    (nextTurn s).1 ≠ .reset := by
  intro e
  simp [turnWrite, e] at h

/-- While reset is asserted no step makes a command pending: the turn was the reset event, or reset was asserted before
it and no write was made. -/
theorem stepEffect_keeps_resetIdle {s t : State} (h : StepEffect s t) (hs : ResetIdle s)
    (hreset : t.env.inReset = true → s.env.inReset = true ∨ (nextTurn s).1 = .reset) : ResetIdle t := by
  intro ht
  cases h with
  | still turn block =>
    have hb := hs ((hreset ht).resolve_right turn)
    rwa [isBusy, (sameStatus_of_sameBlock block).pending]
  | wrote a v write calm _ =>
    obtain hr | hr := hreset ht
    · simp [calm] at hr
    · exact absurd hr (nextTurn_ne_reset_of_turnWrite write)
  | completed w _ _ result => simp [isBusy, (completeWord_retires result).1]
  | reset _ block _ => rw [isBusy, (sameStatus_of_sameBlock block).pending]; rfl

/-- Settles O49: everything a step can do (StepEffect) keeps the invariants of the status fields, of the stages and of
the world outside. -/
theorem stepKeepsTheInvariants : Obligations.StepKeepsTheInvariants := by
  intro s t hs hstep
  obtain ⟨hstatus, hstage, hidle, hvars⟩ := (inv_iff s).1 hs
  obtain ⟨effect, _, _, vars, hreset⟩ := step_cases hstep
  obtain ⟨hstatus', hstage'⟩ := stepEffect_keeps_blockInv effect hstatus hstage
  exact (inv_iff t).2 ⟨hstatus', hstage', stepEffect_keeps_resetIdle effect hidle hreset, vars hvars⟩

/-! ## What a command leaves unchanged, and what it depends on -/

/-- Settles O21: an error completion keeps every register the table names, and each successful command's writes are in
its own column (Success). -/
theorem commandFrame : Obligations.CommandFrame := by
  intro i s t h
  obtain ⟨u, hu, rfl⟩ | ⟨c, _, rfl⟩ := exec_cases h
  · cases success_of_commandResult hu with
    | nop => simp
    | clear => simp [clearWrites, opCode]
    | derive c => simp [opCode]
    | hmac a h => simp [hmacWrites, opCode]
    | trunc _ => simp [truncWrites, opCode]
    | reduce d _ _ => simp [reduceWrites, opCode]
    | format _ => simp [formatWrites, opCode]
    | hotp a h d _ => simp [hotpWrites, opCode]
    | totp a h d c _ => simp [hotpWrites, opCode]
  · simp

/-- Two results agree on what command i reports and writes: the same error, or successes whose writes agree. -/
def ResultsAgree (i : Instr) : Except ErrorCode State → Except ErrorCode State → Prop
  | .ok u, .ok u' => WritesAgree i u u'
  | .error c, .error c' => c = c'
  | _, _ => False

/-- The four stages of a one-time password are a function of the keyed digest (R216). -/
theorem hotpWrites_agree (a : AlgField) (h : HashAlg) (d : Nat) {s s' : State}
    (hd : keyedDigest h s = keyedDigest h s') : WritesAgree (.hotp a d) (hotpWrites h d s) (hotpWrites h d s') := by
  simp [WritesAgree, hotpWrites, hd]

theorem keyedDigest_agree (h : HashAlg) {s s' : State} (hkey : keyBytes s = keyBytes s') (hctr : s.ctr = s'.ctr) :
    keyedDigest h s = keyedDigest h s' := by
  rw [keyedDigest, keyedDigest, hkey, hctr]

/-- HOTP's checks read nothing of the state but the key: where KeyCheck agrees and the writes do, the results do. -/
theorem hotpResult_agree {i : Instr} (a : AlgField) {d : Nat} {s s' : State} (hcheck : keyCheck s = keyCheck s')
    (hwrites : ∀ h, WritesAgree i (hotpWrites h d s) (hotpWrites h d s')) :
    ResultsAgree i (hotpResult a d s) (hotpResult a d s') := by
  unfold hotpResult
  rw [← hcheck]
  split
  · rfl
  · next h _ =>
    split
    · rfl
    · split
      · rfl
      · exact hwrites h

/-- R47: a command's result is a function of its listed operands. -/
theorem commandResult_agree {i : Instr} {s s' : State} (h : OperandsAgree i s s') :
    ResultsAgree i (commandResult i s) (commandResult i s') := by
  cases i with
  | nop => trivial
  | clear => simp [commandResult, clearResult, ResultsAgree, WritesAgree]
  | derive =>
    obtain ⟨htime, ht0, hstep⟩ := h
    simp only [commandResult, deriveResult, ← htime, ← ht0, ← hstep]
    split <;> rfl
  | hmac a =>
    obtain ⟨⟨hlen, hascii, hkey⟩, hctr⟩ := h
    simp only [commandResult, hmacResult, ← keyCheck_agree hlen hascii hkey,
      ← keyedDigest_agree _ (keyBytes_agree hlen hkey) hctr]
    split
    · rfl
    · split
      · rfl
      · simp [ResultsAgree, WritesAgree]
  | trunc =>
    obtain ⟨hdigest, hdalg, hdv⟩ := h
    simp only [commandResult, truncResult, ← hdigest, ← hdalg, ← hdv]
    split
    · rfl
    · simp [ResultsAgree, WritesAgree]
  | reduce d =>
    obtain ⟨hp, hpv⟩ := h
    simp only [commandResult, reduceResult, ← hp, ← hpv]
    split
    · rfl
    · split
      · rfl
      · simp [ResultsAgree, WritesAgree]
  | format =>
    obtain ⟨hotp, hodig, hov⟩ := h
    simp only [commandResult, formatResult, ← hotp, ← hodig, ← hov]
    split
    · rfl
    · simp [ResultsAgree, WritesAgree]
  | hotp a d =>
    obtain ⟨⟨hlen, hascii, hkey⟩, hctr⟩ := h
    exact hotpResult_agree a (keyCheck_agree hlen hascii hkey)
      fun h => hotpWrites_agree a h d (keyedDigest_agree h (keyBytes_agree hlen hkey) hctr)
  | totp a d =>
    obtain ⟨⟨htime, ht0, hstep⟩, hlen, hascii, hkey⟩ := h
    have htimeStep : deriveT s.time s.t0 s.stepSecs = deriveT s'.time s'.t0 s'.stepSecs := by rw [htime, ht0, hstep]
    have hotp (c : DWord) : ResultsAgree (.totp a d) (hotpResult a d { s with ctr := c })
        (hotpResult a d { s' with ctr := c }) :=
      hotpResult_agree a (keyCheck_agree hlen hascii hkey)
        fun h => ⟨rfl, hotpWrites_agree a h d (keyedDigest_agree h (keyBytes_agree hlen hkey) rfl)⟩
    simp only [commandResult, totpResult]
    rw [← keyCheck_agree hlen hascii hkey, ← htimeStep]
    repeat' split
    case h_2 c _ => exact hotp c
    all_goals rfl

theorem engineStep_of_pending {w : Word} {s : State} (h : s.pending = some w) : engineStep s = completeWord w s := by
  simp [engineStep, h]

/-- The completion touches no register a command writes (R244). -/
theorem writesAgree_finishOk (i : Instr) (u u' : State) :
    WritesAgree i (finishOk u) (finishOk u') ↔ WritesAgree i u u' := by
  cases i <;> rfl

/-- Settles O22: an illegal word reports code 1 whatever the state; a command's results agree (commandResult_agree), and
so do its completions. -/
theorem commandDependsOnlyOnItsOperands : Obligations.CommandDependsOnlyOnItsOperands := by
  intro w s s' hp hp' hops herr herr' hcode hcode'
  rw [engineStep_of_pending hp, engineStep_of_pending hp']
  unfold completeWord
  cases hw : decode w with
  | error e => exact ⟨_, _, rfl, rfl, rfl, rfl, nofun⟩
  | ok i =>
    have agree := commandResult_agree (hops i hw)
    cases hr : commandResult i s with
    | error c =>
      cases hr' : commandResult i s' with
      | error c' =>
        rw [hr, hr'] at agree
        cases agree
        exact ⟨_, _, exec_of_error hr, exec_of_error hr', rfl, rfl, fun _ _ failed => nomatch failed⟩
      | ok u' => rw [hr, hr'] at agree; exact agree.elim
    | ok u =>
      cases hr' : commandResult i s' with
      | error c' => rw [hr, hr'] at agree; exact agree.elim
      | ok u' =>
        rw [hr, hr'] at agree
        obtain ⟨kept, keptCode⟩ := commandResult_keeps_error_fields hr
        obtain ⟨kept', keptCode'⟩ := commandResult_keeps_error_fields hr'
        refine ⟨_, _, exec_of_ok hr, exec_of_ok hr', ?_, ?_, ?_⟩
        · rw [finishOk_err, finishOk_err, kept, kept', herr, herr']
        · rw [finishOk_errcode, finishOk_errcode, keptCode, keptCode', hcode, hcode']
        · rintro _ ⟨⟩ _
          exact (writesAgree_finishOk i u u').2 agree

/-! ## Reads and writes at an offset -/

theorem busRead_regOffset (r : Reg) (s : State) : busRead (regOffset r) s = (.okay, readReg r s) := by
  simp [busRead, regAt_regOffset]

/-- A write of STATUS is honoured whatever BUSY is (R66). -/
theorem busWrite_status (v : Word) (s : State) : busWrite 0x00C v s = (.okay, writeStatus v s) :=
  (busWrite_of_reg (regAt_regOffset .status) v s).trans (if_neg (by simp [honouredWhileBusy]))

/-- A field of a word is its bits from the field's place on. -/
theorem extractLsb'_eq_of_getLsbD {w n k : Nat} {x : BitVec w} {y : BitVec n}
    (h : ∀ i < n, x.getLsbD (k + i) = y.getLsbD i) : x.extractLsb' k n = y := by
  apply BitVec.eq_of_getLsbD_eq
  intro i hi
  simp [hi, h i hi]

/-- The one-bit fields of STATUS (R28). -/
theorem statusWord_flags (s : State) :
    (statusWord s).getLsbD 0 = isBusy s ∧ (statusWord s).getLsbD 1 = s.done ∧ (statusWord s).getLsbD 2 = s.err ∧
    (statusWord s).getLsbD 3 = s.ovr ∧ (statusWord s).getLsbD 4 = s.dv ∧ (statusWord s).getLsbD 5 = s.pv ∧
    (statusWord s).getLsbD 6 = s.ov ∧ (statusWord s).getLsbD 7 = s.cv := by
  simp only [getLsbD_statusWord]
  simp

/-- The wider fields of STATUS, the reserved ones with them (R28). -/
theorem statusWord_fields (s : State) :
    (statusWord s).extractLsb' 8 4 = s.errcode ∧ (statusWord s).extractLsb' 12 2 = dalgBits s.dalg ∧
    (statusWord s).extractLsb' 14 2 = 0 ∧ (statusWord s).extractLsb' 16 4 = s.odig ∧
    (statusWord s).extractLsb' 20 12 = 0 := by
  refine ⟨extractLsb'_eq_of_getLsbD ?_, extractLsb'_eq_of_getLsbD ?_, extractLsb'_eq_of_getLsbD ?_,
    extractLsb'_eq_of_getLsbD ?_, extractLsb'_eq_of_getLsbD ?_⟩
  all_goals
    intro i hi
    rw [getLsbD_statusWord]
    simp (disch := omega) only [if_neg, if_pos, Nat.add_sub_cancel_left, BitVec.ofNat_eq_ofNat, BitVec.getLsbD_zero]

/-- Clearing by a 1, as the rule says it (R28). -/
theorem and_not_eq_ite (b c : Bool) : (b && !c) = if c then false else b := by
  cases c <;> simp

/-- Settles O41: each field is read off the bits of the STATUS word, and the write is writeStatus. -/
theorem statusFieldsAndClears : Obligations.StatusFieldsAndClears := by
  intro s
  obtain ⟨busy, done, err, ovr, dv, pv, ov, cv⟩ := statusWord_flags s
  refine ⟨⟨statusWord s, busRead_regOffset .status s, busy, done, err, ovr, dv, pv, ov, cv, statusWord_fields s⟩, ?_⟩
  intro v
  rw [busWrite_status, writeStatus]
  simp only [and_not_eq_ite]

/-- Settles O43: no bus write reaches a stage, and only those of CMD and STATUS reach the status fields. -/
theorem inputWritesKeepTheStages : Obligations.InputWritesKeepTheStages := by
  intro a v s hcmd hstatus
  obtain ⟨dv, pv, ov, cv, digest, dalg, off, p, otp, odig, code⟩ := busWrite_sameStages a v s
  obtain ⟨pending, done, err, errcode⟩ | ⟨ha, _⟩ | ⟨ha, _⟩ := busWrite_status_cases a v s
  · exact ⟨_, rfl, dv, pv, ov, cv, digest, dalg, off, p, otp, odig, code, done, err, errcode, pending⟩
  · exact absurd ha hcmd
  · exact absurd ha hstatus

/-- Settles O34: the fixed rows by evaluation, the windows by regAt_regOffset, the unmapped offsets by
regAt_eq_none_iff. -/
theorem registerMapFollowsItsTable : Obligations.RegisterMapFollowsItsTable := by
  refine ⟨rfl, rfl, rfl, rfl, rfl, rfl, rfl, rfl, rfl, rfl, rfl, rfl, rfl, rfl, rfl, rfl, rfl, ?_⟩
  exact ⟨fun j => regAt_regOffset (.key j), fun j => regAt_regOffset (.digest j), fun j => regAt_regOffset (.code j),
    fun a => (regAt_eq_none_iff a).symm⟩

/-- Settles O46: the reads of the one fixed state by evaluation. -/
theorem resetValues : Obligations.ResetValues := by
  refine ⟨?_, ?_, ?_, ?_, ?_, ?_, ?_, ?_, ?_, byteAt_replicate_zero _, rfl, rfl⟩
  all_goals decide

end Sys2Proof.Machine

/-! PROOFS. The statements of spec/20_memory.md: the aperture (R61), the responses of accesses (R62 to R65), writes and
reads while BUSY = 1 (R66, R67, R78), what a write stores (R68, R69), and reads without side effects (R72). The facts
they share stand first. -/

namespace Sys2Proof.Machine

open Sys2Proof.Safety Sys2Proof.Claims

/-! ## An access at a bad offset and at a mapped one (R62, R63, R65) -/

theorem busRead_of_bad {a : Offset} (h : BadOffset a) (s : State) : busRead a s = (.error, 0) := by
  simp [busRead, (regAt_eq_none_iff a).2 h]

theorem busWrite_of_bad {a : Offset} (h : BadOffset a) (v : Word) (s : State) : busWrite a v s = (.error, s) := by
  simp [busWrite, (regAt_eq_none_iff a).2 h]

/-- An offset that is neither misaligned nor reserved is the offset of a register. -/
theorem exists_regOffset_of_not_bad {a : Offset} (h : ¬ BadOffset a) : ∃ r, a = regOffset r := by
  cases hr : regAt a with
  | none => exact absurd ((regAt_eq_none_iff a).1 hr) h
  | some r => exact ⟨r, (regOffset_of_regAt a r hr).symm⟩

/-- A write of a register while BUSY = 0 is never dropped. -/
theorem busWrite_of_idle {s : State} (h : isBusy s = false) (r : Reg) (v : Word) :
    busWrite (regOffset r) v s = (.okay, writeReg r v s) := by
  simp [busWrite_of_reg (regAt_regOffset r), h]

/-- A write of a register is dropped while BUSY = 1, but for the two that R66 names. -/
theorem busWrite_of_busy {s : State} (h : isBusy s = true) {r : Reg} (hr : honouredWhileBusy r = false) (v : Word) :
    busWrite (regOffset r) v s = (.okay, { s with ovr := true }) := by
  simp [busWrite_of_reg (regAt_regOffset r), h, hr]

/-- A write of IRQ_EN is honoured whatever BUSY is (R66). -/
theorem busWrite_irqEn (v : Word) (s : State) : busWrite 0x014 v s = (.okay, { s with doneIe := v.getLsbD 0 }) :=
  (busWrite_of_reg (regAt_regOffset .irqEn) v s).trans (if_neg (by simp [honouredWhileBusy]))

/-- Every write of a mapped register gets OKAY, honoured or dropped (R64, R66). -/
theorem busWrite_regOffset_okay (r : Reg) (v : Word) (s : State) : (busWrite (regOffset r) v s).1 = .okay := by
  rw [busWrite_of_reg (regAt_regOffset r)]
  split <;> rfl

theorem honouredWhileBusy_eq_true_iff (r : Reg) : honouredWhileBusy r = true ↔ r = .status ∨ r = .irqEn := by
  cases r <;> simp [honouredWhileBusy]

/-- Settles O35: a bad offset has no register, every other offset has one. -/
theorem badOffsetsOnlyAnswerError : Obligations.BadOffsetsOnlyAnswerError := by
  intro a v s
  refine ⟨fun h => ⟨busRead_of_bad h s, busWrite_of_bad h v s⟩, fun h => ?_⟩
  obtain ⟨r, rfl⟩ := exists_regOffset_of_not_bad h
  exact ⟨by rw [busRead_regOffset], busWrite_regOffset_okay r v s⟩

/-! ## Read-only and write-only registers (R64) -/

theorem writeReg_of_readOnly {r : Reg} (h : readOnly r = true) (v : Word) (s : State) : writeReg r v s = s := by
  cases r
  case id | cap | trunc | p | otp | digest | code => rfl
  all_goals cases h

/-- Settles O36: on an idle block a write is writeReg, which leaves a read-only register's state alone; CMD and KEY
read 0. -/
theorem readOnlyAndWriteOnlyRegisters : Obligations.ReadOnlyAndWriteOnlyRegisters := by
  refine ⟨fun r v s hr idle => ?_, fun s j => ⟨busRead_regOffset .cmd s, busRead_regOffset (.key j) s⟩⟩
  rw [busWrite_of_idle idle, writeReg_of_readOnly hr]

/-! ## Accesses and steps while BUSY = 1 (R66, R67, R78) -/

/-- Settles O37: the offset is that of a register, which R66 honours exactly if it is STATUS or IRQ_EN. -/
theorem writesWhileBusyAreDropped : Obligations.WritesWhileBusyAreDropped := by
  intro a v s busy mapped
  refine ⟨fun hstatus hirq => ?_, ?_, ?_⟩
  · obtain ⟨r, rfl⟩ := exists_regOffset_of_not_bad mapped
    have dropped : honouredWhileBusy r = false := by
      rw [Bool.eq_false_iff, ne_eq, honouredWhileBusy_eq_true_iff]
      rintro (rfl | rfl)
      · exact hstatus rfl
      · exact hirq rfl
    exact busWrite_of_busy busy dropped v
  · rintro rfl
    exact (statusFieldsAndClears s).2 v
  · rintro rfl
    exact busWrite_irqEn v s

/-- The two states differ at most in what an access may change while a command is pending: the STATUS bits a write
clears or sets, IRQ_EN, and the world outside the block. -/
def SameWhileBusy (s t : State) : Prop :=
  t = { s with done := t.done, err := t.err, errcode := t.errcode, ovr := t.ovr, doneIe := t.doneIe, env := t.env }

theorem sameWhileBusy_refl (s : State) : SameWhileBusy s s := rfl

theorem sameWhileBusy_of_sameBlock {s u t : State} (h : SameWhileBusy s u) (hb : SameBlock u t) :
    SameWhileBusy s t := by
  obtain ⟨e, rfl⟩ := (sameBlock_iff_exists u t).1 hb
  rw [SameWhileBusy] at h ⊢
  rw [h]

theorem busWrite_sameWhileBusy {s : State} (busy : isBusy s = true) (a : Offset) (v : Word) :
    SameWhileBusy s (busWrite a v s).2 := by
  obtain ⟨_, e⟩ | ⟨r, _, _, _, e⟩ | ⟨r, _, idle | honoured, e⟩ := busWrite_cases a v s <;> rw [e]
  · rfl
  · rfl
  · rw [busy] at idle
    cases idle
  · obtain rfl | rfl := (honouredWhileBusy_eq_true_iff r).1 honoured <;> rfl

/-- A step that leaves a command pending is no COMPLETE and no reset, so at most a write under R66. -/
theorem step_sameWhileBusy {s t : State} (busy : isBusy s = true) (hstep : step s = .next t)
    (busy' : isBusy t = true) : SameWhileBusy s t := by
  have pending : t.pending ≠ none := by simpa [isBusy, Option.isSome_iff_ne_none] using busy'
  obtain ⟨effect, _⟩ := step_cases hstep
  cases effect with
  | still _ block => exact sameWhileBusy_of_sameBlock (sameWhileBusy_refl s) block
  | wrote a v _ _ block => exact sameWhileBusy_of_sameBlock (busWrite_sameWhileBusy busy a v) block
  | completed w _ _ result => exact absurd (completeWord_retires result).1 pending
  | reset _ block _ => exact absurd (congrArg State.pending block) pending

/-- Settles O52: the fields that two states equal while busy share hold every operand. -/
theorem pendingOperandsAreStable : Obligations.PendingOperandsAreStable := by
  intro s t busy hstep busy'
  have same : SameWhileBusy s t := step_sameWhileBusy busy hstep busy'
  rw [SameWhileBusy] at same
  rw [same]
  exact ⟨rfl, rfl, rfl, rfl, rfl, rfl, rfl, rfl, rfl, rfl, rfl, rfl, rfl, rfl, rfl, rfl, rfl, rfl, rfl⟩

/-- A read is settled by the register at its offset. -/
theorem busRead_congr {a : Offset} {s t : State} (h : ∀ r, a = regOffset r → readReg r t = readReg r s) :
    busRead a t = busRead a s := by
  cases hr : regAt a with
  | none => simp [busRead, hr]
  | some r => simp [busRead, hr, h r (regOffset_of_regAt a r hr).symm]

theorem readReg_issue {r : Reg} (hstatus : r ≠ .status) (w : Word) (s : State) :
    readReg r (issue w s) = readReg r s := by
  cases r with
  | status => exact absurd rfl hstatus
  | _ => rfl

theorem readReg_of_sameWhileBusy {s t : State} (same : SameWhileBusy s t) {r : Reg} (hstatus : r ≠ .status)
    (hirq : r ≠ .irqEn) : readReg r t = readReg r s := by
  rw [SameWhileBusy] at same
  rw [same]
  cases r with
  | status => exact absurd rfl hstatus
  | irqEn => exact absurd rfl hirq
  | _ => rfl

/-- Settles O38: no register but STATUS shows an issue, none but STATUS and IRQ_EN a step that leaves the command
pending. -/
theorem readsWhileBusyAreCommitted : Obligations.ReadsWhileBusyAreCommitted := by
  refine ⟨fun a w s idle hstatus => ?_, fun a s t busy hstep busy' hstatus hirq => ?_, fun a s mapped => ?_⟩
  · have issued : busWrite 0x008 w s = (.okay, issue w s) := busWrite_of_idle idle .cmd w
    rw [issued]
    exact busRead_congr fun r ha => readReg_issue (by rintro rfl; exact hstatus ha) w s
  · have same : SameWhileBusy s t := step_sameWhileBusy busy hstep busy'
    exact busRead_congr fun r ha =>
      readReg_of_sameWhileBusy same (by rintro rfl; exact hstatus ha) (by rintro rfl; exact hirq ha)
  · obtain ⟨r, rfl⟩ := exists_regOffset_of_not_bad mapped
    exact ⟨_, busRead_regOffset r s⟩

/-! ## What a write of a read-write register stores (R27, R29 to R34, R68) -/

/-- The one bit of CTRL and of IRQ_EN, as it reads after a write. -/
theorem ofBool_bit0_setWidth (v : Word) : (BitVec.ofBool (v.getLsbD 0)).setWidth 32 = v &&& 0x00000001 := by
  apply BitVec.eq_of_getLsbD_eq
  intro i hi
  cases i <;> simp

/-- The low byte of KEYLEN, as it reads after a write. -/
theorem lowByte_setWidth (v : Word) : (v.extractLsb' 0 8).setWidth 32 = v &&& 0x000000FF := by
  apply BitVec.eq_of_toNat_eq
  have e : v.toNat &&& 0xFF = v.toNat % 2 ^ 8 := Nat.and_two_pow_sub_one_eq_mod v.toNat 8
  simp [e]
  omega

/-- A read-write register reads back the stored bits of what was written. -/
theorem readReg_writeReg_self {r : Reg} {m : Word} (h : storedBits r = some m) (v : Word) (s : State) :
    readReg r (writeReg r v s) = v &&& m := by
  cases r <;> cases h
  case ctrl => exact ofBool_bit0_setWidth v
  case irqEn => exact ofBool_bit0_setWidth v
  case keylen => exact lowByte_setWidth v
  all_goals
    refine Eq.trans ?_ (BitVec.and_allOnes (x := v)).symm
    simp [readReg, writeReg]

/-- A write of a read-write register is not seen in any other register, the other word of its pair included. -/
theorem readReg_writeReg_of_ne {r r' : Reg} {m : Word} (h : storedBits r = some m) (hne : r' ≠ r) (v : Word)
    (s : State) : readReg r' (writeReg r v s) = readReg r' s := by
  cases r <;> cases h
  all_goals
    cases r'
    case status => rfl
    all_goals simp [readReg, writeReg] at hne ⊢

/-- A read-write register's write leaves KEY and the pending command. -/
theorem writeReg_keeps_key_and_pending {r : Reg} {m : Word} (h : storedBits r = some m) (v : Word) (s : State) :
    (writeReg r v s).key = s.key ∧ (writeReg r v s).pending = s.pending := by
  cases r <;> cases h
  all_goals exact ⟨rfl, rfl⟩

/-- Settles O39: what the written register and every other one read after writeReg; the pairs read their own words. -/
theorem inputRegistersStoreWhatIsWritten : Obligations.InputRegistersStoreWhatIsWritten := by
  refine ⟨fun s r v m stored idle => ?_, fun s => ?_⟩
  · obtain ⟨key, pending⟩ := writeReg_keeps_key_and_pending stored v s
    refine ⟨writeReg r v s, busWrite_of_idle idle r v, fun r' => ?_, key, pending, writeReg_env r v s⟩
    split
    · next same => rw [same, readReg_writeReg_self stored]
    · next other => exact readReg_writeReg_of_ne stored other v s
  · exact ⟨busRead_regOffset .timeHi s, busRead_regOffset .timeLo s, busRead_regOffset .t0Hi s,
      busRead_regOffset .t0Lo s, busRead_regOffset .ctrHi s, busRead_regOffset .ctrLo s⟩

/-! ## Byte buffers in words (R38, R69) -/

/-- Byte k of word j after the write of that word. -/
theorem byteAt_setWordAt_same {n : Nat} (b : Vector Byte n) {j k : Nat} (w : Word) (hk : k < 4) (hn : 4 * j + k < n) :
    byteAt (setWordAt b j w) (4 * j + k) = wordByte w k := by
  have word : (4 * j + k) / 4 = j := by omega
  have byte : (4 * j + k) % 4 = k := by omega
  rw [byteAt_setWordAt b j w _ hn, if_pos word, byte]

/-- The bytes of the other words keep their values, those past the end of the buffer included. -/
theorem byteAt_setWordAt_other {n : Nat} (b : Vector Byte n) {j i : Nat} (w : Word) (h : i / 4 ≠ j) :
    byteAt (setWordAt b j w) i = byteAt b i := by
  by_cases hn : i < n
  · rw [byteAt_setWordAt b j w i hn, if_neg h]
  · rw [byteAt_of_le _ i (Nat.not_lt.1 hn), byteAt_of_le b i (Nat.not_lt.1 hn)]

/-- Settles O40: a KEY write is setWordAt, a DIGEST or CODE read is wordAt. -/
theorem buffersArePackedBigEndian : Obligations.BuffersArePackedBigEndian := by
  refine ⟨fun s j w idle => ?_, fun s j => busRead_regOffset (.digest j) s, fun s j => busRead_regOffset (.code j) s⟩
  have written : ∀ k < 4, byteAt (setWordAt s.key j.val w) (4 * j.val + k) = wordByte w k := by
    intro k hk
    exact byteAt_setWordAt_same s.key w hk (by simp only [Config.keyBufBytes]; omega)
  exact ⟨setWordAt s.key j.val w, busWrite_of_idle idle (.key j) w, written 0 (by omega), written 1 (by omega),
    written 2 (by omega), written 3 (by omega), fun i hi => byteAt_setWordAt_other s.key w hi⟩

/-! ## The aperture (R61) -/

theorem apertureOffset_of_outside {addr : Nat} (h : addr < Config.base ∨ Config.base + 0x200 ≤ addr) :
    apertureOffset addr = none := by
  refine if_neg ?_
  simp only [Config.apertureBytes]
  omega

theorem apertureOffset_base_add (a : Offset) : apertureOffset (Config.base + a.toNat) = some a := by
  have inside : Config.base ≤ Config.base + a.toNat ∧ Config.base + a.toNat < Config.base + Config.apertureBytes := by
    have := a.isLt
    simp only [Config.apertureBytes]
    omega
  rw [apertureOffset, if_pos inside, Nat.add_sub_cancel_left, BitVec.ofNat_toNat, BitVec.setWidth_eq]

/-- Settles O44: which offset, if any, an address of each kind has. -/
theorem apertureIsAtBase : Obligations.ApertureIsAtBase := by
  refine ⟨Nat.mul_mod_right 512 Config.baseBlock, fun addr v s outside => ?_, fun a v s => ?_⟩
  · simp [access, apertureOffset_of_outside outside]
  · simp [access, apertureOffset_base_add]

/-! ## Reads have no side effects (R72) -/

/-- Settles O45: a read's step writes the reply alone, on which no read depends. -/
theorem readsHaveNoSideEffects : Obligations.ReadsHaveNoSideEffects := by
  intro a b v s
  refine ⟨sameBlock_with_env s _, busRead_with_env b s _, rfl, sameBlock_writeAccess a v s, ?_⟩
  rw [writeAccess_eq]

end Sys2Proof.Machine

/-! PROOFS. The statements of spec/30_encoding.md: decoding and encoding (R91 to R98), the assembler (R101), the HOST's
statements (R102) and the pseudo-statements (R103, R104). The facts they share stand first. -/

namespace Sys2Proof.Machine

open Sys2Proof.Safety Sys2Proof.Claims

/-! ## Decode and encode (R91 to R97) -/

/-- The part of DIGITS a command uses: all of it or none (R96). -/
def usedDigits : Instr → BitVec 4
  | .reduce _ | .hotp _ _ | .totp _ _ => BitVec.allOnes 4
  | .nop | .clear | .derive | .hmac _ | .trunc | .format => 0

/-- The part of ALG a command uses: all of it or none (R96). -/
def usedAlg : Instr → BitVec 2
  | .hmac _ | .hotp _ _ | .totp _ _ => BitVec.allOnes 2
  | .nop | .clear | .derive | .trunc | .reduce _ | .format => 0

/-- The used bits of a word are its OP and the fields its command uses. -/
theorem usedBits_eq_packFields (i : Instr) : usedBits i = packFields (usedDigits i) (usedAlg i) 0xF := by
  cases i <;> simp only [usedBits, usedDigits, usedAlg] <;> rfl

theorem toNat_ofNat_of_digitsFit {d : Nat} (h : digitsFit d = true) : (BitVec.ofNat 4 d).toNat = d :=
  Nat.mod_eq_of_lt (of_decide_eq_true h)

/-- Decoding the encoding of a command gives the command. -/
theorem decode_encode {i : Instr} (h : i.wellFormed = true) : decode (encode i) = .ok i := by
  cases i with
  | nop | clear | derive | trunc | format => rfl
  | hmac a => rw [encode, decode_packFields, algOfBits_algCode]; rfl
  | reduce d => rw [encode, decode_packFields, toNat_ofNat_of_digitsFit h]; rfl
  | hotp a d | totp a d => rw [encode, decode_packFields, algOfBits_algCode, toNat_ofNat_of_digitsFit h]; rfl

/-- A command read from its OP row with ALG and DIGITS is well-formed, and its encoding holds the OP and the fields it
uses. -/
theorem encode_of_decodeOp {op d : BitVec 4} {b : BitVec 2} {i : Instr}
    (h : decodeOp op (algOfBits b) d.toNat = .ok i) :
    i.wellFormed = true ∧ encode i = packFields (d &&& usedDigits i) (b &&& usedAlg i) op := by
  have digits : digitsFit d.toNat = true := decide_eq_true d.isLt
  rw [← opCode_of_decodeOp h]
  unfold decodeOp at h
  split at h <;> cases h <;>
    simp [-BitVec.reduceAllOnes, Instr.wellFormed, digits, encode, usedDigits, usedAlg]

/-- Settles O5: a packed word's fields read back, and a decoded word is the pack of its own fields. -/
theorem decodeAndEncodeAgree : Obligations.DecodeAndEncodeAgree := by
  refine ⟨fun i => decode_encode, fun w i h => ?_⟩
  obtain ⟨res0, res1, row⟩ := (decode_ok_iff w i).1 h
  obtain ⟨wf, enc⟩ := encode_of_decodeOp row
  exact ⟨wf, by rw [enc, usedBits_eq_packFields, and_packFields w res0 res1]⟩

/-! ## Match and mask (R95 to R98) -/

/-- A word with an OP's match decodes by that OP's row (R97). -/
theorem decode_of_match {w : Word} {o : BitVec 4} (h : Matches w (o.setWidth 32)) :
    decode w = decodeOp o (algOfBits (algBits w)) (digitsBits w).toNat :=
  decode_of_fields ((match_iff w o).1 h)

/-- The words of the nine matches are those with no reserved bit set and an OP of 0 to 8. -/
theorem exists_match_iff (w : Word) :
    (∃ n : Fin 9, Matches w (BitVec.ofNat 32 n.val)) ↔
      (opField w).toNat < 9 ∧ res0Field w = 0 ∧ res1Field w = 0 := by
  have widen : ∀ n : Fin 9, BitVec.ofNat 32 n.val = (BitVec.ofNat 4 n.val).setWidth 32 := by decide
  have small : ∀ n : Fin 9, (BitVec.ofNat 4 n.val).toNat < 9 := by decide
  simp only [Matches, widen, match_iff]
  constructor
  · rintro ⟨n, op, res⟩
    exact ⟨op ▸ small n, res⟩
  · rintro ⟨op, res⟩
    exact ⟨⟨(opField w).toNat, op⟩, by rw [BitVec.ofNat_toNat, BitVec.setWidth_eq], res⟩

theorem illegal_iff_no_match (w : Word) : Illegal w ↔ ∀ n : Fin 9, ¬ Matches w (BitVec.ofNat 32 n.val) := by
  rw [← not_exists, exists_match_iff, not_and_or, not_and_or, not_lt]
  exact Iff.rfl

/-- Settles O2: a match fixes OP and the reserved fields, and the words without one are those that decode to nothing. -/
theorem decodeFollowsMatchAndMask : Obligations.DecodeFollowsMatchAndMask := fun w =>
  ⟨decode_of_match (o := 0), decode_of_match (o := 1), decode_of_match (o := 2), decode_of_match (o := 3),
    decode_of_match (o := 4), decode_of_match (o := 5), decode_of_match (o := 6), decode_of_match (o := 7),
    decode_of_match (o := 8), decode_error_iff w, illegal_iff_no_match w⟩

/-- Words with the same match decode alike when their OP's row does not tell their ALG and DIGITS apart. -/
theorem decode_congr {w v : Word} {o : BitVec 4} (masked : w &&& 0xFFFFF0CF = v &&& 0xFFFFF0CF)
    (op : w &&& 0xF = o.setWidth 32)
    (row : decodeOp o (algOfBits (algBits w)) (digitsBits w).toNat =
      decodeOp o (algOfBits (algBits v)) (digitsBits v).toNat) : decode w = decode v := by
  obtain ⟨sameOp, res0, res1⟩ := (masked_eq_iff w v).1 masked
  rw [← opField_of_and op, sameOp] at row
  simp only [decode, sameOp, res0, res1, row]

/-- Settles O3: the rows of OP 0, 1, 2, 4, 6 name neither field, that of OP 3 only ALG, that of OP 5 only DIGITS. -/
theorem unusedFieldsAreIgnored : Obligations.UnusedFieldsAreIgnored := by
  intro w v masked
  refine ⟨?_, fun op alg => decode_congr (o := 3) masked op ?_, fun op digits => decode_congr (o := 5) masked op ?_⟩
  · rintro (op | op | op | op | op)
    · exact decode_congr (o := 0) masked op rfl
    · exact decode_congr (o := 1) masked op rfl
    · exact decode_congr (o := 2) masked op rfl
    · exact decode_congr (o := 4) masked op rfl
    · exact decode_congr (o := 6) masked op rfl
  · exact congrArg (fun b => Except.ok (Instr.hmac (algOfBits b))) alg
  · exact congrArg (fun b : BitVec 4 => Except.ok (Instr.reduce b.toNat)) digits

/-- COMPLETE of an illegal word is the error completion with code 1 (R98). -/
theorem completeWord_of_illegal {w : Word} (h : Illegal w) (s : State) :
    completeWord w s = .next (finishErr .illegalCmd s) := by
  obtain ⟨e, he⟩ := (decode_error_iff w).2 h
  rw [completeWord, he, complete_error]

/-- Settles O4: the write issues the word (R210), and its COMPLETE is an error completion. -/
theorem illegalWordReportsCodeOne : Obligations.IllegalWordReportsCodeOne := by
  intro w s illegal idle
  have issued : busWrite 0x008 w s = (.okay, issue w s) := busWrite_of_idle idle .cmd w
  rw [issued]
  exact ⟨rfl, completeWord_of_illegal illegal (issue w s)⟩

/-- Settles O1: each of the words is evaluated. -/
theorem specWordsDecode : Obligations.SpecWordsDecode := by
  unfold Obligations.SpecWordsDecode
  decide

/-! ## The assembler (R101) -/

/-- A line without the separator is one part. -/
theorem splitFirst_of_notMem {sep : Char} {cs : List Char} (h : sep ∉ cs) : splitFirst sep cs = (cs, none) := by
  induction cs with
  | nil => rfl
  | cons c cs ih =>
    rw [List.mem_cons, not_or] at h
    obtain ⟨hc, hcs⟩ := h
    rw [splitFirst, if_neg (Ne.symm hc), ih hcs]

/-- A line is cut at the first separator. -/
theorem splitFirst_append {sep : Char} {cs : List Char} (h : sep ∉ cs) (rest : List Char) :
    splitFirst sep (cs ++ sep :: rest) = (cs, some rest) := by
  induction cs with
  | nil => simp [splitFirst]
  | cons c cs ih =>
    rw [List.mem_cons, not_or] at h
    obtain ⟨hc, hcs⟩ := h
    rw [List.cons_append, splitFirst, if_neg (Ne.symm hc), ih hcs]

/-- A string of decimal digits is read as the number it stands for. -/
theorem decimalFrom_of_isDigit {cs : List Char} (h : ∀ c ∈ cs, c.isDigit = true) (acc : Nat) :
    decimalFrom acc cs = some (Nat.ofDigitChars 10 cs acc) := by
  induction cs generalizing acc with
  | nil => rfl
  | cons c cs ih =>
    have digit : 48 ≤ c.toNat ∧ c.toNat ≤ 57 := Char.isDigit_iff_toNat.1 (h c List.mem_cons_self)
    rw [decimalFrom, if_pos digit, ih fun x hx => h x (List.mem_cons_of_mem c hx), Nat.ofDigitChars_cons, mul_comm]
    rfl

theorem isDigit_of_mem_decimal {d : Nat} {c : Char} (h : c ∈ decimal d) : c.isDigit = true :=
  Nat.isDigit_of_mem_toDigits (by decide) (by decide) h

/-- The operand d of a line reads as d. -/
theorem asmDigits_decimal (d : Nat) : asmDigits (some (decimal d)) = some d := by
  have read : decimalFrom 0 (decimal d) = some d := by
    rw [decimalFrom_of_isDigit fun c => isDigit_of_mem_decimal, Nat.ofDigitChars_ten_toDigits]
  obtain ⟨c, cs, e⟩ := List.exists_cons_of_ne_nil (Nat.toDigits_ne_nil (n := d) (b := 10))
  rw [decimal, e] at read ⊢
  exact read

/-- A digit has no other case. -/
theorem toLower_of_isDigit {c : Char} (h : c.isDigit = true) : c.toLower = c := by
  have digit : c.toNat ≤ 57 := (Char.isDigit_iff_toNat.1 h).2
  refine dif_neg fun upper => ?_
  have capital : 65 ≤ c.toNat := UInt32.le_iff_toNat_le.1 upper.1
  omega

theorem map_toLower_decimal (d : Nat) : (decimal d).map Char.toLower = decimal d :=
  (List.map_congr_left fun _ h => toLower_of_isDigit (isDigit_of_mem_decimal h)).trans (List.map_id _)

/-- A line with an operand: a lower-case mnemonic with its suffix, one space, d in decimal. -/
theorem assembleInstr_operand {name : List Char} (lower : name.map Char.toLower = name) (noSpace : ' ' ∉ name)
    (d : Nat) :
    assembleInstr (name ++ ' ' :: decimal d) =
      (asmParts (splitFirst '.' name).1 (splitFirst '.' name).2 (some (decimal d))).filter Instr.assembles := by
  have space : Char.toLower ' ' = ' ' := by decide
  rw [assembleInstr, List.map_append, List.map_cons, lower, space, map_toLower_decimal, splitFirst_append noSpace]
  cases asmParts (splitFirst '.' name).1 (splitFirst '.' name).2 (some (decimal d)) <;> rfl

/-- What a suffix that names an algorithm can be. -/
theorem asmAlg_some {alg : List Char} {a : AlgField} (h : asmAlg (some alg) = some a) :
    alg.map Char.toLower = alg ∧ ' ' ∉ alg ∧ algWritable a = true := by
  unfold asmAlg at h
  split at h <;> cases h <;> rename_i e <;> cases e <;> decide

theorem assembleInstr_reduce (d : Nat) :
    assembleInstr (line "reduce " ++ decimal d) = if digitsWritable d then some (.reduce d) else none := by
  have cut : line "reduce " ++ decimal d = line "reduce" ++ ' ' :: decimal d := rfl
  have parts : splitFirst '.' (line "reduce") = (line "reduce", none) := splitFirst_of_notMem (by decide)
  have read : asmParts (line "reduce") none (some (decimal d)) = some (.reduce d) :=
    congrArg (Option.map Instr.reduce) (asmDigits_decimal d)
  rw [cut, assembleInstr_operand (by decide) (by decide), parts, read]
  rfl

/-- A line of a mnemonic that takes a suffix and an operand, with a suffix that names algorithm a. -/
theorem assembleInstr_keyed {name alg : List Char} {f : AlgField → Nat → Instr} {a : AlgField}
    (lower : name.map Char.toLower = name) (noSpace : ' ' ∉ name) (noDot : '.' ∉ name)
    (parts : ∀ digits, asmParts name (some alg) digits =
      (asmAlg (some alg)).bind fun x => (asmDigits digits).map (f x))
    (assembles : ∀ x d, (f x d).assembles = (algWritable x && digitsWritable d))
    (named : asmAlg (some alg) = some a) (d : Nat) :
    assembleInstr (name ++ '.' :: alg ++ ' ' :: decimal d) = if digitsWritable d then some (f a d) else none := by
  obtain ⟨lowerAlg, noSpaceAlg, writable⟩ := asmAlg_some named
  have dot : Char.toLower '.' = '.' := by decide
  have read : asmParts name (some alg) (some (decimal d)) = some (f a d) := by
    rw [parts, named, asmDigits_decimal]
    rfl
  rw [assembleInstr_operand, splitFirst_append noDot, read]
  · simp [Option.filter, assembles, writable]
  · rw [List.map_append, List.map_cons, lower, dot, lowerAlg]
  · simp [noSpace, noSpaceAlg]

theorem assembleInstr_hotp {alg : List Char} {a : AlgField} (named : asmAlg (some alg) = some a) (d : Nat) :
    assembleInstr (line "hotp." ++ alg ++ [' '] ++ decimal d) =
      if digitsWritable d then some (.hotp a d) else none := by
  have cut : line "hotp." = line "hotp" ++ ['.'] := rfl
  simpa [cut] using assembleInstr_keyed (name := line "hotp") (f := Instr.hotp) (by decide) (by decide) (by decide)
    (fun _ => rfl) (fun _ _ => rfl) named d

theorem assembleInstr_totp {alg : List Char} {a : AlgField} (named : asmAlg (some alg) = some a) (d : Nat) :
    assembleInstr (line "totp." ++ alg ++ [' '] ++ decimal d) =
      if digitsWritable d then some (.totp a d) else none := by
  have cut : line "totp." = line "totp" ++ ['.'] := rfl
  simpa [cut] using assembleInstr_keyed (name := line "totp") (f := Instr.totp) (by decide) (by decide) (by decide)
    (fun _ => rfl) (fun _ _ => rfl) named d

/-- The digit counts the assembler writes are the legal ones (R101, R184). -/
theorem digitsWritable_iff (d : Nat) : digitsWritable d = true ↔ DigitsLegal d := decide_eq_true_iff

/-- A line with a legal digit count assembles to its command's word. -/
theorem assemble_of_legal {l : List Char} {d : Nat} {i : Instr}
    (h : assembleInstr l = if digitsWritable d then some i else none) (legal : DigitsLegal d) :
    assemble l = some (encode i) := by
  rw [assemble, h, if_pos ((digitsWritable_iff d).2 legal)]
  rfl

/-- A line with any other digit count is refused. -/
theorem assemble_of_illegal {l : List Char} {d : Nat} {i : Instr}
    (h : assembleInstr l = if digitsWritable d then some i else none) (illegal : ¬ DigitsLegal d) :
    assemble l = none := by
  rw [assemble, h, if_neg (mt (digitsWritable_iff d).1 illegal)]
  rfl

/-- The layout of R91 as the table of R101 writes it: OP, ALG from bit 4 and DIGITS from bit 8. -/
theorem packFields_eq_or (d : BitVec 4) (a : BitVec 2) (o : BitVec 4) :
    packFields d a o = o.setWidth 32 ||| (a.setWidth 32 <<< 4) ||| (d.setWidth 32 <<< 8) := by
  have h : ∀ (d : Fin 16) (a : Fin 4) (o : Fin 16),
      packFields (BitVec.ofFin (w := 4) d) (BitVec.ofFin (w := 2) a) (BitVec.ofFin (w := 4) o) =
        (BitVec.ofFin (w := 4) o).setWidth 32 ||| ((BitVec.ofFin (w := 2) a).setWidth 32 <<< 4) |||
          ((BitVec.ofFin (w := 4) d).setWidth 32 <<< 8) := by
    decide +kernel
  exact h d.toFin a.toFin o.toFin

/-- A legal digit count fits its field (R91). -/
theorem setWidth_ofNat_of_legal {d : Nat} (legal : DigitsLegal d) :
    (BitVec.ofNat 4 d).setWidth 32 = BitVec.ofNat 32 d := by
  apply BitVec.eq_of_toNat_eq
  simp only [BitVec.toNat_setWidth, BitVec.toNat_ofNat]
  omega

/-- The packed word of a legal digit count. -/
theorem packFields_of_legal {d : Nat} (legal : DigitsLegal d) (a : BitVec 2) (o : BitVec 4) :
    packFields (BitVec.ofNat 4 d) a o =
      o.setWidth 32 ||| (a.setWidth 32 <<< 4) ||| (BitVec.ofNat 32 d <<< 8) := by
  rw [packFields_eq_or, setWidth_ofNat_of_legal legal]

/-- The word of REDUCE's line (R101). -/
theorem assemble_reduce {d : Nat} (legal : DigitsLegal d) :
    assemble (line "reduce " ++ decimal d) = some (0x00000005 ||| (BitVec.ofNat 32 d <<< 8)) :=
  (assemble_of_legal (assembleInstr_reduce d) legal).trans (congrArg some (packFields_of_legal legal _ 5))

/-- The words of the two composite commands' lines (R101). -/
theorem assemble_keyed {alg : List Char} {a : AlgField} (named : asmAlg (some alg) = some a) {d : Nat}
    (legal : DigitsLegal d) :
    assemble (line "hotp." ++ alg ++ [' '] ++ decimal d)
      = some (0x00000007 ||| ((algCode a).setWidth 32 <<< 4) ||| (BitVec.ofNat 32 d <<< 8)) ∧
    assemble (line "totp." ++ alg ++ [' '] ++ decimal d)
      = some (0x00000008 ||| ((algCode a).setWidth 32 <<< 4) ||| (BitVec.ofNat 32 d <<< 8)) :=
  ⟨(assemble_of_legal (assembleInstr_hotp named d) legal).trans (congrArg some (packFields_of_legal legal _ 7)),
    (assemble_of_legal (assembleInstr_totp named d) legal).trans (congrArg some (packFields_of_legal legal _ 8))⟩

/-- Every command the assembler gives is one it may write (R101). -/
theorem assembles_of_assembleInstr {l : List Char} {i : Instr} (h : assembleInstr l = some i) :
    i.assembles = true := by
  unfold assembleInstr at h
  dsimp only at h
  split at h
  · split at h <;> cases h
    assumption
  · cases h

/-- What the assembler's check says of a command's operands. -/
theorem operands_of_assembles {i : Instr} (h : i.assembles = true) :
    (∀ d, (i = .reduce d ∨ ∃ a, i = .hotp a d ∨ i = .totp a d) → DigitsLegal d) ∧
    ∀ a, (i = .hmac a ∨ ∃ d, i = .hotp a d ∨ i = .totp a d) → a ≠ .reserved := by
  constructor
  · rintro d (rfl | ⟨a, rfl | rfl⟩)
    · exact (digitsWritable_iff d).1 h
    all_goals exact (digitsWritable_iff d).1 (Bool.and_elim_right h)
  · rintro a (rfl | ⟨d, rfl | rfl⟩) rfl <;> cases h

/-- Settles O6: the lines with a digit count by assembleInstr_reduce, assembleInstr_hotp and assembleInstr_totp, the
closed lines by evaluation. -/
theorem assemblerFollowsItsTable : Obligations.AssemblerFollowsItsTable := by
  refine ⟨by decide, by decide, by decide, by decide, by decide, by decide, by decide, by decide, ?table, ?letters,
    ?operands, ?refused, by decide, by decide, by decide, by decide, by decide, by decide⟩
  case table =>
    intro d legal
    refine ⟨assemble_reduce legal, ?_⟩
    simp only [List.forall_mem_cons]
    exact ⟨assemble_keyed (a := .sha1) rfl legal, assemble_keyed (a := .sha256) rfl legal,
      assemble_keyed (a := .sha512) rfl legal, nofun⟩
  case letters =>
    intro l l' same
    rw [assemble, assembleInstr, same]
    rfl
  case operands => exact fun l i h => operands_of_assembles (assembles_of_assembleInstr h)
  case refused =>
    intro d illegal
    exact ⟨assemble_of_illegal (assembleInstr_reduce d) illegal,
      assemble_of_illegal (assembleInstr_hotp (alg := line "sha1") rfl d) illegal,
      assemble_of_illegal (assembleInstr_totp (alg := line "sha512") rfl d) illegal⟩

/-! ## The HOST's statements (R102) -/

theorem hostStep_of_stmt {s : State} {st : Stmt} (h : s.env.script[s.env.pos]? = some st) :
    hostStep s = runStmt st s := by
  rw [hostStep, h]

/-- A turn that makes a write goes on to the next statement, unless reset holds it back. -/
theorem writesAndGoesOn_of_hostWrite {off : Offset} {v : Word} {s : State} (calm : s.env.inReset = false)
    (h : hostStep s = .next (hostWrite off v s)) : WritesAndGoesOn off v s := by
  have written : hostWrite off v s = advance (writeAccess off v s) := if_neg (by simp [calm])
  rw [written] at h
  exact ⟨_, h, rfl, rfl⟩

/-- A written variable reads back, and the others keep their values. -/
theorem readVar_writeVar {s : State} (canonical : VarsCanonical s) (r : Nat) (v : Word) (q : Nat) :
    readVar q (writeVar r v s) = if q = r then v else readVar q s :=
  varIn_setVarIn canonical r v q

theorem setsVariable_of_writeVar {r : Nat} {v : Word} {s : State} (canonical : VarsCanonical s)
    (h : hostStep s = .next (advance (writeVar r v s))) : SetsVariable r v s :=
  ⟨_, h, rfl, (readVar_writeVar canonical r v r).trans (if_pos rfl),
    fun q hq => (readVar_writeVar canonical r v q).trans (if_neg hq), rfl⟩

/-- A jump continues at the place of its label, or stops where the script does not hold it. -/
theorem jump_places (l : Target) (s : State) :
    (∃ n, LabelPlace s l n ∧ jump l s = .next (atPlace n s)) ∨ (NoLabel s l ∧ jump l s = .fault .noSuchLabel) := by
  cases l with
  | named k =>
    obtain ⟨n, here, first, taken⟩ | missing := jump_named k s
    · exact .inl ⟨n, ⟨here, first⟩, taken⟩
    · exact .inr missing
  | back k =>
    obtain ⟨n, before, here, last, taken⟩ | missing := jump_back k s
    · exact .inl ⟨n, ⟨before, here, last⟩, taken⟩
    · exact .inr missing

theorem branchesTo_of_branch {taken : Prop} {b : Bool} {l : Target} {s : State} (h : hostStep s = branch b l s)
    (condition : b = true ↔ taken) : BranchesTo taken l s := by
  rw [BranchesTo, h, ← condition]
  refine ⟨fun no => ?_, fun yes => ?_⟩
  · rw [branch, if_neg no]
    rfl
  · rw [branch, if_pos yes]
    exact jump_places l s

/-- Settles O58: each statement's turn is the write, the variable's write, the branch or the move that runStmt gives. -/
theorem hostStatementsDoWhatTheirTableSays : Obligations.HostStatementsDoWhatTheirTableSays := by
  intro s st next calm canonical
  have turn : hostStep s = runStmt st s := hostStep_of_stmt next
  refine ⟨?wr, ?rd, ?cmd, ?word, ?wrr, ?li, ?addi, ?bset, ?bclr, ?bne, ?label, ?halt⟩
  case wr | word | wrr =>
    intros
    subst st
    exact writesAndGoesOn_of_hostWrite calm turn
  case cmd =>
    rintro c rfl assembles
    rw [runStmt, if_pos assembles] at turn
    exact writesAndGoesOn_of_hostWrite calm turn
  case rd =>
    rintro r off rfl
    rw [runStmt, hostRead, calm] at turn
    exact ⟨_, turn, rfl, (readVar_writeVar canonical r _ r).trans (if_pos rfl),
      fun q hq => (readVar_writeVar canonical r _ q).trans (if_neg hq), rfl⟩
  case li | addi =>
    rintro r v rfl
    exact setsVariable_of_writeVar canonical turn
  case bset =>
    rintro r b l rfl
    exact branchesTo_of_branch turn Iff.rfl
  case bclr =>
    rintro r b l rfl
    exact branchesTo_of_branch turn (by rw [Bool.not_eq_true'])
  case bne =>
    rintro r v l rfl
    exact branchesTo_of_branch turn decide_eq_true_iff
  case label =>
    rintro l rfl
    exact turn
  case halt =>
    rintro rfl
    exact turn

/-! ## The pseudo-statements (R103, R104) -/

section KeyString

variable (str : List Byte)

theorem keyStmts_length : (keyStmts str).length = (str.length + 3) / 4 + 1 := by
  simp [keyStmts]

/-- Statement j of `key` writes word j of the padded string. -/
theorem keyStmts_word {j : Nat} (h : j < (str.length + 3) / 4) :
    (keyStmts str)[j]? = some (.wr (BitVec.ofNat 9 (0x100 + 4 * j)) (keyStringWord str j)) := by
  rw [keyStmts, List.getElem?_append_left (by simpa using h)]
  simp [h]

/-- The last statement of `key` writes KEYLEN. -/
theorem keyStmts_last : (keyStmts str)[(str.length + 3) / 4]? = some (.wr 0x018 (BitVec.ofNat 32 str.length)) := by
  rw [keyStmts, List.getElem?_append_right (by simp)]
  simp

end KeyString

/-- Settles O59: the statements of `key` one by one; the others and the examples are the definitions. -/
theorem pseudoStatementsExpand : Obligations.PseudoStatementsExpand := by
  refine ⟨rfl, fun v => ⟨rfl, rfl, rfl⟩, rfl, fun c => rfl, fun str _ => ?key, ?_, ?_, ?_, ?_⟩
  case key => exact ⟨keyStmts_length str, fun j hj => keyStmts_word str hj, keyStmts_last str⟩
  all_goals decide

end Sys2Proof.Machine

/-! PROOFS. The statements of spec/40_counter.md: DERIVE (R110, R112), the bytes of the counter (R111, R114) and the
boundaries of a time step (R113). The facts they share stand first. -/

namespace Sys2Proof.Machine

open Sys2Proof.Safety Sys2Proof.Claims

/-! ## The number of time steps (R110) -/

/-- The quotient is at most TIME, so no bit of it is lost in CTR. -/
theorem timeSteps_toNat (s : State) :
    (timeSteps s).toNat = (s.time.toNat - s.t0.toNat) / s.stepSecs.toNat := by
  have fits : (s.time.toNat - s.t0.toNat) / s.stepSecs.toNat < 2 ^ 64 :=
    ((Nat.div_le_self _ _).trans (Nat.sub_le _ _)).trans_lt s.time.isLt
  rw [BitVec.toNat_ofNat, Nat.mod_eq_of_lt fits]

/-- Two machines count the same number of steps exactly when their quotients agree. -/
theorem timeSteps_eq_iff (s s' : State) :
    timeSteps s = timeSteps s' ↔
      (s.time.toNat - s.t0.toNat) / s.stepSecs.toNat = (s'.time.toNat - s'.t0.toNat) / s'.stepSecs.toNat := by
  rw [← timeSteps_toNat s, ← timeSteps_toNat s', BitVec.toNat_inj]

theorem timeSteps_of_time_eq_t0 {s : State} (h : s.time = s.t0) : timeSteps s = 0 := by
  rw [timeSteps, h, Nat.sub_self, Nat.zero_div]
  rfl

theorem timeSteps_of_lt_step {s : State} (h : s.time.toNat - s.t0.toNat < s.stepSecs.toNat) : timeSteps s = 0 := by
  rw [timeSteps, Nat.div_eq_of_lt h]
  rfl

/-- With STEP = 1 the counter is the elapsed time. -/
theorem timeSteps_of_step_one {s : State} (order : s.t0.toNat ≤ s.time.toNat) (one : s.stepSecs = 1) :
    timeSteps s = s.time - s.t0 := by
  apply BitVec.eq_of_toNat_eq
  rw [timeSteps_toNat, one, BitVec.toNat_sub_of_le order]
  exact Nat.div_one _

/-- With T0 = 0 and STEP = 30 the counter is the number of whole half minutes. -/
theorem timeSteps_of_halfMinutes {s : State} (epoch : s.t0 = 0) (step : s.stepSecs = 30) :
    timeSteps s = BitVec.ofNat 64 (s.time.toNat / 30) := by
  rw [timeSteps, epoch, step]
  rfl

/-! ## DERIVE (R112) -/

section Derive

variable {s : State}

theorem exec_derive_of_timeOK (h : TimeOK s) : exec .derive s = .next (finishOk { s with ctr := timeSteps s }) :=
  exec_of_ok (deriveResult_of_ok (deriveT_of_ok h.1 h.2))

theorem exec_derive_of_error {c : ErrorCode} (h : deriveT s.time s.t0 s.stepSecs = .error c) :
    exec .derive s = .next (finishErr c s) := by
  refine exec_of_error ?_
  rw [commandResult, deriveResult, h]

end Derive

/-- Settles O14: the three answers of DeriveT (R110), and the corner cases of R112 from the quotient. -/
theorem deriveComputesTheTimeStep : Obligations.DeriveComputesTheTimeStep := by
  refine ⟨fun w => decode_of_match (o := 2),
    fun s => ⟨fun legal => ?success, fun zero => ?stepZero, fun nonzero early => ?early⟩⟩
  case success =>
    have elapsed := timeSteps_of_step_one legal.2
    refine ⟨exec_derive_of_timeOK legal, timeSteps_toNat s, timeSteps_of_time_eq_t0, elapsed,
      fun one epoch time => ?_, fun large lt => ?_, fun step epoch time => ?_⟩
    · rw [elapsed one, epoch, time]
      rfl
    · exact timeSteps_of_lt_step (by rw [large]; exact lt)
    · rw [timeSteps_of_halfMinutes epoch step, time]
      rfl
  case stepZero => exact exec_derive_of_error (by rw [zero]; exact deriveT_of_zero _ _)
  case early => exact exec_derive_of_error (deriveT_of_before nonzero early)

/-! ## The bytes of the counter (R111, R114) -/

theorem beNat_serialize (c : DWord) : beNat (serialize c) = c.toNat := by
  rw [serialize, beNat_beBytes, Nat.mod_eq_of_lt c.isLt]

/-- Byte i of Serialize(C), byte 0 the most significant (R111). -/
theorem serialize_getElem? (c : DWord) {i : Nat} (h : i < 8) :
    (serialize c)[i]? = some (c.extractLsb' (56 - 8 * i) 8) := by
  have place : 8 * (8 - 1 - i) = 56 - 8 * i := by omega
  rw [serialize, List.getElem?_eq_getElem (by simpa using h), beBytes_getElem, place]

/-- BE64 undoes Serialize, so no two counters have the same bytes (R114). -/
theorem serialize_injective {c c' : DWord} (h : serialize c = serialize c') : c = c' := by
  apply BitVec.eq_of_toNat_eq
  rw [← beNat_serialize c, h, beNat_serialize]

/-- Settles O25: the bytes as Serialize is defined, and BE64 as its inverse. -/
theorem serializeIsBigEndian : Obligations.SerializeIsBigEndian :=
  ⟨fun c _ => serialize_getElem? c, fun c => ⟨beBytes_length 8 c, beNat_serialize c⟩, fun _ _ => serialize_injective,
    by decide⟩

/-! ## Two times of one step (R113) -/

theorem exec_totp_of_ok {alg : AlgField} {h : HashAlg} {d : Nat} {s : State} (key : KeyedOK alg h s)
    (digits : DigitsLegal d) (time : TimeOK s) :
    exec (.totp alg d) s = .next (finishOk (hotpWrites h d { s with ctr := timeSteps s })) :=
  exec_of_ok (totpResult_of_ok key.1 ((digitsOK_iff d).2 digits) ((keyCheck_eq_none_iff s).2 key.2)
    (deriveT_of_ok time.1 time.2))

/-- No stage of a one-time password reads or writes TIME (R216). -/
theorem hotpWrites_with_time (h : HashAlg) (d : Nat) (s : State) (time : DWord) :
    hotpWrites h d { s with time := time } = { hotpWrites h d s with time := time } := rfl

/-- Settles O26: DERIVE leaves the number of time steps in CTR, and TOTP uses TIME only through that number. -/
theorem sameStepSameCounter : Obligations.SameStepSameCounter := by
  refine ⟨fun s s' _ _ legal legal' => ?counters, fun s epoch step => ?boundary,
    fun s alg h d time' key digits legal legal' same => ?totp⟩
  case counters =>
    exact ⟨_, _, exec_derive_of_timeOK legal, exec_derive_of_timeOK legal', timeSteps_eq_iff s s'⟩
  case boundary =>
    have legal (time : DWord) : TimeOK { s with time := time } := by simp [TimeOK, epoch, step]
    have steps (time : DWord) : timeSteps { s with time := time } = BitVec.ofNat 64 (time.toNat / 30) :=
      timeSteps_of_halfMinutes epoch step
    have derives (time : DWord) := exec_derive_of_timeOK (legal time)
    exact ⟨_, _, _, derives 0, derives 29, derives 30, steps 0, steps 29, steps 30⟩
  case totp =>
    refine ⟨_, exec_totp_of_ok key digits legal, ?_⟩
    rw [exec_totp_of_ok (s := { s with time := time' }) key digits legal', same]
    exact congrArg (fun u => Host.Outcome.next (finishOk u))
      (hotpWrites_with_time h d { s with ctr := timeSteps s } time')

end Sys2Proof.Machine

/-! PROOFS. The statements of spec/41_hmac.md: padding and blocks (R131, R132), the message schedules (R137, R143,
R149), lengths (R130), HMAC (R152 to R157) and the printed check values. The facts they share stand first. -/

namespace Sys2Proof.Machine

open Sys2Proof.Safety Sys2Proof.Claims

/-! ## Padding and blocks (R131, R132) -/

section Padding

variable {b k : Nat} (hk : 1 ≤ k) (hkb : k ≤ b)
include hk hkb

theorem zeroPad_fits (n : Nat) : (n + 1 + zeroPad b k n) % b = b - k := by
  rw [(zeroPad_spec b k n hk hkb).1, Nat.mod_eq_of_lt (by omega)]

/-- Two zero counts that fit are congruent modulo the block size, and zeroPad is less than one block. -/
theorem zeroPad_least (n : Nat) {z : Nat} (hz : z < zeroPad b k n) : (n + 1 + z) % b ≠ b - k := by
  intro fits
  have congruent : z ≡ zeroPad b k n [MOD b] :=
    Nat.ModEq.add_left_cancel' (n + 1) (fits.trans (zeroPad_fits hk hkb n).symm)
  have small : zeroPad b k n < b := (zeroPad_spec b k n hk hkb).2
  exact hz.ne (congruent.eq_of_lt_of_lt (hz.trans small) small)

/-- A message of n bytes pads to the whole blocks of n + k bytes and one more: the padded length is a multiple of the
block size in the range n + k + 1 to n + k + b. -/
theorem blocksOf_padMessage_length (m : List Byte) :
    (blocksOf b (padMessage b k m)).length = (m.length + k) / b + 1 := by
  have small : zeroPad b k m.length < b := (zeroPad_spec b k m.length hk hkb).2
  obtain ⟨q, hq⟩ := exists_eq_mul_left_of_dvd (Nat.dvd_of_mod_eq_zero (padMessage_length_mod b k m hk hkb))
  rw [blocksOf_length, hq, Nat.mul_div_cancel q (by omega)]
  rw [padMessage_length] at hq
  cases q with
  | zero => omega
  | succ q =>
    rw [Nat.succ_mul] at hq
    have whole : (m.length + k) / b = q := Nat.div_eq_of_lt_le (by omega) (by rw [Nat.succ_mul]; omega)
    rw [whole]

end Padding

/-- The length field holds the bit length where that fits (R131, R132). -/
theorem beNat_lengthField (k n : Nat) (fits : n < 2 ^ (8 * k)) : beNat (beBytes k (BitVec.ofNat (8 * k) n)) = n := by
  rw [beNat_beBytes, BitVec.toNat_ofNat, Nat.mod_mod, Nat.mod_eq_of_lt fits]

/-- Settles O27: padMessage's own parts, with zeroPad the least count that fits; the padded length is a multiple of the
block size, so the blocks join back to it. -/
theorem paddingFillsWholeBlocks : Obligations.PaddingFillsWholeBlocks := by
  intro m b k sizes
  have hk : 1 ≤ k := by omega
  have hkb : k ≤ b := by omega
  refine ⟨⟨zeroPad b k m.length, beBytes k (BitVec.ofNat (8 * k) (8 * m.length)), rfl, zeroPad_fits hk hkb m.length,
      fun z' => zeroPad_least hk hkb m.length, beBytes_length _ _, beNat_lengthField k _⟩, ?_, ?_⟩
  · exact blocksOf_flatten b _ (padMessage_length_mod b k m hk hkb)
  · exact length_of_mem_blocksOf b _

/-! ## Message schedules (R137, R143, R149) -/

/-- W_t by the recurrence of R137, from the words 3, 8, 14 and 16 places before it. -/
theorem sha1Schedule_next {m : List Word} (hm : m.length = 16) {t : Nat} (h16 : 16 ≤ t) (h80 : t < 80) :
    (sha1Schedule m).getD t 0 =
      ((sha1Schedule m).getD (t - 3) 0 ^^^ (sha1Schedule m).getD (t - 8) 0 ^^^ (sha1Schedule m).getD (t - 14) 0
        ^^^ (sha1Schedule m).getD (t - 16) 0).rotateLeft 1 := by
  have before (j : Nat) (hj : j < 16) := wordsBefore_getD sha1NextWord 64 m t j (by omega) (by omega)
  rw [sha1Schedule, schedule_next _ _ _ _ (by omega) (by omega)]
  simp only [sha1NextWord, before 2, before 7, before 13, before 15, Nat.reduceLT, Nat.sub_sub, Nat.reduceAdd]

/-- W_t by the recurrence that R143 and R149 share, from the words 2, 7, 15 and 16 places before it. -/
theorem schedule_sha2NextWord_next {w : Nat} (smallSigma0 smallSigma1 : BitVec w → BitVec w) (n : Nat)
    {m : List (BitVec w)} (hm : m.length = 16) {t : Nat} (h16 : 16 ≤ t) (ht : t < n + 16) :
    (schedule (sha2NextWord smallSigma0 smallSigma1) n m).getD t 0 =
      smallSigma1 ((schedule (sha2NextWord smallSigma0 smallSigma1) n m).getD (t - 2) 0)
        + (schedule (sha2NextWord smallSigma0 smallSigma1) n m).getD (t - 7) 0
        + smallSigma0 ((schedule (sha2NextWord smallSigma0 smallSigma1) n m).getD (t - 15) 0)
        + (schedule (sha2NextWord smallSigma0 smallSigma1) n m).getD (t - 16) 0 := by
  have before (j : Nat) (hj : j < 16) :=
    wordsBefore_getD (sha2NextWord smallSigma0 smallSigma1) n m t j (by omega) (by omega)
  rw [schedule_next _ _ _ _ (by omega) (by omega)]
  simp only [sha2NextWord, before 1, before 6, before 14, before 15, Nat.reduceLT, Nat.sub_sub, Nat.reduceAdd]

/-- The length and the first words of a schedule over a block of 16 words. -/
theorem schedule_length_and_start {w : Nat} (next : List (BitVec w) → BitVec w) (n : Nat) {m : List (BitVec w)}
    (hm : m.length = 16) :
    (schedule next n m).length = n + 16 ∧ ∀ t < 16, (schedule next n m).getD t 0 = m.getD t 0 :=
  ⟨by rw [schedule_length, hm], fun t ht => schedule_start next n m t (by omega)⟩

/-- Settles O28: the three schedules are schedule with their own next word. -/
theorem schedulesFollowTheirRecurrences : Obligations.SchedulesFollowTheirRecurrences := by
  refine ⟨fun m hm => ?sha1, fun m hm => ?sha256, fun m hm => ?sha512⟩
  case sha1 =>
    obtain ⟨length, start⟩ := schedule_length_and_start sha1NextWord 64 hm
    exact ⟨length, start, fun t => sha1Schedule_next hm⟩
  case sha256 =>
    obtain ⟨length, start⟩ := schedule_length_and_start (sha2NextWord smallSigma0_256 smallSigma1_256) 48 hm
    exact ⟨length, start, fun t => schedule_sha2NextWord_next _ _ 48 hm⟩
  case sha512 =>
    obtain ⟨length, start⟩ := schedule_length_and_start (sha2NextWord smallSigma0_512 smallSigma1_512) 64 hm
    exact ⟨length, start, fun t => schedule_sha2NextWord_next _ _ 64 hm⟩

/-! ## Lengths and keys (R130, R152, R153, R156) -/

/-- Settles O29: the lengths of the hash's output words and of the key block. -/
theorem digestLengthsAreFixed : Obligations.DigestLengthsAreFixed :=
  ⟨hash_length, fun h k m => ⟨hmac_length h k m, keyBlock_length h k⟩, rfl, rfl, rfl⟩

/-- A hash is never longer than a block, so it is its own K' (R152, R156). -/
theorem shortKey_hash (h : HashAlg) (m : List Byte) : shortKey h (hash h m) = hash h m :=
  if_pos (by rw [hash_length]; exact dlen_le_blockLen h)

/-- A key longer than a block is hashed, then filled with zeros (R152). -/
theorem keyBlock_of_long {h : HashAlg} {k : List Byte} (long : blockLen h < k.length) :
    keyBlock h k = hash h k ++ List.replicate (blockLen h - dlen h) 0 := by
  rw [← keyBlock_hash h k long, keyBlock, shortKey_hash, hash_length]

/-- Settles O30: HMAC reads the key only through its key block, which is that of its hash. -/
theorem prehashedKeyIsEquivalent : Obligations.PrehashedKeyIsEquivalent := by
  intro h k m long
  refine ⟨?_, hash_length h k, dlen_le_blockLen h, shortKey_hash h k⟩
  rw [hmac, hmac, keyBlock_hash h k long]

/-! ## The hash inputs of HMAC (R157) -/

@[simp] theorem xorPad_length (c : Byte) (k0 : List Byte) : (xorPad c k0).length = k0.length := List.length_map _

/-- An input of one block and L more bytes, L the 8 of the counter or a digest length, pads to two blocks: there is
room for the 0x80 and the length field in the second (R157). -/
theorem blocksOf_padMessage_length_eq_two {b k : Nat} {m : List Byte} {l : Nat} (hk : 1 ≤ k) (room : l + k < b)
    (hm : m.length = b + l) : (blocksOf b (padMessage b k m)).length = 2 := by
  rw [blocksOf_padMessage_length hk (by omega), hm, Nat.add_assoc, Nat.add_div_left _ (by omega), Nat.div_eq_of_lt room]

/-- Settles O32: both inputs are a key block and less than a block's room more; a key of 65 to 128 bytes and the 8 bytes
of its length field fill one or two whole blocks. -/
theorem hmacBlockCounts : Obligations.HmacBlockCounts := by
  refine ⟨fun h k c hc => ?inputs, fun k h65 h128 => ?longKey⟩
  case inputs =>
    intro b n inner outer
    have hinner : inner.length = b + 8 := by simp [inner, hc, b]
    have houter : outer.length = b + dlen h := by simp [outer, b]
    have room : 1 ≤ n ∧ 8 + n < b ∧ dlen h + n < b := by cases h <;> decide
    obtain ⟨hn, innerRoom, outerRoom⟩ := room
    exact ⟨rfl, hinner, houter, blocksOf_padMessage_length_eq_two hn innerRoom hinner,
      blocksOf_padMessage_length_eq_two hn outerRoom houter⟩
  case longKey =>
    rw [blocksOf_padMessage_length (by decide) (by decide)]
    omega

/-! ## The check values (R139, R145, R151, R154, R182, R185) -/

/-- The example of R154: HMAC-SHA-1 of counter 0 under the spec's test key. -/
theorem hmac_sha1_keyK20 : beNat (hmac .sha1 keyK20 (serialize 0)) = 0xcc93cf18508d94934c64b65d8ba7667fb7cde4b0 := by
  decide +kernel

/-- Settles O31: each function is evaluated on the printed input. -/
theorem checkValues : Obligations.CheckValues := by
  refine ⟨?sha1, ?sha256, ?sha512, hmac_sha1_keyK20, ?trunc, ?reduce⟩
  all_goals decide +kernel

/-! ## The command HMAC (R154, R155) -/

theorem exec_hmac_of_keyedOK {alg : AlgField} {h : HashAlg} {s : State} (ok : KeyedOK alg h s) :
    exec (.hmac alg) s = .next (finishOk (hmacWrites h s)) :=
  exec_of_ok (hmacResult_of_ok ok.1 ((keyCheck_eq_none_iff s).2 ok.2))

theorem exec_hmac_of_keyCheck {alg : AlgField} {h : HashAlg} {s : State} {c : ErrorCode} (named : algOf alg = some h)
    (failed : keyCheck s = some c) : exec (.hmac alg) s = .next (finishErr c s) := by
  refine exec_of_error ?_
  simp only [commandResult, hmacResult, named, failed]

/-- HMAC's result with another key buffer that holds the same secret: the same, but for the buffer (R30, R154). -/
theorem hmacResult_with_key (alg : AlgField) {s : State} {k : Vector Byte 128}
    (same : ∀ i < s.keylen.toNat, byteAt k i = byteAt s.key i) :
    hmacResult alg { s with key := k } = (hmacResult alg s).map fun u => { u with key := k } := by
  have check : keyCheck { s with key := k } = keyCheck s := keyCheck_agree rfl rfl same
  have digest (h : HashAlg) : keyedDigest h { s with key := k } = keyedDigest h s :=
    keyedDigest_agree h (keyBytes_agree rfl same) rfl
  simp only [hmacResult, check, digest]
  cases algOf alg with
  | none => rfl
  | some h => cases keyCheck s <;> rfl

/-- No key byte from KEYLEN on is read, and the key buffer is left as it is (R30, R48). -/
theorem exec_hmac_with_key {alg : AlgField} {s t : State} {k : Vector Byte 128}
    (same : ∀ i < s.keylen.toNat, byteAt k i = byteAt s.key i) (ran : exec (.hmac alg) s = .next t) :
    exec (.hmac alg) { s with key := k } = .next { t with key := k } := by
  have result : commandResult (.hmac alg) { s with key := k } = _ := hmacResult_with_key alg same
  obtain ⟨u, hu, rfl⟩ | ⟨c, hc, rfl⟩ := exec_cases ran
  · rw [commandResult] at hu
    rw [hu] at result
    exact exec_of_ok result
  · rw [commandResult] at hc
    rw [hc] at result
    exact exec_of_error result

/-- The digest of the worked example is the HMAC under the test key, which is what the loaded key's 20 bytes are. -/
theorem digest_of_workedState :
    (hmacWrites .sha1 (workedState 0 0)).digest.toList.take 20 = hmac .sha1 keyK20 (serialize 0) := by
  have secret : keyBytes (workedState 0 0) = keyK20 := by decide
  have buffer := keyedDigest_toList .sha1 (workedState 0 0)
  change _ = hmac .sha1 (keyBytes (workedState 0 0)) (serialize 0) ++ _ at buffer
  rw [hmacWrites, markDigest_digest, buffer, secret]
  exact List.take_left' (hmac_length .sha1 _ _)

/-- Settles O15: the answers of KeyCheck in order, the secret as far as KEYLEN, and the key block of R152. -/
theorem hmacWritesTheDigest : Obligations.HmacWritesTheDigest := by
  refine ⟨fun w => decode_of_match (o := 3), fun s alg h ok => ?success, fun s => rfl, fun s alg h named bad => ?length,
    fun s alg h named legal bad => ?encoding, fun h k => keyBlock_of_long, keyBlock_of_full,
    fun s k same alg t => exec_hmac_with_key same, by decide, ?workedExample⟩
  case success => exact ⟨_, keyedDigest_toList h s, exec_hmac_of_keyedOK (h := h) ok⟩
  case length => exact exec_hmac_of_keyCheck named (keyCheck_of_bad_length s bad)
  case encoding => exact exec_hmac_of_keyCheck named (keyCheck_of_bad_encoding s legal bad)
  case workedExample =>
    have ok : KeyedOK .sha1 .sha1 (workedState 0 0) := by decide
    refine ⟨_, exec_hmac_of_keyedOK ok, ?_⟩
    rw [finishOk_digest, digest_of_workedState]
    exact hmac_sha1_keyK20

end Sys2Proof.Machine

/-! PROOFS. The statements of spec/42_truncate.md: the truncation window (R180, R181), TRUNC (R182), REDUCE (R183 to
R185), and the one-time password with the decimal code it is rendered as (R186; spec/43_format.md R202). The facts they
share stand first. -/

namespace Sys2Proof.Machine

open Sys2Proof.Safety Sys2Proof.Claims

/-! ## The truncation window (R180, R181) -/

theorem isTruncation_truncate (d : Vector Byte 64) (l : Nat) :
    IsTruncation d l (truncate d l).1 (truncate d l).2 :=
  ⟨windowOffset_toNat d l, windowValue_toNat d _⟩

/-- Beside byte l − 1 only bytes 0 to 18 can be read, the offset being at most 15 (R181). -/
theorem truncate_eq_of_agree {d d' : Vector Byte 64} {l : Nat} (last : byteAt d (l - 1) = byteAt d' (l - 1))
    (window : ∀ i ≤ 18, byteAt d i = byteAt d' i) : truncate d l = truncate d' l :=
  truncate_congr (by rw [last]) fun i _ hi => window i (by omega)

/-- From 19 bytes on, every byte that Truncate reads is a byte of the digest (R181). -/
theorem truncate_eq_of_agree_below {d d' : Vector Byte 64} {l : Nat} (long : 19 ≤ l)
    (agree : ∀ i < l, byteAt d i = byteAt d' i) : truncate d l = truncate d' l :=
  truncate_eq_of_agree (agree (l - 1) (by omega)) fun i hi => agree i (by omega)

/-- A SHA-1 digest whose offset is 15: bytes 15 to 18 are the window, and byte 19 gives the offset only (R181). -/
theorem truncate_sha1_eq_of_offset_15 {d d' : Vector Byte 64} (last : (byteAt d 19).toNat % 16 = 15)
    (last' : (byteAt d' 19).toNat % 16 = 15) (window : ∀ i, 15 ≤ i → i ≤ 18 → byteAt d i = byteAt d' i) :
    truncate d (dlen .sha1) = truncate d' (dlen .sha1) := by
  refine truncate_congr (last.trans last'.symm) ?_
  rw [show (byteAt d (dlen .sha1 - 1)).toNat % 16 = 15 from last]
  exact window

/-- Sixteen bytes do not suffice: with offset 15 the window's second byte is byte 16. -/
theorem exists_truncate_16_ne :
    ∃ d d' : Vector Byte 64, (∀ i < 16, byteAt d i = byteAt d' i) ∧ truncate d 16 ≠ truncate d' 16 :=
  ⟨bufferOf 64 (List.replicate 15 0 ++ [0x0F]), bufferOf 64 (List.replicate 15 0 ++ [0x0F, 0x01]),
    by decide +kernel, by decide +kernel⟩

/-- Settles O33: Truncate reads byte l − 1 and the window from its low nibble on. -/
theorem windowIsInsideTheDigest : Obligations.WindowIsInsideTheDigest := by
  refine ⟨fun d l => ⟨windowOffset_toNat d l, ?_⟩, fun d d' l => truncate_eq_of_agree,
    fun d d' l => truncate_eq_of_agree_below, fun h => ?_, fun d d' => truncate_sha1_eq_of_offset_15,
    exists_truncate_16_ne⟩
  · have offset_lt := (truncate d l).1.isLt
    omega
  · cases h <;> decide

/-! ## The command TRUNC (R182) -/

theorem exec_trunc_of_ready {s : State} (ready : s.dv = true) :
    exec .trunc s = .next (finishOk (truncWrites s)) :=
  exec_of_ok (truncResult_of_ok ready)

/-- Settles O16: the writes of TRUNC are Truncate of the held digest; the example's window is that of O31. -/
theorem truncSelectsTheWindow : Obligations.TruncSelectsTheWindow := by
  refine ⟨fun w => decode_of_match (o := 4), fun s ready => ?success, fun s notReady => ?notReady, ?workedExample⟩
  case success => exact ⟨_, _, isTruncation_truncate s.digest (dlen s.dalg), exec_trunc_of_ready ready⟩
  case notReady => exact exec_of_error (i := .trunc) (truncResult_of_not_ready notReady)
  case workedExample =>
    obtain ⟨_, _, _, _, window, _⟩ := checkValues
    exact ⟨_, exec_trunc_of_ready rfl, congrArg Prod.fst window, congrArg Prod.snd window⟩

/-! ## The command REDUCE (R183 to R185) -/

/-- P has 31 bits, so it is below 10^10. -/
theorem reduceBy_ten (p : BitVec 31) : reduceBy p 10 = p := by
  apply BitVec.eq_of_toNat_eq
  rw [reduceBy_toNat]
  exact Nat.mod_eq_of_lt (by omega)

theorem exec_reduce_of_ready {d : Nat} {s : State} (legal : DigitsLegal d) (ready : s.pv = true) :
    exec (.reduce d) s = .next (finishOk (reduceWrites d s)) :=
  exec_of_ok (reduceResult_of_ok ((digitsOK_iff d).2 legal) ready)

/-- The digit count is checked before the valid bit, so whatever PV is (R185). -/
theorem exec_reduce_of_illegal {d : Nat} (illegal : ¬ DigitsLegal d) (s : State) :
    exec (.reduce d) s = .next (finishErr .invalidDigitCount s) := by
  refine exec_of_error (if_pos ?_)
  rwa [← Bool.not_eq_true, digitsOK_iff]

/-- The remainders that R185 prints for P = 2^31 − 1, from the powers of ten. -/
theorem exec_reduce_of_largest {d v : Nat} (legal : DigitsLegal d) (remainder : 2147483647 % 10 ^ d = v) :
    ∃ t, exec (.reduce d) { State.reset with pv := true, p := 0x7FFFFFFF } = .next t ∧ t.otp.toNat = v :=
  ⟨_, exec_reduce_of_ready legal rfl, (reduceBy_toNat _ d).trans remainder⟩

/-- Settles O17: the writes of REDUCE are the exact remainder; the example's remainder is that of O31. -/
theorem reduceTakesTheRemainder : Obligations.ReduceTakesTheRemainder := by
  refine ⟨fun w => decode_of_match (o := 5), fun s d legal ready => ?success,
    fun s d illegal => exec_reduce_of_illegal illegal s, fun s d legal notReady => ?notReady,
    fun p => ?nineDigits, fun x listed => ?largest, ?workedExample⟩
  case success =>
    refine ⟨reduceBy s.p d, reduceBy_toNat s.p d, ?_, exec_reduce_of_ready legal ready⟩
    rintro rfl
    exact reduceBy_ten s.p
  case notReady => exact exec_of_error (i := .reduce d) (reduceResult_of_not_ready ((digitsOK_iff d).2 legal) notReady)
  case nineDigits => omega
  case largest =>
    have table : DigitsLegal x.1 ∧ 2147483647 % 10 ^ x.1 = x.2 := by
      revert x
      decide
    exact exec_reduce_of_largest table.1 table.2
  case workedExample =>
    obtain ⟨_, _, _, _, _, remainder⟩ := checkValues
    exact ⟨_, exec_reduce_of_ready (by decide) rfl, remainder, rfl⟩

/-! ## The digits of a code read as its number (R200, R202) -/

theorem reduceBy_le (p : BitVec 31) (d : Nat) : (reduceBy p d).toNat ≤ p.toNat := by
  rw [reduceBy_toNat]
  exact Nat.mod_le _ _

theorem isFormat_formatCode (v : BitVec 31) (d : Nat) : IsFormat v.toNat d (formatCode v d) := by
  refine ⟨fun i hd h12 => ?_, fun i hd h12 => ?_⟩
  · rw [byteAt_formatCode v d i h12, formatByte_toNat _ _ _ hd]
  · rw [byteAt_formatCode v d i h12, formatByte_of_le _ _ _ hd]

/-- One more character of a decimal string: ten times the number so far, and the digit. -/
theorem decimalValue_concat (bs : List Byte) (b : Byte) :
    decimalValue (bs ++ [b]) = decimalValue bs * 10 + (b.toNat - 0x30) :=
  List.foldl_concat ..

/-- The first bytes of a buffer, one byte longer. -/
theorem take_succ_eq_concat_byteAt {n : Nat} (b : Vector Byte n) {k : Nat} (h : k < n) :
    b.toList.take (k + 1) = b.toList.take k ++ [byteAt b k] := by
  rw [List.take_add_one, List.getElem?_eq_getElem (by simpa using h)]
  simp [h]

section FormattedCode

variable {v d : Nat} {code : Vector Byte 12} (format : IsFormat v d code) (hd : d ≤ 12)
include format hd

/-- The first k of d digits read as the number without its last d − k digits. -/
theorem decimalValue_take_of_isFormat (hv : v < 10 ^ d) {k : Nat} (hk : k ≤ d) :
    decimalValue (code.toList.take k) = v / 10 ^ (d - k) := by
  induction k with
  | zero => exact (Nat.div_eq_of_lt hv).symm
  | succ k ih =>
    have digit := format.1 k (by omega) (by omega)
    have place : d - k = d - 1 - k + 1 := by omega
    have rest : d - (k + 1) = d - 1 - k := by omega
    rw [take_succ_eq_concat_byteAt code (by omega), decimalValue_concat, ih (by omega), digit, place, rest, Nat.pow_succ,
      ← Nat.div_div_eq_div_mul]
    omega

theorem isDigit_of_mem_take_of_isFormat {b : Byte} (h : b ∈ code.toList.take d) : 0x30 ≤ b.toNat ∧ b.toNat ≤ 0x39 := by
  obtain ⟨i, hi, rfl⟩ := List.mem_take_iff_getElem.1 h
  have hid : i < d := by omega
  have digit := format.1 i hid (by omega)
  rw [byteAt_eq_getElem code i (by omega)] at digit
  rw [Vector.getElem_toList, digit]
  omega

omit hd in
theorem eq_zero_of_mem_drop_of_isFormat {b : Byte} (h : b ∈ code.toList.drop d) : b = 0 := by
  obtain ⟨i, hi, rfl⟩ := List.mem_drop_iff_getElem.1 h
  have h12 : d + i < 12 := by simpa [Nat.add_comm] using hi
  rw [Vector.getElem_toList, ← byteAt_eq_getElem code (d + i) h12]
  exact format.2 (d + i) (by omega) h12

/-- A formatted code is d ASCII digits that read as v, and zeros after them (R202). -/
theorem code_reads_of_isFormat (hv : v < 10 ^ d) :
    decimalValue (code.toList.take d) = v ∧ (∀ b ∈ code.toList.take d, 0x30 ≤ b.toNat ∧ b.toNat ≤ 0x39) ∧
    ∀ b ∈ code.toList.drop d, b = 0 := by
  refine ⟨?_, fun b => isDigit_of_mem_take_of_isFormat format hd, fun b => eq_zero_of_mem_drop_of_isFormat format⟩
  rw [decimalValue_take_of_isFormat format hd hv le_rfl, Nat.sub_self, Nat.pow_zero, Nat.div_one]

end FormattedCode

/-! ## The one-time password and its code (R186, R202) -/

theorem exec_format_of_ready {s : State} (ready : s.ov = true) :
    exec .format s = .next (finishOk (formatWrites s)) :=
  exec_of_ok (formatResult_of_ok ready)

theorem exec_hotp_of_ok {alg : AlgField} {h : HashAlg} {d : Nat} {s : State} (key : KeyedOK alg h s)
    (digits : DigitsLegal d) : exec (.hotp alg d) s = .next (finishOk (hotpWrites h d s)) :=
  exec_of_ok (hotpResult_of_ok key.1 ((digitsOK_iff d).2 digits) ((keyCheck_eq_none_iff s).2 key.2))

/-- Settles O24: OTP is a remainder of P modulo 10^ODIG, and CODE is Format of it. -/
theorem codeReadsAsTheOtp : Obligations.CodeReadsAsTheOtp := by
  refine ⟨fun s d legal ready => ?reduce, fun s ready range => ?format,
    fun s alg h d i key legal command => ?composite⟩
  case reduce =>
    exact ⟨_, exec_reduce_of_ready legal ready, odig_toNat legal, reduceBy_lt s.p d, reduceBy_le s.p d⟩
  case format =>
    obtain ⟨_, atMostTen, below⟩ := range ready
    exact ⟨_, exec_format_of_ready ready, code_reads_of_isFormat (isFormat_formatCode _ _) (atMostTen.trans (by decide)) below⟩
  case composite =>
    have ran : ∃ u, exec i s = .next (finishOk (hotpWrites h d u)) := by
      obtain rfl | ⟨rfl, time⟩ := command
      · exact ⟨_, exec_hotp_of_ok key legal⟩
      · exact ⟨_, exec_totp_of_ok key legal time⟩
    obtain ⟨u, ran⟩ := ran
    exact ⟨_, ran, odig_toNat legal, reduceBy_lt _ d, reduceBy_le _ d,
      code_reads_of_isFormat (isFormat_formatCode _ _) (by omega) (reduceBy_lt _ d)⟩

end Sys2Proof.Machine

/-! PROOFS. The statement of spec/43_format.md about the command FORMAT (R200, R201). R202, and the facts about Format
that both use, stand with the one-time password above. -/

namespace Sys2Proof.Machine

open Sys2Proof.Claims

/-- The CODE words after FORMAT are those of Format(OTP, ODIG): no other field is read (R40, R201). -/
theorem readReg_code_of_exec_format {s t : State} (ready : s.ov = true) (ran : exec .format s = .next t) (j : Fin 3) :
    readReg (.code j) t = wordAt (formatCode s.otp s.odig.toNat) j := by
  rw [exec_format_of_ready ready] at ran
  cases ran
  rfl

/-- Settles O18: the writes of FORMAT are Format of OTP, whether or not the state meets R50 (d); the example is three
words of Format(42, 6). -/
theorem formatWritesTheDigits : Obligations.FormatWritesTheDigits := by
  refine ⟨fun w => decode_of_match (o := 6), fun s ready => ?success, fun s notReady => ?notReady,
    fun s t ready otp odig ran => ?workedExample⟩
  case success => exact ⟨_, isFormat_formatCode s.otp s.odig.toNat, exec_format_of_ready ready⟩
  case notReady => exact exec_of_error (i := .format) (formatResult_of_not_ready notReady)
  case workedExample =>
    simp only [readReg_code_of_exec_format ready ran, otp, odig]
    decide

end Sys2Proof.Machine

/-! PROOFS. The statements of spec/44_sequence.md: issue (R210), COMPLETE (R211, R213), the control commands (R214,
R215), HOTP and TOTP (R216, R217), the stages issued one by one (R218), and that no step stops (R212). The facts they
share stand first. -/

namespace Sys2Proof.Machine

open Sys2Proof.Safety Sys2Proof.Claims

/-! ## Issue (R210) and COMPLETE (R211, R213) -/

/-- Settles O8: CMD is a register that a write reaches exactly while BUSY = 0. -/
theorem cmdWriteIssues : Obligations.CmdWriteIssues := fun _ w =>
  ⟨fun idle => busWrite_of_idle idle .cmd w, fun busy => busWrite_of_busy busy (r := .cmd) rfl w⟩

theorem completeWord_of_decode {w : Word} {i : Instr} (h : decode w = .ok i) (s : State) :
    completeWord w s = exec i s := by
  rw [completeWord, h]

/-- Settles O9: every pending word has a completion, and each completion retires it. -/
theorem completeRetiresThePendingWord : Obligations.CompleteRetiresThePendingWord := by
  refine fun s => ⟨fun idle => ?nothingPending, fun w pending => ?pending⟩
  case nothingPending => rw [engineStep, idle]
  case pending =>
    rw [engineStep_of_pending pending]
    obtain ⟨t, completes⟩ := completeWord_next w s
    obtain ⟨idle, done⟩ := completeWord_retires completes
    exact ⟨fun illegal => completeWord_of_illegal illegal s, fun i decoded => completeWord_of_decode decoded s,
      t, completes, idle, done, completeWord_env completes⟩

/-- A command issued on an idle block and completed is Exec of the command, on the state the issue left. -/
theorem issueAndComplete_of_idle {i : Instr} {s : State} (idle : isBusy s = false) (wf : i.wellFormed = true) :
    issueAndComplete i s = exec i (issue (encode i) s) := by
  have issued : busWrite 0x008 (encode i) s = (.okay, issue (encode i) s) := busWrite_of_idle idle .cmd _
  rw [issueAndComplete, issued, engineStep_of_pending rfl, completeWord_of_decode (decode_encode wf)]

/-! ## NOP (R214) -/

/-- STATUS of an idle block after a success: DONE, and what stood in OVR, the valid bits, DALG and ODIG. -/
theorem statusWord_of_success {s : State} (idle : isBusy s = false) :
    statusWord { s with done := true, err := false, errcode := 0 } =
      0x00000002 ||| (statusWord s &&& 0x000F30F8) := by
  have idle' : isBusy { s with done := true, err := false, errcode := 0 } = false := idle
  apply BitVec.eq_of_getLsbD_eq
  intro i hi
  rw [BitVec.getLsbD_or, BitVec.getLsbD_and, getLsbD_statusWord, getLsbD_statusWord, idle']
  interval_cases i <;> simp

/-- Settles O12: NOP's completion is its only effect, so STATUS keeps what the issue kept. -/
theorem nopOnlyCompletes : Obligations.NopOnlyCompletes := by
  refine ⟨fun w => decode_of_match (o := 0), fun s => rfl, fun s busy => busWrite_of_busy busy (r := .cmd) rfl _,
    fun s idle => ?issued⟩
  case issued =>
    have ran : issueAndComplete .nop s = .next { s with done := true, err := false, errcode := 0 } := by
      rw [issueAndComplete_of_idle idle rfl]
      have pending : s.pending = none := by simpa [isBusy] using idle
      exact congrArg (fun w => Host.Outcome.next { s with pending := w, done := true, err := false, errcode := 0 })
        pending.symm
    refine ⟨ran, fun t ht => ?_⟩
    rw [ran] at ht
    cases ht
    exact statusWord_of_success idle

/-! ## The errors of HOTP and TOTP, in order (R216, R217) -/

section CompositeErrors

variable {alg : AlgField} {h : HashAlg} {d : Nat} {s : State} {c : ErrorCode}

theorem exec_hotp_of_error (failed : hotpResult alg d s = .error c) : exec (.hotp alg d) s = .next (finishErr c s) :=
  exec_of_error failed

theorem hotpResult_of_illegal_digits (named : algOf alg = some h) (illegal : ¬ DigitsLegal d) :
    hotpResult alg d s = .error .invalidDigitCount := by
  have bad : digitsOK d = false := by rwa [← Bool.not_eq_true, digitsOK_iff]
  simp [hotpResult, named, bad]

theorem hotpResult_of_keyCheck (named : algOf alg = some h) (legal : DigitsLegal d) (failed : keyCheck s = some c) :
    hotpResult alg d s = .error c := by
  simp [hotpResult, named, (digitsOK_iff d).2 legal, failed]

/-- TOTP makes HOTP's checks first: where one of them fails, TOTP fails alike (R217). -/
theorem totpResult_of_hotpResult_error (failed : hotpResult alg d s = .error c) : totpResult alg d s = .error c := by
  cases named : algOf alg with
  | none => simpa [hotpResult, totpResult, named] using failed
  | some h =>
    obtain ⟨digits, _⟩ | ⟨digits, _⟩ := digitsOK_cases d
    · cases check : keyCheck s with
      | none =>
        rw [hotpResult_of_ok named digits check] at failed
        cases failed
      | some c' => simpa [hotpResult, totpResult, named, digits, check] using failed
    · simpa [hotpResult, totpResult, named, digits] using failed

theorem exec_totp_of_hotpResult_error (failed : hotpResult alg d s = .error c) :
    exec (.totp alg d) s = .next (finishErr c s) :=
  exec_of_error (totpResult_of_hotpResult_error failed)

/-- Where all of HOTP's checks pass, DeriveT's error is TOTP's (R217). -/
theorem exec_totp_of_deriveT_error (key : KeyedOK alg h s) (legal : DigitsLegal d)
    (failed : deriveT s.time s.t0 s.stepSecs = .error c) : exec (.totp alg d) s = .next (finishErr c s) := by
  obtain ⟨named, secret⟩ := key
  refine exec_of_error ?_
  simp [commandResult, totpResult, named, (digitsOK_iff d).2 legal, (keyCheck_eq_none_iff s).2 secret, failed]

end CompositeErrors

/-! ## CLEAR (R215) -/

/-- After CLEAR the secret has length 0, so every keyed command fails its KeyCheck. -/
theorem keyCheck_clearWrites (s : State) : keyCheck (finishOk (clearWrites s)) = some .keyLength := rfl

/-- STATUS after CLEAR shows DONE alone, where no error and no overrun was shown. -/
theorem statusWord_clearWrites {s : State} (err : s.err = false) (errcode : s.errcode = 0) (ovr : s.ovr = false) :
    statusWord (finishOk (clearWrites s)) = 0x00000002 := by
  simp [statusWord, isBusy, dalgBits, clearWrites, err, errcode, ovr]

/-- Settles O13: what CLEAR zeroises is what the keyed commands and the stages check first. -/
theorem clearZeroisesSecretAndResults : Obligations.ClearZeroisesSecretAndResults := by
  refine ⟨fun w => decode_of_match (o := 1), fun s => ⟨finishOk (clearWrites s), rfl, rfl,
    byteAt_replicate_zero _, byteAt_replicate_zero _, byteAt_replicate_zero _, fun a h d named legal => ?digited,
    exec_of_error (i := .trunc) (truncResult_of_not_ready rfl),
    exec_of_error (i := .format) (formatResult_of_not_ready rfl), statusWord_clearWrites⟩⟩
  case digited =>
    have check := keyCheck_clearWrites s
    have hotp := hotpResult_of_keyCheck named legal check
    exact ⟨exec_hmac_of_keyCheck named check, exec_hotp_of_error hotp,
      exec_totp_of_hotpResult_error hotp,
      exec_of_error (i := .reduce d) (reduceResult_of_not_ready ((digitsOK_iff d).2 legal) rfl)⟩

/-! ## HOTP and TOTP (R216, R217) -/

/-- The four stages that HOTP writes are those of the one-time password over CTR. -/
theorem isOtpOf_hotpWrites (h : HashAlg) (d : Nat) (s : State) : IsOtpOf h d s.ctr s (hotpWrites h d s) :=
  ⟨keyedDigest_toList h s, isTruncation_truncate _ _, reduceBy_toNat _ d, isFormat_formatCode _ d⟩

/-- The window of the worked examples: both are over counter 1, under the test key. -/
theorem truncate_of_counter_one :
    truncate (bufferOf 64 (keyedDigest .sha1 (workedState 1 0))) (dlen .sha1) = (11, 0x41397EEA) := by
  decide +kernel

/-- Settles O19: the writes of HOTP are the four stages, whatever the valid bits; its checks fail in order. -/
theorem hotpComputesThePassword : Obligations.HotpComputesThePassword := by
  refine ⟨fun w => decode_of_match (o := 7), fun s alg h d key legal => ?success, fun s d => rfl,
    fun s alg h d named => ⟨fun illegal => ?digits, fun legal bad => ?length, fun legal length bad => ?encoding⟩,
    ?workedExample⟩
  case success => exact ⟨_, exec_hotp_of_ok key legal, isOtpOf_hotpWrites h d s, rfl⟩
  case digits => exact exec_hotp_of_error (hotpResult_of_illegal_digits named illegal)
  case length =>
    exact exec_hotp_of_error (hotpResult_of_keyCheck named legal (keyCheck_of_bad_length s bad))
  case encoding =>
    exact exec_hotp_of_error (hotpResult_of_keyCheck named legal (keyCheck_of_bad_encoding s length bad))
  case workedExample =>
    have key : KeyedOK .sha1 .sha1 (workedState 1 0) := by decide
    refine ⟨_, exec_hotp_of_ok key (d := 6) (by decide), ?_⟩
    simp only [hotpWrites, truncate_of_counter_one]
    decide

/-- Settles O20: TOTP makes HOTP's checks, then DeriveT's, and its writes are HOTP's over the derived counter. -/
theorem totpComputesThePassword : Obligations.TotpComputesThePassword := by
  refine ⟨fun w => decode_of_match (o := 8), fun s alg h d key legal time => ?success, fun s d => rfl,
    fun s alg h d named => ⟨fun illegal => ?digits, fun legal bad => ?length, fun legal length bad => ?encoding,
      fun legal length encoding zero => ?stepZero, fun legal length encoding nonzero early => ?early⟩,
    ?workedExample⟩
  case success =>
    exact ⟨_, exec_totp_of_ok key legal time, isOtpOf_hotpWrites h d { s with ctr := timeSteps s }, rfl⟩
  case digits => exact exec_totp_of_hotpResult_error (hotpResult_of_illegal_digits named illegal)
  case length =>
    exact exec_totp_of_hotpResult_error (hotpResult_of_keyCheck named legal (keyCheck_of_bad_length s bad))
  case encoding =>
    exact exec_totp_of_hotpResult_error (hotpResult_of_keyCheck named legal (keyCheck_of_bad_encoding s length bad))
  case stepZero =>
    exact exec_totp_of_deriveT_error ⟨named, length, encoding⟩ legal (by rw [zero]; exact deriveT_of_zero _ _)
  case early => exact exec_totp_of_deriveT_error ⟨named, length, encoding⟩ legal (deriveT_of_before nonzero early)
  case workedExample =>
    have key : KeyedOK .sha1 .sha1 (workedState 0 59) := by decide
    refine ⟨_, exec_totp_of_ok key (d := 8) (by decide) (by decide), ?_⟩
    have window : truncate (bufferOf 64 (keyedDigest .sha1
        { workedState 0 59 with ctr := timeSteps (workedState 0 59) })) (dlen .sha1) = (11, 0x41397EEA) :=
      truncate_of_counter_one
    simp only [hotpWrites, window]
    decide

/-! ## The stages issued one by one (R218) -/

section Stages

variable {alg : AlgField} {h : HashAlg} {d : Nat} {s : State}

theorem digitsFit_of_legal (legal : DigitsLegal d) : digitsFit d = true :=
  decide_eq_true (by omega)

theorem issueAndComplete_of_exec {i : Instr} {t : State} (idle : isBusy s = false) (wf : i.wellFormed = true)
    (ran : exec i (issue (encode i) s) = .next t) : issueAndComplete i s = .next t :=
  (issueAndComplete_of_idle idle wf).trans ran

theorem andThen_next (t : State) (f : State → Host.Outcome State Fault Refusal) : andThen (.next t) f = f t := rfl

theorem issueAndComplete_hotp (idle : isBusy s = false) (key : KeyedOK alg h s) (legal : DigitsLegal d) :
    issueAndComplete (.hotp alg d) s = .next (finishOk (hotpWrites h d (issue (encode (.hotp alg d)) s))) :=
  issueAndComplete_of_exec (i := .hotp alg d) idle (digitsFit_of_legal legal) (exec_hotp_of_ok key legal)

theorem issueAndComplete_totp (idle : isBusy s = false) (key : KeyedOK alg h s) (legal : DigitsLegal d)
    (time : TimeOK s) :
    issueAndComplete (.totp alg d) s =
      .next (finishOk (hotpWrites h d { issue (encode (.totp alg d)) s with ctr := timeSteps s })) :=
  issueAndComplete_of_exec (i := .totp alg d) idle (digitsFit_of_legal legal) (exec_totp_of_ok key legal time)

/-- Each stage finds valid, and reads, what the one before it wrote, and no issue between two stages touches any of it;
so the four in a row leave what HOTP leaves. -/
theorem stages_eq_hotp (idle : isBusy s = false) (key : KeyedOK alg h s) (legal : DigitsLegal d) :
    andThen (issueAndComplete (.hmac alg) s) (fun s1 =>
      andThen (issueAndComplete .trunc s1) fun s2 =>
        andThen (issueAndComplete (.reduce d) s2) (issueAndComplete .format)) = issueAndComplete (.hotp alg d) s := by
  rw [issueAndComplete_of_exec idle rfl (exec_hmac_of_keyedOK key), andThen_next,
    issueAndComplete_of_exec rfl rfl (exec_trunc_of_ready rfl), andThen_next,
    issueAndComplete_of_exec (i := .reduce d) rfl (digitsFit_of_legal legal) (exec_reduce_of_ready legal rfl),
    andThen_next, issueAndComplete_of_exec rfl rfl (exec_format_of_ready rfl), issueAndComplete_hotp idle key legal]
  have digits : (BitVec.ofNat 4 d).toNat = d := odig_toNat legal
  simp only [hotpWrites, formatWrites, issue_odig, finishOk_odig, reduceWrites, markOtp_odig, digits]
  rfl

/-- The machine that DERIVE leaves, issued on an idle block and completed with success (R112). -/
def derived (s : State) : State := finishOk { issue (encode .derive) s with ctr := timeSteps s }

theorem issueAndComplete_derive (idle : isBusy s = false) (time : TimeOK s) :
    issueAndComplete .derive s = .next (derived s) :=
  issueAndComplete_of_exec idle rfl (exec_derive_of_timeOK time)

/-- HOTP after DERIVE is TOTP: DERIVE leaves the secret alone and the time steps in CTR. -/
theorem hotp_derived_eq_totp (idle : isBusy s = false) (key : KeyedOK alg h s) (legal : DigitsLegal d)
    (time : TimeOK s) : issueAndComplete (.hotp alg d) (derived s) = issueAndComplete (.totp alg d) s := by
  rw [issueAndComplete_hotp (s := derived s) rfl key legal, issueAndComplete_totp idle key legal time]
  rfl

end Stages

/-- Settles O23: the four stages in a row are HOTP, and after DERIVE they are TOTP. -/
theorem compositesEqualTheirStages : Obligations.CompositesEqualTheirStages := by
  refine fun s alg h d idle key legal => ⟨⟨_, issueAndComplete_hotp idle key legal, ?hotp⟩,
    fun time => ⟨_, issueAndComplete_totp idle key legal time, ?totp⟩⟩
  case hotp => rw [stages_eq_hotp idle key legal, issueAndComplete_hotp idle key legal]
  case totp =>
    rw [issueAndComplete_derive idle time, andThen_next, stages_eq_hotp (s := derived s) rfl key legal,
      hotp_derived_eq_totp idle key legal time, issueAndComplete_totp idle key legal time]

/-! ## No step stops (R212) -/

/-- A statement that a meaningful program holds has a meaning in it. -/
theorem stmtOK_of_scriptOK {script : List Stmt} {pos : Nat} {st : Stmt} (ok : scriptOK script = true)
    (h : script[pos]? = some st) : stmtOK script pos st = true := by
  obtain ⟨inside, _⟩ := List.getElem?_eq_some_iff.1 h
  have here := List.all_eq_true.1 ok pos (List.mem_range.2 inside)
  rwa [h] at here

theorem branch_next {l : Target} {s : State} (there : (targetPos s.env.script s.env.pos l).isSome = true)
    (taken : Bool) : ∃ t, branch taken l s = .next t := by
  obtain ⟨n, place⟩ := Option.isSome_iff_exists.1 there
  cases taken with
  | false => exact ⟨_, rfl⟩
  | true => exact ⟨_, by rw [branch, if_pos rfl, jump, place]⟩

/-- A statement with a meaning has a next state: its label is there, and its command is one an assembler writes. -/
theorem runStmt_next {st : Stmt} {s : State} (ok : stmtOK s.env.script s.env.pos st = true) :
    ∃ t, runStmt st s = .next t := by
  obtain ⟨target, command⟩ := Bool.and_eq_true_iff.1 ok
  cases st with
  | cmd c =>
    have assembles : c.assembles = true := command
    exact ⟨_, if_pos assembles⟩
  | bset r b l | bclr r b l | bne r v l => exact branch_next target _
  | wr off v | rd r off | word v | wrr off r | li r v | addi r v | label l | halt => exact ⟨_, rfl⟩

theorem hostStep_next {s : State} (ok : HostProgramOK s) : ∃ t, hostStep s = .next t := by
  cases h : s.env.script[s.env.pos]? with
  | none => exact ⟨s, by rw [hostStep, h]⟩
  | some st =>
    rw [hostStep_of_stmt h]
    exact runStmt_next (stmtOK_of_scriptOK ok h)

theorem engineStep_next (s : State) : ∃ t, engineStep s = .next t := by
  cases h : s.pending with
  | none => exact ⟨s, by rw [engineStep, h]⟩
  | some w =>
    rw [engineStep_of_pending h]
    exact completeWord_next w s

/-- Settles O50: of all turns only the HOST's can stop, at a statement without a meaning, and no turn changes the
program. -/
theorem theMachineNeverStops : Obligations.TheMachineNeverStops := by
  intro s ok
  have next : ∃ t, step s = .next t := by
    rw [step_eq_takeTurn]
    cases (nextTurn s).1 with
    | host => exact hostStep_next (s := turnState s) ok
    | engine => exact engineStep_next _
    | bus _ | reset | release => exact ⟨_, rfl⟩
  obtain ⟨t, stepped⟩ := next
  obtain ⟨_, script, _⟩ := step_cases stepped
  exact ⟨t, stepped, by rwa [HostProgramOK, script]⟩

end Sys2Proof.Machine

/-! PROOFS. The statements of spec/60_exceptions.md: which error code is reported (R240, R242), the two completions
(R243, R244), the overrun flag (R246), the interrupt output (R247, R248) and the secret (R254). -/

namespace Sys2Proof.Machine

open Sys2Proof.Safety Sys2Proof.Claims

/-! ## The codes of the table (R240) -/

theorem one_le_errBits (e : ErrorCode) : 1 ≤ (errBits e).toNat := by
  cases e <;> decide

/-- Code 1 is that of an illegal word alone. -/
theorem two_le_errBits {e : ErrorCode} (h : e ≠ .illegalCmd) : 2 ≤ (errBits e).toNat := by
  cases e with
  | illegalCmd => exact absurd rfl h
  | _ => decide

theorem digitsOK_eq_false_iff (d : Nat) : digitsOK d = false ↔ ¬ DigitsLegal d := by
  rw [← Bool.not_eq_true, digitsOK_iff]

theorem keyLengthOK_eq_false_iff (s : State) : keyLengthOK s = false ↔ ¬ KeyLengthOK s := by
  rw [← Bool.not_eq_true, keyLengthOK_iff]

/-! ## The checks of a command, in the order it makes them (R240, R242) -/

/-- One check: the error it reports, and whether it fails. -/
abbrev Check := ErrorCode × Bool

/-- ALG names an algorithm (R93). -/
def algCheck (a : AlgField) : Check := (.cryptoUnavailable, (algOf a).isNone)

/-- DIGITS is 1 to 10 (R184). -/
def digitCheck (d : Nat) : Check := (.invalidDigitCount, !digitsOK d)

/-- KeyCheck (R155). -/
def keyChecks (s : State) : List Check :=
  [(.keyLength, !keyLengthOK s), (.invalidSecretEncoding, decide (¬ KeyEncodingOK s))]

/-- The checks of DeriveT (R110). -/
def timeChecks (s : State) : List Check :=
  [(.stepZero, decide (s.stepSecs = 0)), (.timeBeforeEpoch, decide (s.time.toNat < s.t0.toNat))]

/-- The stage a command reads is valid (R43). -/
def readyCheck (valid : Bool) : Check := (.notReady, !valid)

/-- All the checks of a command. -/
def checks (s : State) : Instr → List Check
  | .nop => []
  | .clear => []
  | .derive => timeChecks s
  | .hmac a => algCheck a :: keyChecks s
  | .trunc => [readyCheck s.dv]
  | .reduce d => [digitCheck d, readyCheck s.pv]
  | .format => [readyCheck s.ov]
  | .hotp a d => algCheck a :: digitCheck d :: keyChecks s
  | .totp a d => algCheck a :: digitCheck d :: (keyChecks s ++ timeChecks s)

/-- The codes of the checks rise from each check to the later ones. -/
def InOrder (cs : List Check) : Prop := cs.Pairwise fun x y => (errBits x.1).toNat < (errBits y.1).toNat

theorem checks_inOrder (s : State) (i : Instr) : InOrder (checks s i) := by
  cases i <;> simp [InOrder, checks, algCheck, digitCheck, keyChecks, timeChecks, readyCheck, errBits]

/-- The error of the first check that fails. -/
def firstFailing (cs : List Check) : Option ErrorCode := (cs.find? (·.2)).map (·.1)

@[simp] theorem firstFailing_nil : firstFailing [] = none := rfl

@[simp] theorem firstFailing_cons (c : ErrorCode) (fails : Bool) (cs : List Check) :
    firstFailing ((c, fails) :: cs) = if fails then some c else firstFailing cs := by
  cases fails <;> rfl

@[simp] theorem firstFailing_append (cs ds : List Check) :
    firstFailing (cs ++ ds) = (firstFailing cs).or (firstFailing ds) := by
  rw [firstFailing, List.find?_append, Option.map_or]
  rfl

/-- The error a result reports. -/
def reported {α : Type} : Except ErrorCode α → Option ErrorCode
  | .error c => some c
  | .ok _ => none

@[simp] theorem reported_error {α : Type} (c : ErrorCode) : reported (.error c : Except ErrorCode α) = some c := rfl

@[simp] theorem reported_ok {α : Type} (x : α) : reported (.ok x) = none := rfl

/-- KeyCheck is its two checks in order (R155). -/
@[simp] theorem firstFailing_keyChecks (s : State) : firstFailing (keyChecks s) = keyCheck s := by
  simp only [keyChecks, firstFailing_cons, firstFailing_nil, Bool.not_eq_true', keyLengthOK_eq_false_iff,
    decide_eq_true_eq]
  obtain ⟨e, length, encoding⟩ | ⟨e, length⟩ | ⟨e, length, encoding⟩ := keyCheck_cases s
  · rw [e, if_neg (not_not_intro length), if_neg (not_not_intro encoding)]
  · rw [e, if_pos length]
  · rw [e, if_neg (not_not_intro length), if_pos encoding]

/-- DeriveT makes its two checks in order (R110). -/
@[simp] theorem firstFailing_timeChecks (s : State) :
    firstFailing (timeChecks s) = reported (deriveT s.time s.t0 s.stepSecs) := by
  simp only [timeChecks, firstFailing_cons, firstFailing_nil, decide_eq_true_eq]
  obtain ⟨e, zero⟩ | ⟨e, nonzero, early⟩ | ⟨e, nonzero, order⟩ := deriveT_cases s
  · rw [e, if_pos zero, reported_error]
  · rw [e, if_neg nonzero, if_pos early, reported_error]
  · rw [e, if_neg nonzero, if_neg (Nat.not_lt.2 order), reported_ok]

/-- A command reports the first of its checks that fails. -/
theorem reported_commandResult (s : State) (i : Instr) :
    reported (commandResult i s) = firstFailing (checks s i) := by
  cases i with
  | nop | clear => rfl
  | derive => cases time : deriveT s.time s.t0 s.stepSecs <;> simp [commandResult, deriveResult, checks, time]
  | hmac a =>
    cases named : algOf a with
    | none => simp [commandResult, hmacResult, checks, algCheck, named]
    | some h => cases key : keyCheck s <;> simp [commandResult, hmacResult, checks, algCheck, named, key]
  | trunc => cases ready : s.dv <;> simp [commandResult, truncResult, checks, readyCheck, ready]
  | reduce d =>
    cases legal : digitsOK d with
    | false => simp [commandResult, reduceResult, checks, digitCheck, legal]
    | true => cases ready : s.pv <;> simp [commandResult, reduceResult, checks, digitCheck, readyCheck, legal, ready]
  | format => cases ready : s.ov <;> simp [commandResult, formatResult, checks, readyCheck, ready]
  | hotp a d =>
    cases named : algOf a with
    | none => simp [commandResult, hotpResult, checks, algCheck, named]
    | some h =>
      cases legal : digitsOK d with
      | false => simp [commandResult, hotpResult, checks, algCheck, digitCheck, named, legal]
      | true =>
        cases key : keyCheck s <;>
          simp [commandResult, hotpResult, checks, algCheck, digitCheck, named, legal, key]
  | totp a d =>
    cases named : algOf a with
    | none => simp [commandResult, totpResult, checks, algCheck, named]
    | some h =>
      cases legal : digitsOK d with
      | false => simp [commandResult, totpResult, checks, algCheck, digitCheck, named, legal]
      | true =>
        cases key : keyCheck s with
        | some c => simp [commandResult, totpResult, checks, algCheck, digitCheck, named, legal, key]
        | none =>
          cases time : deriveT s.time s.t0 s.stepSecs with
          | error c => simp [commandResult, totpResult, checks, algCheck, digitCheck, named, legal, key, time]
          | ok t =>
            simp [commandResult, totpResult_of_ok named legal key time, checks, algCheck, digitCheck, named, legal, key,
              time]

/-! ## The checks and the table of codes (R240) -/

theorem algOf_algOfBits_eq_none_iff (b : BitVec 2) : algOf (algOfBits b) = none ↔ b.toNat = 3 := by
  revert b; decide

/-- Every failing code is one of the table's. -/
theorem exists_errBits_of_checkFails {w : Word} {s : State} {c : Nat} (h : CheckFails w s c) :
    ∃ e, c = (errBits e).toNat := by
  unfold CheckFails at h
  split at h
  case h_1 => exact ⟨.illegalCmd, rfl⟩
  case h_2 => exact ⟨.cryptoUnavailable, rfl⟩
  case h_3 => exact ⟨.invalidDigitCount, rfl⟩
  case h_4 => exact ⟨.keyLength, rfl⟩
  case h_5 => exact ⟨.invalidSecretEncoding, rfl⟩
  case h_6 => exact ⟨.stepZero, rfl⟩
  case h_7 => exact ⟨.timeBeforeEpoch, rfl⟩
  case h_8 => exact ⟨.notReady, rfl⟩
  case h_9 => exact h.elim

theorem checkFails_of_illegal {w : Word} (h : Illegal w) (s : State) : CheckFails w s (errBits .illegalCmd).toNat := h

/-- For a word that decodes, the table's checks are those of its command, at their codes: the nine rows of the decoder
against the eight codes. -/
theorem checkFails_iff_of_decode {w : Word} {i : Instr} (h : decode w = .ok i) (s : State) (e : ErrorCode) :
    CheckFails w s (errBits e).toNat ↔ (e, true) ∈ checks s i := by
  have legal : ¬ Illegal w := by
    refine mt (decode_error_iff w).2 ?_
    simp [h]
  obtain ⟨_, _, row⟩ := (decode_ok_iff w i).1 h
  unfold decodeOp opField at row
  split at row
  case h_10 => cases row
  all_goals
    next op =>
    cases row
    cases e <;> simp [CheckFails, op, legal, checks, keyChecks, timeChecks, readyCheck, algCheck, digitCheck,
      algBits, digitsBits, errBits, algOf_algOfBits_eq_none_iff, digitsOK_eq_false_iff, keyLengthOK_eq_false_iff]

/-! ## The smallest failing code is reported (R242) -/

/-- The first check that fails has the smallest code of all that fail. -/
theorem firstFailing_least {cs : List Check} (order : InOrder cs) {e : ErrorCode} (first : firstFailing cs = some e) :
    (e, true) ∈ cs ∧ ∀ e', (e', true) ∈ cs → (errBits e).toNat ≤ (errBits e').toNat := by
  induction cs with
  | nil => cases first
  | cons x cs ih =>
    obtain ⟨c, fails⟩ := x
    obtain ⟨above, order'⟩ := List.pairwise_cons.1 order
    cases fails with
    | true =>
      cases first
      refine ⟨List.mem_cons_self, fun e' mem => ?_⟩
      obtain same | mem' := List.mem_cons.1 mem
      · cases same
        exact le_rfl
      · exact (above _ mem').le
    | false =>
      obtain ⟨mem, least⟩ := ih order' first
      exact ⟨List.mem_cons_of_mem _ mem, fun e' mem' => least e' ((List.mem_cons.1 mem').resolve_left nofun)⟩

theorem not_mem_of_firstFailing_eq_none {cs : List Check} (none : firstFailing cs = none) (e : ErrorCode) :
    (e, true) ∉ cs := by
  rw [firstFailing, Option.map_eq_none_iff, List.find?_eq_none] at none
  exact fun mem => none _ mem rfl

/-- COMPLETE of a word ends in the smallest failing code, or, when none fails, in success (R242 to R244). -/
theorem completeWord_reports (w : Word) (s : State) :
    (∃ e, completeWord w s = .next (finishErr e s) ∧ IsLeast {c | CheckFails w s c} (errBits e).toNat) ∨
    ∃ u, completeWord w s = .next (finishOk u) ∧ u.err = s.err ∧ u.errcode = s.errcode ∧ ∀ c, ¬ CheckFails w s c := by
  cases decoded : decode w with
  | error _ =>
    have illegal : Illegal w := (decode_error_iff w).1 ⟨_, decoded⟩
    refine .inl ⟨.illegalCmd, completeWord_of_illegal illegal s, checkFails_of_illegal illegal s, fun c fails => ?_⟩
    obtain ⟨e, rfl⟩ := exists_errBits_of_checkFails fails
    exact one_le_errBits e
  | ok i =>
    rw [completeWord_of_decode decoded]
    have first := reported_commandResult s i
    cases result : commandResult i s with
    | error e =>
      obtain ⟨fails, least⟩ := firstFailing_least (checks_inOrder s i) (by rw [← first, result, reported_error])
      refine .inl ⟨e, exec_of_error result, (checkFails_iff_of_decode decoded s e).2 fails, fun c fails' => ?_⟩
      obtain ⟨e', rfl⟩ := exists_errBits_of_checkFails fails'
      exact least e' ((checkFails_iff_of_decode decoded s e').1 fails')
    | ok u =>
      obtain ⟨err, errcode⟩ := commandResult_keeps_error_fields result
      refine .inr ⟨u, exec_of_ok result, err, errcode, fun c fails => ?_⟩
      obtain ⟨e, rfl⟩ := exists_errBits_of_checkFails fails
      exact not_mem_of_firstFailing_eq_none (by rw [← first, result, reported_ok]) e
        ((checkFails_iff_of_decode decoded s e).1 fails)

/-- Settles O10: there is at most one smallest failing code, and COMPLETE reports it. -/
theorem smallestFailingCodeIsReported : Obligations.SmallestFailingCodeIsReported := by
  intro s w pending
  rw [engineStep_of_pending pending]
  obtain ⟨e, ran, least⟩ | ⟨u, ran, err, errcode, passes⟩ := completeWord_reports w s
  · refine ⟨fun c fails smallest => ?_, fun passes => absurd least.1 (passes _)⟩
    have isLeast : IsLeast {c | CheckFails w s c} c :=
      ⟨fails, fun c' fails' => not_lt.1 fun lt => smallest c' lt fails'⟩
    rw [ran, isLeast.unique least, BitVec.ofNat_toNat, BitVec.setWidth_eq]
    rfl
  · exact ⟨fun c fails => absurd fails (passes c), fun _ => ⟨_, ran, err, errcode, rfl, rfl⟩⟩

/-- Settles O11: a completion is finishOk, which keeps ERR and ERRCODE, or finishErr with a code of the table; no
command has code 1. -/
theorem commandSucceedsOrChangesNothing : Obligations.CommandSucceedsOrChangesNothing := by
  refine ⟨fun w s pending => ?word, fun i s => ?command⟩
  case word =>
    rw [engineStep_of_pending pending]
    obtain ⟨e, ran, _⟩ | ⟨u, ran, err, errcode, _⟩ := completeWord_reports w s
    · exact ⟨_, ran, rfl, rfl, .inr ⟨rfl, one_le_errBits e, (errBits_range e).2⟩⟩
    · exact ⟨_, ran, rfl, rfl, .inl ⟨err, errcode⟩⟩
  case command =>
    cases result : commandResult i s with
    | error e =>
      have legal : e ≠ .illegalCmd := by
        rintro rfl
        exact commandResult_ne_illegal i s result
      exact ⟨_, exec_of_error result, rfl, rfl, .inr ⟨rfl, two_le_errBits legal, (errBits_range e).2⟩⟩
    | ok u => exact ⟨_, exec_of_ok result, rfl, rfl, .inl (commandResult_keeps_error_fields (u := u) result)⟩

/-! ## The overrun flag (R246) -/

/-- COMPLETE touches neither OVR nor DONE_IE, whatever the word. -/
theorem completeWord_keeps_ovr_and_doneIe {w : Word} {s t : State} (h : completeWord w s = .next t) :
    t.ovr = s.ovr ∧ t.doneIe = s.doneIe := by
  obtain ⟨_, rfl⟩ | ⟨i, _, ran⟩ := completeWord_cases h
  · exact ⟨rfl, rfl⟩
  · obtain ⟨_, _, _, _, doneIe, ovr, _⟩ := commandFrame i s t ran
    exact ⟨ovr, doneIe⟩

theorem writeReg_ovr_of_ne {r : Reg} (hr : r ≠ .status) (v : Word) (s : State) : (writeReg r v s).ovr = s.ovr := by
  cases r with
  | status => exact absurd rfl hr
  | key j => rw [writeReg]
  | _ => rfl

/-- What a write does to OVR, once: nothing, or it clears it through STATUS bit 3, or it is dropped. -/
theorem busWrite_ovr_cases (a : Offset) (v : Word) (s : State) :
    (busWrite a v s).2.ovr = s.ovr ∨
    (a = 0x00C ∧ (busWrite a v s).2.ovr = (s.ovr && !v.getLsbD 3)) ∨
    (isBusy s = true ∧ ¬ BadOffset a ∧ a ≠ 0x00C ∧ a ≠ 0x014 ∧ (busWrite a v s).2.ovr = true) := by
  obtain ⟨_, e⟩ | ⟨r, hr, busy, dropped, e⟩ | ⟨r, hr, _, e⟩ := busWrite_cases a v s <;> rw [e]
  · exact .inl rfl
  · refine .inr (.inr ⟨busy, ?mapped, ?notStatus, ?notIrqEn, rfl⟩)
    case mapped => rw [BadOffset, ← regAt_eq_none_iff, hr]; exact Option.some_ne_none r
    case notStatus => rintro rfl; cases hr; cases dropped
    case notIrqEn => rintro rfl; cases hr; cases dropped
  · by_cases hs : r = .status
    · subst hs
      exact .inr (.inl ⟨(regOffset_of_regAt a _ hr).symm, rfl⟩)
    · exact .inl (writeReg_ovr_of_ne hs v s)

/-- Every dropped write leaves the block as it was, but for OVR. -/
theorem step_of_dropped_write {s t : State} (stepped : step s = .next t) (busy : isBusy s = true) {a : Offset}
    {v : Word} (write : turnWrite s = some (a, v)) (mapped : ¬ BadOffset a) (hs : a ≠ 0x00C) (hi : a ≠ 0x014) :
    SameBlock { s with ovr := true } t := by
  obtain ⟨t', stepped', block⟩ := step_of_turnWrite write
  rw [stepped] at stepped'
  cases stepped'
  rwa [(writesWhileBusyAreDropped a v s busy mapped).1 hs hi] at block

theorem ovr_of_sameBlock {s t : State} (h : SameBlock s t) : t.ovr = s.ovr := by
  rw [h]

/-- What a step does to OVR, once: it keeps it, or it is a reset, or a write of STATUS with bit 3 = 1, or a dropped
write. -/
theorem step_ovr_cases {s t : State} (stepped : step s = .next t) :
    t.ovr = s.ovr ∨
    (t.ovr = false ∧ ((nextTurn s).1 = .reset ∨ ∃ v, turnWrite s = some (0x00C, v) ∧ v.getLsbD 3 = true)) ∨
    (t.ovr = true ∧ isBusy s = true ∧ ∃ a v, turnWrite s = some (a, v) ∧ ¬ BadOffset a ∧ a ≠ 0x00C ∧ a ≠ 0x014) := by
  obtain ⟨effect, _⟩ := step_cases stepped
  cases effect with
  | still _ block => exact .inl (ovr_of_sameBlock block)
  | completed w _ _ result => exact .inl (completeWord_keeps_ovr_and_doneIe result).1
  | reset turn block _ => exact .inr (.inl ⟨ovr_of_sameBlock block, .inl turn⟩)
  | wrote a v write _ block =>
    rw [ovr_of_sameBlock block]
    obtain kept | ⟨rfl, cleared⟩ | ⟨busy, mapped, hs, hi, set⟩ := busWrite_ovr_cases a v s
    · exact .inl kept
    · cases bit : v.getLsbD 3 with
      | false => exact .inl (by rw [cleared, bit, Bool.not_false, Bool.and_true])
      | true => exact .inr (.inl ⟨by rw [cleared, bit, Bool.not_true, Bool.and_false], .inr ⟨v, write, bit⟩⟩)
    · exact .inr (.inr ⟨set, busy, a, v, write, mapped, hs, hi⟩)

/-- Settles O53: the three things a step can do to OVR, and the dropped write of R66. -/
theorem overrunIsSticky : Obligations.OverrunIsSticky := by
  refine fun s t stepped =>
    ⟨fun was now => ?falls, fun was now => ?rises, fun busy a v => step_of_dropped_write stepped busy⟩
  case falls =>
    obtain kept | ⟨_, cause⟩ | ⟨set, _⟩ := step_ovr_cases stepped
    · simp [kept, was] at now
    · exact cause
    · simp [set] at now
  case rises =>
    obtain kept | ⟨cleared, _⟩ | ⟨_, busy, dropped⟩ := step_ovr_cases stepped
    · simp [kept, was] at now
    · simp [cleared] at now
    · exact ⟨busy, dropped⟩

/-! ## The interrupt output (R247, R248) -/

/-- COMPLETE leaves irq at DONE_IE, whatever the word. -/
theorem irq_of_completeWord {w : Word} {s t : State} (h : completeWord w s = .next t) : irq t = s.doneIe := by
  rw [irq, (completeWord_retires h).2, (completeWord_keeps_ovr_and_doneIe h).2, Bool.and_true]

theorem irq_writeReg_of_ne {r : Reg} (hc : r ≠ .cmd) (hs : r ≠ .status) (hi : r ≠ .irqEn) (v : Word) (s : State) :
    irq (writeReg r v s) = irq s := by
  cases r with
  | cmd => exact absurd rfl hc
  | status => exact absurd rfl hs
  | irqEn => exact absurd rfl hi
  | key j => simp only [writeReg, irq]
  | _ => rfl

theorem irq_issue (w : Word) (s : State) : irq (issue w s) = false := Bool.and_false _

theorem irq_writeStatus (v : Word) (s : State) : irq (writeStatus v s) = (irq s && !v.getLsbD 1) :=
  (Bool.and_assoc _ _ _).symm

/-- What a write does to irq, once: nothing, or it issues a command, or clears DONE through STATUS bit 1, or sets
DONE_IE to bit 0. -/
theorem busWrite_irq_cases (a : Offset) (v : Word) (s : State) :
    irq (busWrite a v s).2 = irq s ∨
    (a = 0x008 ∧ isBusy s = false ∧ irq (busWrite a v s).2 = false) ∨
    (a = 0x00C ∧ irq (busWrite a v s).2 = (irq s && !v.getLsbD 1)) ∨
    (a = 0x014 ∧ irq (busWrite a v s).2 = (v.getLsbD 0 && s.done)) := by
  obtain ⟨_, e⟩ | ⟨r, _, _, _, e⟩ | ⟨r, hr, free, e⟩ := busWrite_cases a v s <;> rw [e]
  · exact .inl rfl
  · exact .inl rfl
  · have ha : a = regOffset r := (regOffset_of_regAt a r hr).symm
    by_cases hc : r = .cmd
    · subst hc
      exact .inr (.inl ⟨ha, free.resolve_right nofun, irq_issue v s⟩)
    · by_cases hs : r = .status
      · subst hs
        exact .inr (.inr (.inl ⟨ha, irq_writeStatus v s⟩))
      · by_cases hi : r = .irqEn
        · subst hi
          exact .inr (.inr (.inr ⟨ha, rfl⟩))
        · exact .inl (irq_writeReg_of_ne hc hs hi v s)

theorem irq_of_sameBlock {s t : State} (h : SameBlock s t) : irq t = irq s := by
  rw [h]
  rfl

/-- What a step does to irq, once. -/
inductive IrqEffect (s t : State) : Prop where
  /-- Nothing. -/
  | kept (same : irq t = irq s)
  /-- COMPLETE sets DONE. -/
  | completed (turn : (nextTurn s).1 = .engine) (busy : isBusy s = true) (level : irq t = s.doneIe)
  /-- Reset clears DONE and DONE_IE. -/
  | reset (turn : (nextTurn s).1 = .reset) (low : irq t = false)
  /-- The issue of a command clears DONE. -/
  | issued (w : Word) (write : turnWrite s = some (0x008, w)) (idle : isBusy s = false) (low : irq t = false)
  /-- A write of STATUS clears DONE by bit 1. -/
  | acknowledged (v : Word) (write : turnWrite s = some (0x00C, v)) (level : irq t = (irq s && !v.getLsbD 1))
  /-- A write of IRQ_EN sets DONE_IE to bit 0. -/
  | enabled (v : Word) (write : turnWrite s = some (0x014, v)) (level : irq t = (v.getLsbD 0 && s.done))

theorem irqEffect_of_step {s t : State} (stepped : step s = .next t) : IrqEffect s t := by
  obtain ⟨effect, _⟩ := step_cases stepped
  cases effect with
  | still _ block => exact .kept (irq_of_sameBlock block)
  | completed w turn word result =>
    exact .completed turn (by simp [isBusy, word]) (irq_of_completeWord (s := turnState s) result)
  | reset turn block _ => exact .reset turn (irq_of_sameBlock block)
  | wrote a v write _ block =>
    have level := irq_of_sameBlock block
    obtain e | ⟨rfl, idle, e⟩ | ⟨rfl, e⟩ | ⟨rfl, e⟩ := busWrite_irq_cases a v s <;> rw [e] at level
    · exact .kept level
    · exact .issued v write idle level
    · exact .acknowledged v write level
    · exact .enabled v write level

theorem irq_busWrite_irqEn (v : Word) (s : State) : irq (busWrite 0x014 v s).2 = (v.getLsbD 0 && s.done) := by
  rw [busWrite_irqEn]
  rfl

/-- Settles O54: of all that a step can do to irq (IrqEffect), only COMPLETE and a write of IRQ_EN can raise it. -/
theorem interruptRisesOnlyAtDone : Obligations.InterruptRisesOnlyAtDone := by
  refine ⟨fun _ => rfl, fun s t busy enabled completes => ?complete, fun s v done => ?enable,
    fun s t stepped was now => ?rises⟩
  case complete =>
    obtain ⟨w, pending⟩ := Option.isSome_iff_exists.1 busy
    rw [engineStep_of_pending pending] at completes
    rw [irq_of_completeWord completes, enabled]
  case enable => rw [irq_busWrite_irqEn, done, Bool.and_true]
  case rises =>
    cases irqEffect_of_step stepped with
    | kept same => simp [same, was] at now
    | completed turn busy level => exact .inl ⟨turn, busy, level.symm.trans now⟩
    | reset _ low | issued _ _ _ low => simp [low] at now
    | acknowledged _ _ level => simp [level, was] at now
    | enabled v write level =>
      obtain ⟨bit, done⟩ : v.getLsbD 0 = true ∧ s.done = true := by simpa [level] using now
      exact .inr ⟨v, write, bit, done⟩

/-- Settles O55: of all that a step can do to irq (IrqEffect), COMPLETE with DONE_IE = 1 leaves it high, and each of the
others that can lower it is named. -/
theorem interruptFallsOnlyWhenCleared : Obligations.InterruptFallsOnlyWhenCleared := by
  refine ⟨fun s v bit => ?acknowledge, fun s w idle => ?issue, fun s v bit => ⟨?disable, ?doneKept⟩,
    fun s t stepped was now => ?falls⟩
  case acknowledge => rw [busWrite_status, irq_writeStatus, bit, Bool.not_true, Bool.and_false]
  case issue => rw [(cmdWriteIssues s w).1 idle]; exact irq_issue w s
  case disable => rw [irq_busWrite_irqEn, bit, Bool.false_and]
  case doneKept => rw [busWrite_irqEn]
  case falls =>
    obtain ⟨enabled, done⟩ : s.doneIe = true ∧ s.done = true := by simpa [irq] using was
    cases irqEffect_of_step stepped with
    | kept same => simp [same, was] at now
    | completed _ _ level => simp [level, enabled] at now
    | reset turn _ => exact .inl turn
    | issued w write idle _ => exact .inr (.inr (.inl ⟨w, write, idle⟩))
    | acknowledged v write level => exact .inr (.inl ⟨v, write, by simpa [level, was] using now⟩)
    | enabled v write level => exact .inr (.inr (.inr ⟨v, write, by simpa [level, done] using now⟩))

/-! ## The secret (R254) -/

/-- The second machine is the first but for KEY. -/
def SameButKey (s t : State) : Prop := t = { s with key := t.key }

/-- The two outcomes are alike, and the next states, if there are any, are the same but for KEY. -/
inductive AlikeButKey : Host.Outcome State Fault Refusal → Host.Outcome State Fault Refusal → Prop where
  | next {s t : State} (same : SameButKey s t) : AlikeButKey (.next s) (.next t)
  | fault (f : Fault) : AlikeButKey (.fault f) (.fault f)
  | refused (r : Refusal) : AlikeButKey (.refused r) (.refused r)

theorem engineStep_of_idle {s : State} (idle : s.pending = none) : engineStep s = .next s :=
  (completeRetiresThePendingWord s).1 idle

section OtherKey

variable (s : State) (k : Vector Byte 128)

theorem readReg_with_key (r : Reg) : readReg r { s with key := k } = readReg r s := by
  cases r <;> rfl

theorem busRead_with_key (a : Offset) : busRead a { s with key := k } = busRead a s :=
  busRead_congr fun r _ => readReg_with_key s k r

/-- No register but KEY stores anything of KEY. -/
theorem writeReg_with_key (r : Reg) (v : Word) : SameButKey (writeReg r v s) (writeReg r v { s with key := k }) := by
  cases r <;> rfl

/-- The response of a write does not show the secret, and its effect stays in KEY. -/
theorem busWrite_with_key (a : Offset) (v : Word) :
    ∃ k', busWrite a v { s with key := k } = ((busWrite a v s).1, { (busWrite a v s).2 with key := k' }) := by
  cases hr : regAt a with
  | none => exact ⟨k, by simp [busWrite, hr]⟩
  | some r =>
    have busy : isBusy { s with key := k } = isBusy s := rfl
    rw [busWrite_of_reg hr, busWrite_of_reg hr, busy]
    split
    · exact ⟨k, rfl⟩
    · exact ⟨_, congrArg (Prod.mk Resp.okay) (writeReg_with_key s k r v)⟩

theorem writeAccess_with_key (a : Offset) (v : Word) :
    SameButKey (writeAccess a v s) (writeAccess a v { s with key := k }) := by
  obtain ⟨k', written⟩ := busWrite_with_key s k a v
  rw [writeAccess_eq, writeAccess_eq, written]
  rfl

theorem readAccess_with_key (a : Offset) : readAccess a { s with key := k } = { readAccess a s with key := k } := by
  rw [readAccess, readAccess, busRead_with_key]

theorem access_with_key (a : Access) : SameButKey (access a s) (access a { s with key := k }) := by
  cases a with
  | read addr =>
    cases h : apertureOffset addr with
    | none => simp only [access, h]; rfl
    | some off => simp only [access, h, readAccess_with_key]; rfl
  | write addr v =>
    cases h : apertureOffset addr with
    | none => simp only [access, h]; rfl
    | some off => simpa only [access, h] using writeAccess_with_key s k off v

/-! ### The HOST's turn -/

theorem advance_sameButKey {s t : State} (h : SameButKey s t) : SameButKey (advance s) (advance t) := by
  rw [h]
  rfl

theorem hostWrite_with_key (a : Offset) (v : Word) :
    SameButKey (hostWrite a v s) (hostWrite a v { s with key := k }) := by
  unfold hostWrite
  split
  · rfl
  · exact advance_sameButKey (writeAccess_with_key s k a v)

theorem hostRead_with_key (r : Nat) (a : Offset) :
    SameButKey (hostRead r a s) (hostRead r a { s with key := k }) := by
  unfold hostRead
  rw [busRead_with_key, readAccess_with_key]
  split <;> rfl

theorem branch_with_key (taken : Bool) (l : Target) :
    AlikeButKey (branch taken l s) (branch taken l { s with key := k }) := by
  cases taken with
  | false => exact .next rfl
  | true =>
    simp only [branch, jump, ↓reduceIte]
    split
    · exact .next rfl
    · exact .fault _

theorem runStmt_with_key (st : Stmt) : AlikeButKey (runStmt st s) (runStmt st { s with key := k }) := by
  cases st with
  | wr _ _ | word _ | wrr _ _ => exact .next (hostWrite_with_key s k _ _)
  | rd r off => exact .next (hostRead_with_key s k r off)
  | cmd c =>
    simp only [runStmt]
    split
    · exact .next (hostWrite_with_key s k _ _)
    · exact .fault _
  | bset _ _ _ | bclr _ _ _ | bne _ _ _ => exact branch_with_key s k _ _
  | li _ _ | addi _ _ | label _ | halt => exact .next rfl

theorem hostStep_with_key : AlikeButKey (hostStep s) (hostStep { s with key := k }) := by
  cases h : s.env.script[s.env.pos]? with
  | none =>
    simp only [hostStep, h]
    exact .next rfl
  | some st =>
    rw [hostStep_of_stmt h, hostStep_of_stmt (s := { s with key := k }) h]
    exact runStmt_with_key s k st

/-! ### COMPLETE -/

/-- A command that is not keyed makes its checks and its writes without KEY; CLEAR writes zeros over it. -/
theorem commandResult_with_key {i : Instr} (plain : opCode i ∉ [3, 7, 8]) :
    ∃ k', commandResult i { s with key := k } = (commandResult i s).map fun u => { u with key := k' } := by
  cases i with
  | hmac _ | hotp _ _ | totp _ _ => simp [opCode] at plain
  | nop => exact ⟨k, rfl⟩
  | clear => exact ⟨Vector.replicate _ 0, rfl⟩
  | derive | trunc | reduce _ | format =>
    refine ⟨k, ?_⟩
    simp only [commandResult, deriveResult, truncResult, reduceResult, formatResult]
    repeat' split
    all_goals rfl

theorem exec_with_key {i : Instr} (plain : opCode i ∉ [3, 7, 8]) :
    AlikeButKey (exec i s) (exec i { s with key := k }) := by
  obtain ⟨k', result⟩ := commandResult_with_key s k plain
  rw [exec_eq_complete, exec_eq_complete, result]
  cases commandResult i s <;> exact .next rfl

theorem completeWord_with_key {w : Word} (plain : ∀ i, decode w = .ok i → opCode i ∉ [3, 7, 8]) :
    AlikeButKey (completeWord w s) (completeWord w { s with key := k }) := by
  unfold completeWord
  split
  · exact .next rfl
  · next i decoded => exact exec_with_key s k (plain i decoded)

theorem engineStep_with_key (plain : ∀ w i, s.pending = some w → decode w = .ok i → opCode i ∉ [3, 7, 8]) :
    AlikeButKey (engineStep s) (engineStep { s with key := k }) := by
  obtain idle | ⟨w, pending⟩ := Option.eq_none_or_eq_some s.pending
  · rw [engineStep_of_idle idle, engineStep_of_idle (s := { s with key := k }) idle]
    exact .next rfl
  · rw [engineStep_of_pending pending, engineStep_of_pending (s := { s with key := k }) pending]
    exact completeWord_with_key s k fun i => plain w i pending

/-! ### The step -/

/-- Who moves next is not seen in KEY; every turn but the COMPLETE of a keyed command keeps two machines alike but for
KEY. -/
theorem step_with_key
    (plain : ∀ w i, s.pending = some w → (nextTurn s).1 = .engine → decode w = .ok i → opCode i ∉ [3, 7, 8]) :
    AlikeButKey (step s) (step { s with key := k }) := by
  have turn : step { s with key := k } = takeTurn (nextTurn s).1 { turnState s with key := k } := rfl
  rw [turn, step_eq_takeTurn]
  cases ht : (nextTurn s).1 with
  | host => exact hostStep_with_key (turnState s) k
  | engine => exact engineStep_with_key (turnState s) k fun w i pending => plain w i pending ht
  | bus a =>
    refine .next ?_
    unfold busStep
    split
    · rfl
    · exact access_with_key (turnState s) k a
  | reset | release => exact .next rfl

end OtherKey

/-- Settles O57: the reads by the register map, the steps turn by turn. -/
theorem secretIsNotReadable : Obligations.SecretIsNotReadable := by
  refine ⟨fun a s k => busRead_with_key s k a, fun s t k stepped plain => ?_⟩
  have alike := step_with_key s k plain
  rw [stepped] at alike
  generalize step { s with key := k } = o at alike
  cases alike with
  | next same => exact ⟨_, congrArg Host.Outcome.next same⟩

end Sys2Proof.Machine

/-! PROOFS. The statements of spec/70_reset_and_hazards.md: the reset event (R280 to R282), the secret (R292) and the
progress of a pending command (R294). -/

namespace Sys2Proof.Machine

open Sys2Proof.Safety Sys2Proof.Claims

/-! ## Progress (R294; logs 1 and 2) -/

theorem isBusy_of_sameWhileBusy {s t : State} (same : SameWhileBusy s t) : isBusy t = isBusy s := by
  rw [SameWhileBusy] at same
  rw [same]
  rfl

/-- A step that ends BUSY is a COMPLETE or the reset event: no write withdraws a pending command (R213, R281). -/
theorem done_or_inReset_of_step_ends_busy {s t : State} (busy : isBusy s = true) (stepped : step s = .next t)
    (idle : isBusy t = false) : t.done = true ∨ t.env.inReset = true := by
  have changed : ¬ SameWhileBusy s t := fun same => by
    simp [isBusy_of_sameWhileBusy same, busy] at idle
  obtain ⟨effect, _⟩ := step_cases stepped
  cases effect with
  | still _ block => exact absurd (sameWhileBusy_of_sameBlock (sameWhileBusy_refl s) block) changed
  | wrote a v _ _ block => exact absurd (sameWhileBusy_of_sameBlock (busWrite_sameWhileBusy busy a v) block) changed
  | completed _ _ _ result => exact .inl (completeWord_retires result).2
  | reset _ _ asserted => exact .inr asserted

/-- Within n steps the machine reaches a state with BUSY = 0, its command completed or discarded by reset. -/
def SettlesWithin (n : Nat) (s : State) : Prop :=
  ∃ k t, k ≤ n ∧ Host.Core.run Sys2Proof.core k s = .next t ∧ isBusy t = false ∧
    (t.done = true ∨ t.env.inReset = true)

theorem settlesWithin_succ_of_step {n : Nat} {s u : State} (stepped : step s = .next u) (later : SettlesWithin n u) :
    SettlesWithin (n + 1) s := by
  obtain ⟨k, t, bound, ran, settled⟩ := later
  exact ⟨k + 1, t, Nat.succ_le_succ bound, (run_succ (M := Sys2Proof.core) stepped).trans ran, settled⟩

/-- One step ends BUSY or leaves the rest to the steps after it. -/
theorem settlesWithin_succ_of_busy {n : Nat} {s u : State} (busy : isBusy s = true) (stepped : step s = .next u)
    (later : isBusy u = true → SettlesWithin n u) : SettlesWithin (n + 1) s := by
  refine settlesWithin_succ_of_step stepped ?_
  cases busy' : isBusy u with
  | true => exact later busy'
  | false => exact ⟨0, u, Nat.zero_le n, rfl, busy', done_or_inReset_of_step_ends_busy busy stepped busy'⟩

/-- With no turn scheduled and reset not asserted the next step is the COMPLETE. -/
theorem settlesWithin_one_of_calm {s : State} (busy : isBusy s = true) (turns : s.env.turns = [])
    (calm : s.env.inReset = false) : SettlesWithin 1 s := by
  obtain ⟨w, pending⟩ := Option.isSome_iff_exists.1 busy
  obtain ⟨t, result⟩ := completeWord_next w s
  have turn : defaultTurn s = .engine := by simp [defaultTurn, calm, busy]
  have stepped : step s = .next t := by
    rw [step_of_no_turn turns, turn, takeTurn, engineStep_of_pending pending, result]
  refine settlesWithin_succ_of_busy busy stepped fun busy' => ?_
  simp [isBusy, (completeWord_retires result).1] at busy'

/-- With no turn scheduled, reset is first released if it is asserted. -/
theorem settlesWithin_two_of_no_turn {s : State} (busy : isBusy s = true) (turns : s.env.turns = []) :
    SettlesWithin 2 s := by
  cases held : s.env.inReset with
  | false =>
    obtain ⟨k, t, bound, reached⟩ := settlesWithin_one_of_calm busy turns held
    exact ⟨k, t, Nat.le_succ_of_le bound, reached⟩
  | true =>
    have released : step s = .next (releaseReset s) := by
      rw [step_of_no_turn turns, defaultTurn, if_pos held, takeTurn]
    exact settlesWithin_succ_of_step released (settlesWithin_one_of_calm busy turns rfl)

/-- Each step of a machine with a meaningful program uses up one turn of the schedule. -/
theorem settlesWithin_of_turns {s : State} {ts : List Turn} (turns : s.env.turns = ts) (ok : HostProgramOK s)
    (busy : isBusy s = true) : SettlesWithin (ts.length + 2) s := by
  induction ts generalizing s with
  | nil => exact settlesWithin_two_of_no_turn busy turns
  | cons turn ts ih =>
    obtain ⟨u, stepped, ok'⟩ := theMachineNeverStops s ok
    obtain ⟨_, _, schedule, _⟩ := step_cases stepped
    have turns' : u.env.turns = ts := by rw [schedule, nextTurn, turns]
    exact settlesWithin_succ_of_busy busy stepped (ih turns' ok')

/-- Settles O51: by induction on the schedule; when it has run out, a release of reset if need be and then COMPLETE. -/
theorem pendingCommandsComplete : Obligations.PendingCommandsComplete :=
  fun _ ok busy => settlesWithin_of_turns rfl ok busy

/-! ## The secret (R292) -/

theorem key_of_sameBlock {s t : State} (h : SameBlock s t) : t.key = s.key := by
  rw [h]

/-- COMPLETE writes KEY only for CLEAR (R215). -/
theorem completeWord_key_of_not_clear {w : Word} {s t : State} (h : completeWord w s = .next t)
    (notClear : decode w ≠ .ok .clear) : t.key = s.key := by
  obtain ⟨_, rfl⟩ | ⟨i, decoded, ran⟩ := completeWord_cases h
  · rfl
  · obtain ⟨_, _, _, _, _, _, _, key, _⟩ := commandFrame i s t ran
    refine (key ?_).1
    cases i with
    | clear => exact absurd decoded notClear
    | _ => simp [opCode]

/-- The KEY window is 0x100 to 0x17F (R23, R38). -/
theorem regOffset_key_bounds (j : Fin 32) : 0x100 ≤ (regOffset (.key j)).toNat ∧ (regOffset (.key j)).toNat < 0x180 := by
  revert j
  decide

/-- A write changes KEY only through the KEY window, and only while BUSY = 0 (R38, R66). -/
theorem busWrite_key_cases (a : Offset) (v : Word) (s : State) :
    (busWrite a v s).2.key = s.key ∨ (isBusy s = false ∧ 0x100 ≤ a.toNat ∧ a.toNat < 0x180) := by
  obtain ⟨_, e⟩ | ⟨_, _, _, _, e⟩ | ⟨r, hr, free, e⟩ := busWrite_cases a v s <;> rw [e]
  · exact .inl rfl
  · exact .inl rfl
  · cases r with
    | key j =>
      obtain rfl := regOffset_of_regAt a _ hr
      exact .inr ⟨free.resolve_right nofun, regOffset_key_bounds j⟩
    | _ => exact .inl rfl

/-- Settles O56: of all that a step can do (StepEffect), a write reaches KEY only through its window on an idle block, and
COMPLETE only for CLEAR. -/
theorem secretChangesOnlyByKeyWriteClearReset : Obligations.SecretChangesOnlyByKeyWriteClearReset := by
  intro s t stepped changed
  obtain ⟨effect, _⟩ := step_cases stepped
  cases effect with
  | still _ block => exact absurd (key_of_sameBlock block) changed
  | wrote a v write _ block =>
    obtain kept | ⟨idle, window⟩ := busWrite_key_cases a v s
    · exact absurd ((key_of_sameBlock block).trans kept) changed
    · exact .inr (.inl ⟨idle, a, v, write, window⟩)
  | completed w turn word result =>
    refine .inr (.inr ⟨w, word, turn, ?_⟩)
    by_contra notClear
    exact changed (completeWord_key_of_not_clear (s := turnState s) result notClear)
  | reset turn _ _ => exact .inl turn

/-! ## The reset event (R280 to R282) -/

theorem busStep_of_inReset {s : State} (held : s.env.inReset = true) (a : Access) : busStep a s = s := if_pos held

theorem hostWrite_of_inReset {s : State} (held : s.env.inReset = true) (a : Offset) (v : Word) : hostWrite a v s = s :=
  if_pos held

theorem hostRead_of_inReset {s : State} (held : s.env.inReset = true) (r : Nat) (a : Offset) : hostRead r a s = s :=
  if_pos held

/-- Settles O47: the state the reset event leaves has nothing pending, so COMPLETE has no step in it; while reset is
asserted the accesses have none either. -/
theorem resetEventDiscardsThePendingCommand : Obligations.ResetEventDiscardsThePendingCommand := by
  refine fun s => ⟨⟨assertReset s, rfl, rfl, rfl, rfl, rfl, engineStep_of_idle rfl⟩,
    fun held => ⟨fun a => ?_, hostWrite_of_inReset held, hostRead_of_inReset held⟩⟩
  rw [takeTurn, busStep_of_inReset held]

end Sys2Proof.Machine

/-! PROOFS. A step as exec of the pending command (R75, R211, R294), and what the constant, command and result registers
read (R24 to R26, R35 to R37). -/

namespace Sys2Proof.Machine

open Sys2Proof.Safety Sys2Proof.Claims

/-! ## A step is exec of the pending command (R211, R213) -/

section

variable {s : State} {w : Word} {i : Instr}

theorem engineStep_of_decode (pending : s.pending = some w) (decoded : decode w = .ok i) : engineStep s = exec i s :=
  (engineStep_of_pending pending).trans (completeWord_of_decode decoded s)

/-- The COMPLETE of a scheduled turn works on the state whose schedule has moved past that turn. -/
theorem step_of_engine_turn (pending : s.pending = some w) (decoded : decode w = .ok i) {ts : List Turn}
    (turns : s.env.turns = .engine :: ts) : step s = exec i { s with env := { s.env with turns := ts } } :=
  (step_of_turn turns).trans (engineStep_of_decode pending decoded)

/-- With nothing scheduled and reset not asserted, a pending command makes the turn the ENGINE's (log 1). -/
theorem defaultTurn_of_pending (pending : s.pending = some w) (calm : s.env.inReset = false) :
    defaultTurn s = .engine := by
  simp [defaultTurn, isBusy, calm, pending]

theorem withFetchWord_toNat (n : Nat) (s : State) (w : Word) : s.withFetchWord n w.toNat = placeCommand w s := by
  rw [State.withFetchWord, BitVec.ofNat_toNat, BitVec.setWidth_eq]

end

/-- Settles O7: each of the three states gives the turn to the ENGINE with w pending; the turn that placeCommand puts
before the schedule is the one the step uses up, so what it runs on is the issue alone. -/
theorem stepRunsTheDecodedCommand : Obligations.StepRunsTheDecodedCommand := by
  refine fun s w i decoded => ⟨fun pending ts turns => ?scheduled, fun pending turns calm => ?unscheduled, ?placed⟩
  case scheduled => exact step_of_engine_turn pending decoded turns
  case unscheduled =>
    rw [step_of_no_turn turns, defaultTurn_of_pending pending calm]
    exact engineStep_of_decode pending decoded
  case placed =>
    rw [withFetchWord_toNat]
    exact step_of_engine_turn (s := placeCommand w s) rfl decoded rfl

/-! ## The constant, command and result registers (R24 to R26, R35 to R37) -/

/-- P and OTP read as their 31-bit value with bit 31 zero. -/
theorem setWidth_of_31_bits (x : BitVec 31) :
    (x.setWidth 32).toNat = x.toNat ∧ (x.setWidth 32).getLsbD 31 = false :=
  ⟨BitVec.toNat_setWidth_of_le (by decide), by simp⟩

/-- Settles O42: each offset is its register's, ID and CAP are constants, and a result reads as its value widened. -/
theorem resultRegistersRead : Obligations.ResultRegistersRead := fun s =>
  ⟨busRead_regOffset .id s, busRead_regOffset .cap s, busRead_regOffset .cmd s,
    ⟨_, busRead_regOffset .trunc s, BitVec.toNat_setWidth_of_le (by decide)⟩,
    ⟨_, busRead_regOffset .p s, setWidth_of_31_bits s.p⟩,
    ⟨_, busRead_regOffset .otp s, setWidth_of_31_bits s.otp⟩⟩

end Sys2Proof.Machine
